-- ==== Sys2Proof/Word.lean ====
section
/-! DEFINITION. The word types of the block: bytes, channel words, addresses and
addresses one bit wider (spec/00_scope.md R8, R10; spec/10_state.md R23, R24, R37, R38). -/

namespace Sys2Proof

/-- One byte: a symbol, a rank or a context (spec/00_scope.md R15). -/
abbrev Byte := BitVec 8

/-- One 32-bit channel word, register or address (spec/00_scope.md R7, R8). -/
abbrev Word := BitVec 32

/-- A value of `AW + 1` bits, so that one past the top of the address space can be
held (spec/20_memory.md R71). -/
abbrev WideAddr := BitVec 33

end Sys2Proof
end

