-- ==== Sys2Proof/Syntax.lean ====
section
/-! DEFINITION. The 22 operations of spec/30_encoding.md R108 (spec/opcode_table.json), and
the two forms in which one is presented to the engine: a command word (R101) and an
operation code with its operands beside it (R106; notes/assumptions/2.md). -/

namespace Sys2Proof

/-- One constructor per row of spec/opcode_table.json, operands in the order of R108. -/
inductive Instr where
  /-- `INIT`, spec/44_pipeline.md R197. -/
  | init
  /-- `COMPRESS`, spec/44_pipeline.md R198. -/
  | compress
  /-- `DECOMPRESS`, spec/44_pipeline.md R199. -/
  | decompress
  /-- `BC.OPEN_R base, end`, spec/40_bit_channel.md R121. -/
  | bcOpenR (base : Word) (stop : WideAddr)
  /-- `BC.OPEN_W base, lim`, spec/40_bit_channel.md R122. -/
  | bcOpenW (base : Word) (lim : WideAddr)
  /-- `BC.PUT1`, spec/40_bit_channel.md R123. -/
  | bcPut1
  /-- `BC.WRFIX value, n`, spec/40_bit_channel.md R124. -/
  | bcWrfix (value : Word) (n : BitVec 6)
  /-- `BC.WRZERO n`, spec/40_bit_channel.md R125. -/
  | bcWrzero (n : Word)
  /-- `BC.FLUSH`, spec/40_bit_channel.md R126. -/
  | bcFlush
  /-- `BC.RDFIX n`, spec/40_bit_channel.md R129. -/
  | bcRdfix (n : BitVec 6)
  /-- `BC.RDUNARY`, spec/40_bit_channel.md R130. -/
  | bcRdunary
  /-- `BC.RELOAD`, spec/40_bit_channel.md R131. -/
  | bcReload
  /-- `BC.CLOSE_R`, spec/40_bit_channel.md R133. -/
  | bcCloseR
  /-- `BC.CLOSE_W`, spec/40_bit_channel.md R134. -/
  | bcCloseW
  /-- `GRE.ENCODE k, value`, spec/42_golomb_rice.md R171. -/
  | greEncode (k : BitVec 5) (value : Word)
  /-- `GRD.DECODE k`, spec/42_golomb_rice.md R175. -/
  | grdDecode (k : BitVec 5)
  /-- `RM.INIT`, spec/41_rank_model.md R151. -/
  | rmInit
  /-- `RM.RANK_OF x, s`, spec/41_rank_model.md R152. -/
  | rmRankOf (context symbol : Byte)
  /-- `RM.SYMBOL_AT x, r`, spec/41_rank_model.md R153. -/
  | rmSymbolAt (context rank : Byte)
  /-- `RM.OBSERVE x, s`, spec/41_rank_model.md R154. -/
  | rmObserve (context symbol : Byte)
  /-- `EST.INIT`, spec/43_estimator.md R185. -/
  | estInit
  /-- `EST.UPDATE d`, spec/43_estimator.md R186; nine bits, so that the marker 256, which
  the block never passes, can be named and turned away (notes/assumptions/17.md). -/
  | estUpdate (rankValue : BitVec 9)
  deriving DecidableEq, Repr

/-- An operation on the engine's internal operation bus: its 8-bit code
(spec/30_encoding.md R106) and its operands beside it, the first in `opA`, the second in
`opB`, each lane as wide as the widest operand of R108 (notes/assumptions/2.md). -/
structure BusOp where
  code : BitVec 8
  opA : BitVec 33
  opB : BitVec 33
  deriving DecidableEq, Repr

/-- What the engine can be given to decode: a 32-bit value written to `CMD`
(spec/30_encoding.md R101) or an operation on the operation bus (R106). -/
inductive Packet where
  | cmd (w : Word)
  | op (o : BusOp)
  deriving DecidableEq, Repr

end Sys2Proof
end

