-- ==== Sys2Proof/WellFormed.lean ====
section
/-! DEFINITION. The preconditions on operands alone that the `assert` lines of the rules
state (spec/00_scope.md R12): an operation that breaks one has no meaning
(spec/93_implementation_defined.md U11, U13, V14). -/

namespace Sys2Proof

/-- `BC.OPEN_R`'s precondition (spec/40_bit_channel.md R121). -/
def readRegionOk (base : Word) (stop : WideAddr) : Bool :=
  base.toNat % 4 == 0 && decide (base.toNat ≤ stop.toNat) && (stop.toNat - base.toNat) % 4 == 0

/-- `BC.OPEN_W`'s precondition (spec/40_bit_channel.md R122). -/
def writeRegionOk (base : Word) (lim : WideAddr) : Bool :=
  base.toNat % 4 == 0 && decide (base.toNat ≤ lim.toNat)

/-- A field of at most 32 bits (spec/40_bit_channel.md R124, R129; U13). -/
def fieldLengthOk (n : BitVec 6) : Bool := decide (n.toNat ≤ 32)

/-- A rank value in 0 to 255 (spec/43_estimator.md R186; V14). -/
def rankValueOk (d : BitVec 9) : Bool := decide (d.toNat ≤ 255)

/-- The operand preconditions of every operation. -/
def Instr.wf : Instr → Bool
  | .bcOpenR base stop => readRegionOk base stop
  | .bcOpenW base lim => writeRegionOk base lim
  | .bcWrfix _ n => fieldLengthOk n
  | .bcRdfix n => fieldLengthOk n
  | .estUpdate d => rankValueOk d
  | .init => true
  | .compress => true
  | .decompress => true
  | .bcPut1 => true
  | .bcWrzero _ => true
  | .bcFlush => true
  | .bcRdunary => true
  | .bcReload => true
  | .bcCloseR => true
  | .bcCloseW => true
  | .greEncode _ _ => true
  | .grdDecode _ => true
  | .rmInit => true
  | .rmRankOf _ _ => true
  | .rmSymbolAt _ _ => true
  | .rmObserve _ _ => true
  | .estInit => true

end Sys2Proof
end

