-- ==== Sys2Proof/Decode.lean ====
section
/-! DEFINITION. The decoder of command words (spec/30_encoding.md R101, R104, R105) and of
operation codes (R106 to R109), total and rejecting by name; after it the encoder, written
from the same tables. -/

namespace Sys2Proof

/-- Why a packet decodes to no operation. -/
inductive DecodeError where
  /-- A reserved command word (spec/30_encoding.md R105). -/
  | reservedCommand (w : Word)
  /-- A reserved operation code (spec/30_encoding.md R109). -/
  | reservedOperation (code : BitVec 8)
  /-- An operand lane holds a value its operand has no bits for, or a lane the operation
  does not use is not zero (notes/assumptions/2.md). -/
  | operandOutOfLane (code : BitVec 8)
  deriving DecidableEq, Repr

/-- The field `OPCODE`, bits `[3:0]` of a command word (spec/30_encoding.md R101). -/
def cmdOpcode (w : Word) : BitVec 4 := w.extractLsb' 0 4

/-- The reserved field, bits `[31:4]` of a command word (spec/30_encoding.md R101). -/
def cmdReserved (w : Word) : BitVec 28 := w.extractLsb' 4 28

/-- The command table of spec/30_encoding.md R104. -/
def decodeCmd (w : Word) : Except DecodeError Instr :=
  if cmdReserved w = 0 then
    if cmdOpcode w = 1 then .ok .init
    else if cmdOpcode w = 2 then .ok .compress
    else if cmdOpcode w = 3 then .ok .decompress
    else .error (.reservedCommand w)
  else .error (.reservedCommand w)

/-- The field `UNIT`, bits `[7:4]` of an operation code (spec/30_encoding.md R106). -/
def codeUnit (code : BitVec 8) : BitVec 4 := code.extractLsb' 4 4

/-- The field `FUNC`, bits `[3:0]` of an operation code (spec/30_encoding.md R106). -/
def codeFunc (code : BitVec 8) : BitVec 4 := code.extractLsb' 0 4

/-- The operand of `w` bits in a lane, when the lane's value fits it. -/
def laneValue (w : Nat) (lane : BitVec 33) : Option (BitVec w) :=
  if lane.toNat < 2 ^ w then some (BitVec.ofNat w lane.toNat) else none

/-- An operation without operands: both lanes are zero. -/
def decode0 (o : BusOp) (i : Instr) : Except DecodeError Instr :=
  if o.opA = 0 ∧ o.opB = 0 then .ok i else .error (.operandOutOfLane o.code)

/-- An operation with one operand of `w` bits. -/
def decode1 (o : BusOp) (w : Nat) (f : BitVec w → Instr) : Except DecodeError Instr :=
  match laneValue w o.opA with
  | some a => if o.opB = 0 then .ok (f a) else .error (.operandOutOfLane o.code)
  | none => .error (.operandOutOfLane o.code)

/-- An operation with operands of `w` and `v` bits. -/
def decode2 (o : BusOp) (w v : Nat) (f : BitVec w → BitVec v → Instr) :
    Except DecodeError Instr :=
  match laneValue w o.opA, laneValue v o.opB with
  | some a, some b => .ok (f a b)
  | _, _ => .error (.operandOutOfLane o.code)

/-- The functions of unit PIPE, `UNIT = 0x0`: for a host command `OP = {0x0, OPCODE}`
(spec/30_encoding.md R106). -/
def decodePipe (o : BusOp) : Except DecodeError Instr :=
  if codeFunc o.code = 0x1 then decode0 o .init
  else if codeFunc o.code = 0x2 then decode0 o .compress
  else if codeFunc o.code = 0x3 then decode0 o .decompress
  else .error (.reservedOperation o.code)

/-- The functions of unit BC, `UNIT = 0x1` (spec/30_encoding.md R108). -/
def decodeBc (o : BusOp) : Except DecodeError Instr :=
  if codeFunc o.code = 0x0 then decode2 o 32 33 Instr.bcOpenR
  else if codeFunc o.code = 0x1 then decode2 o 32 33 Instr.bcOpenW
  else if codeFunc o.code = 0x2 then decode0 o .bcPut1
  else if codeFunc o.code = 0x3 then decode2 o 32 6 Instr.bcWrfix
  else if codeFunc o.code = 0x4 then decode1 o 32 Instr.bcWrzero
  else if codeFunc o.code = 0x5 then decode0 o .bcFlush
  else if codeFunc o.code = 0x6 then decode1 o 6 Instr.bcRdfix
  else if codeFunc o.code = 0x7 then decode0 o .bcRdunary
  else if codeFunc o.code = 0x8 then decode0 o .bcReload
  else if codeFunc o.code = 0x9 then decode0 o .bcCloseR
  else if codeFunc o.code = 0xA then decode0 o .bcCloseW
  else .error (.reservedOperation o.code)

/-- The function of unit GRE, `UNIT = 0x2` (spec/30_encoding.md R108). -/
def decodeGre (o : BusOp) : Except DecodeError Instr :=
  if codeFunc o.code = 0x0 then decode2 o 5 32 Instr.greEncode
  else .error (.reservedOperation o.code)

/-- The function of unit GRD, `UNIT = 0x3` (spec/30_encoding.md R108). -/
def decodeGrd (o : BusOp) : Except DecodeError Instr :=
  if codeFunc o.code = 0x0 then decode1 o 5 Instr.grdDecode
  else .error (.reservedOperation o.code)

/-- The functions of unit RM, `UNIT = 0x4` (spec/30_encoding.md R108). -/
def decodeRm (o : BusOp) : Except DecodeError Instr :=
  if codeFunc o.code = 0x0 then decode0 o .rmInit
  else if codeFunc o.code = 0x1 then decode2 o 8 8 Instr.rmRankOf
  else if codeFunc o.code = 0x2 then decode2 o 8 8 Instr.rmSymbolAt
  else if codeFunc o.code = 0x3 then decode2 o 8 8 Instr.rmObserve
  else .error (.reservedOperation o.code)

/-- The functions of unit EST, `UNIT = 0x5` (spec/30_encoding.md R108). -/
def decodeEst (o : BusOp) : Except DecodeError Instr :=
  if codeFunc o.code = 0x0 then decode0 o .estInit
  else if codeFunc o.code = 0x1 then decode1 o 9 Instr.estUpdate
  else .error (.reservedOperation o.code)

/-- The operation table of spec/30_encoding.md R107 to R109, by unit. -/
def decodeOp (o : BusOp) : Except DecodeError Instr :=
  if codeUnit o.code = 0x0 then decodePipe o
  else if codeUnit o.code = 0x1 then decodeBc o
  else if codeUnit o.code = 0x2 then decodeGre o
  else if codeUnit o.code = 0x3 then decodeGrd o
  else if codeUnit o.code = 0x4 then decodeRm o
  else if codeUnit o.code = 0x5 then decodeEst o
  else .error (.reservedOperation o.code)

/-- The decoder, total on every packet. -/
def decode : Packet → Except DecodeError Instr
  | .cmd w => decodeCmd w
  | .op o => decodeOp o

/-- The operation code of an operation, `{UNIT, FUNC}` (spec/30_encoding.md R106 to R108). -/
def opCode : Instr → BitVec 8
  | .init => 0x01
  | .compress => 0x02
  | .decompress => 0x03
  | .bcOpenR _ _ => 0x10
  | .bcOpenW _ _ => 0x11
  | .bcPut1 => 0x12
  | .bcWrfix _ _ => 0x13
  | .bcWrzero _ => 0x14
  | .bcFlush => 0x15
  | .bcRdfix _ => 0x16
  | .bcRdunary => 0x17
  | .bcReload => 0x18
  | .bcCloseR => 0x19
  | .bcCloseW => 0x1A
  | .greEncode _ _ => 0x20
  | .grdDecode _ => 0x30
  | .rmInit => 0x40
  | .rmRankOf _ _ => 0x41
  | .rmSymbolAt _ _ => 0x42
  | .rmObserve _ _ => 0x43
  | .estInit => 0x50
  | .estUpdate _ => 0x51

/-- The first operand lane of an operation. -/
def laneA : Instr → BitVec 33
  | .bcOpenR base _ => base.setWidth 33
  | .bcOpenW base _ => base.setWidth 33
  | .bcWrfix value _ => value.setWidth 33
  | .bcWrzero n => n.setWidth 33
  | .bcRdfix n => n.setWidth 33
  | .greEncode k _ => k.setWidth 33
  | .grdDecode k => k.setWidth 33
  | .rmRankOf x _ => x.setWidth 33
  | .rmSymbolAt x _ => x.setWidth 33
  | .rmObserve x _ => x.setWidth 33
  | .estUpdate d => d.setWidth 33
  | .init => 0
  | .compress => 0
  | .decompress => 0
  | .bcPut1 => 0
  | .bcFlush => 0
  | .bcRdunary => 0
  | .bcReload => 0
  | .bcCloseR => 0
  | .bcCloseW => 0
  | .rmInit => 0
  | .estInit => 0

/-- The second operand lane of an operation. -/
def laneB : Instr → BitVec 33
  | .bcOpenR _ stop => stop
  | .bcOpenW _ lim => lim
  | .bcWrfix _ n => n.setWidth 33
  | .greEncode _ value => value.setWidth 33
  | .rmRankOf _ s => s.setWidth 33
  | .rmSymbolAt _ r => r.setWidth 33
  | .rmObserve _ s => s.setWidth 33
  | .init => 0
  | .compress => 0
  | .decompress => 0
  | .bcPut1 => 0
  | .bcWrzero _ => 0
  | .bcFlush => 0
  | .bcRdfix _ => 0
  | .bcRdunary => 0
  | .bcReload => 0
  | .bcCloseR => 0
  | .bcCloseW => 0
  | .grdDecode _ => 0
  | .rmInit => 0
  | .estInit => 0
  | .estUpdate _ => 0

/-- The operation as it stands on the operation bus (spec/30_encoding.md R106). -/
def encodeOp (i : Instr) : BusOp := ⟨opCode i, laneA i, laneB i⟩

/-- The encoder: a host command is a command word (spec/30_encoding.md R104), whose low byte is
its operation code (R106); a micro-operation is its code with its operands beside it. -/
def encode : Instr → Packet
  | .init => .cmd 0x00000001
  | .compress => .cmd 0x00000002
  | .decompress => .cmd 0x00000003
  | .bcOpenR base stop => .op (encodeOp (.bcOpenR base stop))
  | .bcOpenW base lim => .op (encodeOp (.bcOpenW base lim))
  | .bcPut1 => .op (encodeOp .bcPut1)
  | .bcWrfix value n => .op (encodeOp (.bcWrfix value n))
  | .bcWrzero n => .op (encodeOp (.bcWrzero n))
  | .bcFlush => .op (encodeOp .bcFlush)
  | .bcRdfix n => .op (encodeOp (.bcRdfix n))
  | .bcRdunary => .op (encodeOp .bcRdunary)
  | .bcReload => .op (encodeOp .bcReload)
  | .bcCloseR => .op (encodeOp .bcCloseR)
  | .bcCloseW => .op (encodeOp .bcCloseW)
  | .greEncode k value => .op (encodeOp (.greEncode k value))
  | .grdDecode k => .op (encodeOp (.grdDecode k))
  | .rmInit => .op (encodeOp .rmInit)
  | .rmRankOf x s => .op (encodeOp (.rmRankOf x s))
  | .rmSymbolAt x r => .op (encodeOp (.rmSymbolAt x r))
  | .rmObserve x s => .op (encodeOp (.rmObserve x s))
  | .estInit => .op (encodeOp .estInit)
  | .estUpdate d => .op (encodeOp (.estUpdate d))

/-- The operation with all operand lanes zero whose code is the low byte of `w`. -/
def bareOp (w : Nat) : BusOp := ⟨BitVec.ofNat 8 w, 0, 0⟩

/-- The packet whose bits are `w`, numbered as spec/opcode_table.json numbers them: 32-bit
rows are command words, 8-bit rows operation codes with operands of zeros. -/
def tablePacket (nbits w : Nat) : Option Packet :=
  if 2 ^ nbits ≤ w then none
  else if nbits = 32 then some (.cmd (BitVec.ofNat 32 w))
  else if nbits = 8 then some (.op (bareOp w))
  else none

/-- The operation the decoder reads from a table word. -/
def decodeTableWord (nbits w : Nat) : Option Instr :=
  match tablePacket nbits w with
  | some p => (decode p).toOption
  | none => none

end Sys2Proof
end

