-- ==== Sys2Proof/Config.lean ====
section
/-! DEFINITION. What an implementation fixes: the constants of spec/00_scope.md R7, the
parameters of R8 at their defaults, and the free values, which have no body. -/

namespace Sys2Proof.Config

/-- spec/00_scope.md R7 `K_INIT`. -/
def kInit : BitVec 5 := 3

/-- spec/00_scope.md R7 `RESET_INTERVAL`: symbols between recomputations of `k`. -/
def resetInterval : Nat := 256

/-- spec/00_scope.md R7 `EOS_VALUE`, the end-of-stream marker. -/
def eosValue : Nat := 256

/-- spec/00_scope.md R7 `SENTINEL_WORD`. -/
def sentinelWord : Word := 0x80000000

/-- spec/00_scope.md R7 `N_SYMBOLS`, entries of one context table. -/
def nSymbols : Nat := 256

/-- spec/00_scope.md R7 `N_CONTEXTS`. -/
def nContexts : Nat := 256

/-- spec/00_scope.md R7 `INITIAL_CONTEXT`. -/
def initialContext : Byte := 0

/-- The number of byte addresses of external memory, `2^AW` with `AW = 32`
(spec/00_scope.md R8; notes/assumptions/28.md). -/
def addressSpace : Nat := 4294967296

/-- spec/00_scope.md R8 `REG_BASE`, a platform parameter: address of the host register
block in the platform's map. No body: nothing rests on its value (notes/assumptions/20.md). -/
opaque regBase : Word

/-- The platform address of the host register at byte offset `off` (spec/10_state.md R40). -/
def regAddress (off : Nat) : Word := regBase + BitVec.ofNat 32 off

/-- FREE VALUE. `rm.freq[x][s]` after the hardware reset with the given number
(spec/10_state.md R55, spec/93_implementation_defined.md V1; notes/assumptions/5.md). -/
opaque freqAtReset : Nat → Nat → BitVec 32

/-- FREE VALUE. `rm.r2s[x][r]` after a hardware reset (notes/assumptions/5.md). -/
opaque r2sAtReset : Nat → Nat → Byte

/-- FREE VALUE. `rm.s2r[x][s]` after a hardware reset (notes/assumptions/5.md). -/
opaque s2rAtReset : Nat → Nat → Byte

/-- FREE VALUE. What a read of a register other than `STATUS` returns while `BUSY = 1`
(spec/10_state.md R53, spec/93_implementation_defined.md V2; notes/assumptions/8.md). -/
opaque busyRead : Nat → Word

/-- FREE VALUE. The byte at an address of an output region whose command a hardware reset
abandoned (spec/70_reset_and_hazards.md R246, spec/93_implementation_defined.md V5;
notes/assumptions/7.md). -/
opaque lostByte : Nat → Nat → Byte

end Sys2Proof.Config
end

