-- ==== Sys2Proof/Machine/State.lean ====
section
/-! DEFINITION. The state of the block as plain data (spec/10_state.md), the external memory it
reads and writes (spec/20_memory.md R61), the host's side of the interface, the reasons a step
can stop, and the state after hardware reset (spec/10_state.md R55). -/

namespace Sys2Proof.Machine

/-- `bc.mode` (spec/10_state.md R21). -/
inductive BcMode where
  | closed
  | read
  | write
  deriving DecidableEq, Repr

/-- `pl.state` (spec/10_state.md R34). -/
inductive PlState where
  | idle
  | running
  | done
  | faulted
  deriving DecidableEq, Repr

/-- `pl.op`, the last command accepted (spec/10_state.md R35). -/
inductive PlOp where
  | none
  | init
  | compress
  | decompress
  deriving DecidableEq, Repr

/-- Unit BC (spec/10_state.md R21 to R26). `stop` is the spec's `bc.end`. `carry` is the model's own:
it is 1 when the cursor stands one past the top of the address space, which the `AW` bits of `cur`
cannot say and R71 and R131 need (notes/assumptions/3.md). -/
structure Bc where
  mode : BcMode
  cur : Word
  stop : WideAddr
  lim : WideAddr
  acc : Word
  fill : BitVec 6
  carry : BitVec 1
  deriving DecidableEq, Repr

/-- What an unlisted entry of the tables of unit RM reads as (spec/10_state.md R55, R56;
notes/assumptions/5.md). -/
inductive TableBase where
  /-- After the hardware reset with the given number: a free value. -/
  | unspecified (epoch : Nat)
  /-- After `RM.INIT`: no count, the identity permutation. -/
  | initialised
  deriving DecidableEq, Repr

/-- Unit RM (spec/10_state.md R28 to R30): three tables, each a list of the entries that differ
from what an unlisted entry reads as, keyed by `256 * context + index`, keys rising. -/
structure Rm where
  base : TableBase
  freq : List (Nat × BitVec 32)
  r2s : List (Nat × Byte)
  s2r : List (Nat × Byte)
  deriving DecidableEq, Repr

/-- Unit EST (spec/10_state.md R32). -/
structure Est where
  sum : BitVec 16
  count : BitVec 9
  k : BitVec 5
  deriving DecidableEq, Repr

/-- Unit PIPE (spec/10_state.md R34 to R39). -/
structure Pl where
  state : PlState
  op : PlOp
  ctx : Byte
  icur : WideAddr
  ocur : WideAddr
  err : BitVec 4
  modelInit : Bool
  deriving DecidableEq, Repr

/-- The host registers that hold state of their own (spec/10_state.md R43 to R48). -/
structure Regs where
  inBase : Word
  inLen : Word
  outBase : Word
  outCap : Word
  outEnd : Word
  inCur : Word
  deriving DecidableEq, Repr

/-- An output region whose command a hardware reset abandoned: its unlisted bytes are free
values (spec/70_reset_and_hazards.md R246; notes/assumptions/7.md). -/
structure LostRegion where
  base : Nat
  len : Nat
  epoch : Nat
  deriving DecidableEq, Repr

/-- External memory: the bytes that differ from what an unlisted address reads as, addresses
rising, and the regions a reset left unspecified. -/
structure Memory where
  cells : List Host.Cell
  lost : List LostRegion
  deriving DecidableEq, Repr

/-- How far the running command has come (notes/assumptions/9.md). -/
inductive Progress where
  /-- The opening lines of the command are still to be performed. -/
  | notStarted
  /-- The loop of the command is being performed. -/
  | looping
  deriving DecidableEq, Repr

/-- One action of the host (spec/30_encoding.md R111; notes/assumptions/1.md). -/
inductive HostAction where
  /-- A command written to `CMD`, the host leaving the block alone until it has ended
  (spec/00_scope.md R13; notes/assumptions/10.md). -/
  | cmd (w : Word)
  /-- `WR <reg>, <value>`, by byte offset from `REG_BASE`. -/
  | wr (off : Nat) (value : Word)
  /-- `RD <reg>`, by byte offset from `REG_BASE`. -/
  | rd (off : Nat)
  /-- `WAIT`: read `STATUS` until `DONE = 1` (spec/70_reset_and_hazards.md R257;
  notes/assumptions/12.md). -/
  | wait
  /-- Nothing: the engine moves. -/
  | idle
  /-- `MEM <addr>: <b0> <b1> ...`. -/
  | mem (addr : Nat) (bytes : List Byte)
  /-- The platform asserts `rst` (spec/70_reset_and_hazards.md R245). -/
  | rst
  deriving DecidableEq, Repr

/-- The whole machine. The fields from `prog` on are the model's own (INVENTORY.md). -/
structure State where
  bc : Bc
  rm : Rm
  est : Est
  pl : Pl
  regs : Regs
  mem : Memory
  prog : Progress
  bus : Option BusOp
  host : List HostAction
  rdata : Word
  result : Nat
  free : Nat
  deriving DecidableEq, Repr

/-- Why the machine stops. -/
inductive Fault where
  /-- Raised by a memory access at an address of external memory that does not exist
  (spec/20_memory.md R60: addresses have 32 bits). No run from reset reaches it but through a
  host store placed outside memory. Safe: the model stops (notes/assumptions/18.md). -/
  | noSuchAddress (addr : Nat)
  deriving DecidableEq, Repr

/-- Why the machine gives no meaning to what it is asked to do. All are safe: the model stops
where the spec says `refuse` (spec/93_implementation_defined.md). -/
inductive Refusal where
  /-- Raised by an arm of exec whose operation has no meaning in the model yet. Safe. -/
  | notModelled (mnemonic : String)
  /-- Raised by the step on a reserved operation code (spec/30_encoding.md R109, V11). Safe. -/
  | reservedOperation (code : BitVec 8)
  /-- Raised by the step on operands that do not fit their lanes (notes/assumptions/2.md). Safe. -/
  | operandOutOfLane (code : BitVec 8)
  /-- Raised by a BC, GRE or GRD operation outside its mode and by an open while open
  (spec/40_bit_channel.md R120, V12). Safe. -/
  | wrongMode (mode : BcMode)
  /-- Raised by an open whose region breaks its precondition (spec/40_bit_channel.md R121,
  R122; notes/assumptions/15.md). Safe. -/
  | badRegion
  /-- Raised by `BC.WRFIX` and `BC.RDFIX` with more than 32 bits (U13). Safe. -/
  | fieldTooLong (n : Nat)
  /-- Raised where a bit is to be placed or consumed and `bc.fill` is above 31
  (spec/40_bit_channel.md R127, R128; notes/assumptions/15.md). Safe. -/
  | fillOutOfRange (fill : Nat)
  /-- Raised by a word access at an address that is no multiple of 4 (spec/20_memory.md R62,
  R64; notes/assumptions/18.md). Safe. -/
  | misalignedWord (addr : Nat)
  /-- Raised by `EST.UPDATE` with a value above 255 (V14; notes/assumptions/17.md). Safe. -/
  | rankValueTooLarge (d : Nat)
  /-- Raised by `RM.OBSERVE` on an entry equal to `2^32 - 1` (spec/41_rank_model.md R158, V13;
  notes/assumptions/16.md). Safe. -/
  | frequencyOverflow (context symbol : Byte)
  /-- Raised by a register access outside the interface contract (V9; notes/assumptions/20.md).
  Safe. -/
  | registerAccess (off : Nat)
  /-- Raised by an engine step in `Running` with no command accepted, a state no run reaches
  (notes/assumptions/23.md). Safe. -/
  | noCommandAccepted
  /-- Raised by a unary scan that has read every word of its region and a sentinel without
  meeting a 1, which cannot happen (spec/40_bit_channel.md R130; notes/assumptions/29.md). Safe. -/
  | scanExhausted
  deriving DecidableEq, Repr

/-- The state with unit BC replaced. -/
def State.setBc (s : State) (v : Bc) : State := { s with bc := v }

/-- The state with unit RM replaced. -/
def State.setRm (s : State) (v : Rm) : State := { s with rm := v }

/-- The state with unit EST replaced. -/
def State.setEst (s : State) (v : Est) : State := { s with est := v }

/-- The state with unit PIPE replaced. -/
def State.setPl (s : State) (v : Pl) : State := { s with pl := v }

/-- The state with the host registers replaced. -/
def State.setRegs (s : State) (v : Regs) : State := { s with regs := v }

/-- The state with external memory replaced. -/
def State.setMem (s : State) (v : Memory) : State := { s with mem := v }

/-- The state with the running command's progress replaced. -/
def State.setProg (s : State) (v : Progress) : State := { s with prog := v }

/-- The state with the operation bus replaced. -/
def State.setBus (s : State) (v : Option BusOp) : State := { s with bus := v }

/-- The state with the host's script replaced. -/
def State.setHost (s : State) (v : List HostAction) : State := { s with host := v }

/-- The state with the value of the last host read replaced. -/
def State.setRdata (s : State) (v : Word) : State := { s with rdata := v }

/-- The state with the value of the last micro-operation on the bus replaced. -/
def State.setResult (s : State) (v : Nat) : State := { s with result := v }

/-- The state with the counter of free values replaced. -/
def State.setFree (s : State) (v : Nat) : State := { s with free := v }

/-- Unit BC after hardware reset (spec/10_state.md R55; notes/assumptions/22.md for `carry`). -/
def Bc.reset : Bc :=
  { mode := .closed, cur := 0, stop := 0, lim := 0, acc := 0, fill := 0, carry := 0 }

/-- Unit EST after hardware reset (spec/10_state.md R55). -/
def Est.reset : Est := { sum := 0, count := 0, k := Config.kInit }

/-- Unit PIPE after hardware reset (spec/10_state.md R55). -/
def Pl.reset : Pl :=
  { state := .idle, op := .none, ctx := 0, icur := 0, ocur := 0, err := 0, modelInit := false }

/-- The host registers after hardware reset (spec/10_state.md R55). -/
def Regs.reset : Regs :=
  { inBase := 0, inLen := 0, outBase := 0, outCap := 0, outEnd := 0, inCur := 0 }

/-- The tables of unit RM after the hardware reset with number `epoch`: unspecified, so that no
value may be assumed, not zero and not the identity (spec/10_state.md R55;
notes/assumptions/5.md). -/
def Rm.reset (epoch : Nat) : Rm :=
  { base := .unspecified epoch, freq := [], r2s := [], s2r := [] }

/-- The machine right after hardware reset (spec/10_state.md R55), external memory with nothing
listed, the host with nothing to do (notes/assumptions/22.md for the model's own fields). -/
def State.reset : State :=
  { bc := Bc.reset
    rm := Rm.reset 0
    est := Est.reset
    pl := Pl.reset
    regs := Regs.reset
    mem := { cells := [], lost := [] }
    prog := .notStarted
    bus := none
    host := []
    rdata := 0
    result := 0
    free := 1 }

end Sys2Proof.Machine
end

