-- ==== Sys2Proof/Machine/Operands.lean ====
section
/-! DEFINITION. The operand forms: the bits of a fixed field and of a unary run, in stream order
(spec/30_encoding.md R91), the regions a command's registers name (spec/20_memory.md R70), and
the acceptance checks on them (spec/44_pipeline.md R196). -/

namespace Sys2Proof.Machine

/-- The low `n` bits of `value`, least significant first (spec/40_bit_channel.md R124). -/
def fieldBits (value : Nat) : Nat → List Bool
  | 0 => []
  | n + 1 => (value % 2 == 1) :: fieldBits (value / 2) n

/-- A run of `n` zero bits (spec/40_bit_channel.md R125). -/
def zeroBits (n : Nat) : List Bool := List.replicate n false

/-- The quotient of a code word (spec/30_encoding.md R91). -/
def riceQuotient (k : BitVec 5) (value : Nat) : Nat := value / 2 ^ k.toNat

/-- The remainder of a code word (spec/30_encoding.md R91). -/
def riceRemainder (k : BitVec 5) (value : Nat) : Nat := value % 2 ^ k.toNat

/-- One past the input region (spec/20_memory.md R70), over natural numbers. -/
def inputEnd (s : State) : Nat := s.regs.inBase.toNat + s.regs.inLen.toNat

/-- One past the output region (spec/20_memory.md R70), over natural numbers. -/
def outputEnd (s : State) : Nat := s.regs.outBase.toNat + s.regs.outCap.toNat

/-- One past the read region of DECOMPRESS, the largest whole-word prefix of the input region
(spec/20_memory.md R70). -/
def readRegionEnd (s : State) : Nat := s.regs.inBase.toNat + 4 * (s.regs.inLen.toNat / 4)

/-- Acceptance check 3: a region extends past the top of memory (spec/44_pipeline.md R196). -/
def regionsWrap (s : State) : Bool :=
  decide (Config.addressSpace < inputEnd s) || decide (Config.addressSpace < outputEnd s)

/-- Acceptance check 4: the word-accessed base is no multiple of 4 (spec/44_pipeline.md R196). -/
def baseMisaligned (op : PlOp) (s : State) : Bool :=
  match op with
  | .compress => s.regs.outBase.toNat % 4 != 0
  | .decompress => s.regs.inBase.toNat % 4 != 0
  | .init => false
  | .none => false

/-- Acceptance check 5: the regions share a byte (spec/44_pipeline.md R196, spec/20_memory.md
R72). -/
def regionsOverlap (s : State) : Bool :=
  decide (0 < s.regs.inLen.toNat) && decide (0 < s.regs.outCap.toNat) &&
    decide (s.regs.inBase.toNat < outputEnd s) && decide (s.regs.outBase.toNat < inputEnd s)

end Sys2Proof.Machine
end

