-- ==== Sys2Proof/Machine/Ops.lean ====
section
/-! DEFINITION. The shared operations of the machine: lists of cells in canonical form,
external memory (spec/20_memory.md R61, R62), the tables of unit RM, taking a fault
(spec/60_exceptions.md R221, R222) and the return from one (R225), hardware reset
(spec/70_reset_and_hazards.md R245, R246), and what an operation answers. -/

namespace Sys2Proof.Machine

/-! ## What an operation inside the engine answers -/

/-- The answer of a micro-operation or of a helper of one. -/
inductive Res (α : Type) where
  /-- It is complete: its value and the state it leaves. -/
  | ok (v : α) (s : State)
  /-- It raised `ERR_BUFFER_TOO_SMALL` in the state given (spec/00_scope.md R12 `raise`). -/
  | raised (s : State)
  /-- The machine stops with a fault. -/
  | fault (f : Fault)
  /-- The spec gives it no meaning. -/
  | refused (r : Refusal)
  deriving Repr

/-- Perform one operation to completion, then the next (spec/00_scope.md R12 `call`): nothing
later runs once one of them raised or stopped. -/
def Res.bind {α β : Type} (r : Res α) (f : α → State → Res β) : Res β :=
  match r with
  | .ok v s => f v s
  | .raised s => .raised s
  | .fault e => .fault e
  | .refused e => .refused e

/-! ## Cells in canonical form -/

/-- What a list of cells holds at `key`, `dflt` where it lists nothing. -/
def lookupCell {α : Type} (key : Nat) (dflt : α) : List (Nat × α) → α
  | [] => dflt
  | c :: rest => if c.1 = key then c.2 else lookupCell key dflt rest

/-- The cells with `key` given the value `v`, in their place. -/
def insertCell {α : Type} (key : Nat) (v : α) : List (Nat × α) → List (Nat × α)
  | [] => [(key, v)]
  | c :: rest =>
    if key < c.1 then (key, v) :: c :: rest
    else if key = c.1 then (key, v) :: rest
    else c :: insertCell key v rest

/-- The cells without `key`. -/
def eraseCell {α : Type} (key : Nat) : List (Nat × α) → List (Nat × α)
  | [] => []
  | c :: rest => if c.1 = key then eraseCell key rest else c :: eraseCell key rest

/-- A write that keeps the canonical form: the value an unlisted key reads as is not listed. -/
def writeCell {α : Type} [DecidableEq α] (key : Nat) (v dflt : α) (l : List (Nat × α)) :
    List (Nat × α) :=
  if v = dflt then eraseCell key l else insertCell key v l

/-- Keys strictly rising. -/
def cellsRising {α : Type} : List (Nat × α) → Bool
  | [] => true
  | c :: rest =>
    (match rest with
      | [] => true
      | d :: _ => decide (c.1 < d.1)) && cellsRising rest

/-- The canonical form: keys strictly rising and below `bound`, no entry equal to what an unlisted
key reads as. -/
def cellsCanonical {α : Type} [DecidableEq α] (bound : Nat) (dflt : Nat → α)
    (l : List (Nat × α)) : Bool :=
  cellsRising l && l.all fun c => decide (c.1 < bound) && decide (c.2 ≠ dflt c.1)

/-! ## External memory -/

/-- The free byte of the latest lost region that holds `a`, or 0: what an unlisted address reads
as (notes/assumptions/6.md, notes/assumptions/7.md). -/
def unlistedByte (a : Nat) : List LostRegion → Byte
  | [] => 0
  | r :: rest =>
    if r.base ≤ a ∧ a < r.base + r.len then Config.lostByte r.epoch a else unlistedByte a rest

/-- The byte at address `a` (spec/20_memory.md R61). -/
def Memory.byteAt (m : Memory) (a : Nat) : Byte := lookupCell a (unlistedByte a m.lost) m.cells

/-- Memory with the byte at address `a` replaced. -/
def Memory.setByte (m : Memory) (a : Nat) (v : Byte) : Memory :=
  { m with cells := writeCell a v (unlistedByte a m.lost) m.cells }

/-- The channel word at address `a`, little-endian (spec/20_memory.md R62). -/
def Memory.wordAt (m : Memory) (a : Nat) : Word :=
  m.byteAt (a + 3) ++ m.byteAt (a + 2) ++ m.byteAt (a + 1) ++ m.byteAt a

/-- Memory with the channel word at address `a` replaced, little-endian (spec/20_memory.md R62). -/
def Memory.setWord (m : Memory) (a : Nat) (w : Word) : Memory :=
  (((m.setByte a (w.extractLsb' 0 8)).setByte (a + 1) (w.extractLsb' 8 8)).setByte (a + 2)
    (w.extractLsb' 16 8)).setByte (a + 3) (w.extractLsb' 24 8)

/-- Memory with the bytes stored at ascending addresses from `a` (spec/30_encoding.md R111). -/
def Memory.setBytes (m : Memory) (a : Nat) : List Byte → Memory
  | [] => m
  | b :: rest => (m.setByte a b).setBytes (a + 1) rest

/-- The canonical form of external memory. -/
def Memory.wf (m : Memory) : Bool :=
  cellsCanonical Config.addressSpace (fun a => unlistedByte a m.lost) m.cells

/-- Memory after the contents of `[base, base + len)` became unspecified
(spec/70_reset_and_hazards.md R246): its cells are unlisted and a lost region covers it. -/
def Memory.lose (m : Memory) (base len epoch : Nat) : Memory :=
  { cells := m.cells.filter fun c => !(decide (base ≤ c.1) && decide (c.1 < base + len))
    lost := { base := base, len := len, epoch := epoch } :: m.lost }

/-- `MemRead(a, 1)` (spec/20_memory.md R62). -/
def memReadByte (a : Nat) (s : State) : Res Byte :=
  if a < Config.addressSpace then .ok (s.mem.byteAt a) s else .fault (.noSuchAddress a)

/-- `MemWrite(a, 1, v)` (spec/20_memory.md R62). -/
def memWriteByte (a : Nat) (v : Byte) (s : State) : Res Unit :=
  if a < Config.addressSpace then .ok () (s.setMem (s.mem.setByte a v))
  else .fault (.noSuchAddress a)

/-- `MemRead(a, 4)`, for `a` a multiple of 4 (spec/20_memory.md R62, R64). -/
def memReadWord (a : Nat) (s : State) : Res Word :=
  if a % 4 ≠ 0 then .refused (.misalignedWord a)
  else if a < Config.addressSpace then .ok (s.mem.wordAt a) s
  else .fault (.noSuchAddress a)

/-- `MemWrite(a, 4, v)`, for `a` a multiple of 4 (spec/20_memory.md R62, R64). -/
def memWriteWord (a : Nat) (v : Word) (s : State) : Res Unit :=
  if a % 4 ≠ 0 then .refused (.misalignedWord a)
  else if a < Config.addressSpace then .ok () (s.setMem (s.mem.setWord a v))
  else .fault (.noSuchAddress a)

/-! ## The tables of unit RM -/

/-- The key of entry `i` of context `x`. -/
def tableKey (x i : Byte) : Nat := x.toNat * 256 + i.toNat

/-- The number of entries of one table (spec/10_state.md R28 to R30). -/
def tableSize : Nat := 65536

/-- What an unlisted frequency reads as (spec/10_state.md R55, R56). -/
def freqUnlisted : TableBase → Nat → BitVec 32
  | .unspecified e, key => Config.freqAtReset e key
  | .initialised, _ => 0

/-- What an unlisted entry of `rm.r2s` reads as (spec/10_state.md R55, R56). -/
def r2sUnlisted : TableBase → Nat → Byte
  | .unspecified e, key => Config.r2sAtReset e key
  | .initialised, key => BitVec.ofNat 8 (key % 256)

/-- What an unlisted entry of `rm.s2r` reads as (spec/10_state.md R55, R56). -/
def s2rUnlisted : TableBase → Nat → Byte
  | .unspecified e, key => Config.s2rAtReset e key
  | .initialised, key => BitVec.ofNat 8 (key % 256)

/-- `rm.freq[x][s]` (spec/10_state.md R28). -/
def Rm.freqAt (m : Rm) (x sym : Byte) : BitVec 32 :=
  lookupCell (tableKey x sym) (freqUnlisted m.base (tableKey x sym)) m.freq

/-- `rm.r2s[x][r]` (spec/10_state.md R29). -/
def Rm.symAt (m : Rm) (x r : Byte) : Byte :=
  lookupCell (tableKey x r) (r2sUnlisted m.base (tableKey x r)) m.r2s

/-- `rm.s2r[x][s]` (spec/10_state.md R30). -/
def Rm.rankOf (m : Rm) (x sym : Byte) : Byte :=
  lookupCell (tableKey x sym) (s2rUnlisted m.base (tableKey x sym)) m.s2r

/-- `rm.freq[x][s] <- v`. -/
def Rm.setFreq (m : Rm) (x sym : Byte) (v : BitVec 32) : Rm :=
  { m with
    freq := writeCell (tableKey x sym) v (freqUnlisted m.base (tableKey x sym)) m.freq }

/-- `rm.r2s[x][r] <- v`. -/
def Rm.setSym (m : Rm) (x r v : Byte) : Rm :=
  { m with r2s := writeCell (tableKey x r) v (r2sUnlisted m.base (tableKey x r)) m.r2s }

/-- `rm.s2r[x][s] <- v`. -/
def Rm.setRank (m : Rm) (x sym v : Byte) : Rm :=
  { m with s2r := writeCell (tableKey x sym) v (s2rUnlisted m.base (tableKey x sym)) m.s2r }

/-- The canonical form of the three tables. -/
def Rm.wf (m : Rm) : Bool :=
  cellsCanonical tableSize (freqUnlisted m.base) m.freq &&
    cellsCanonical tableSize (r2sUnlisted m.base) m.r2s &&
    cellsCanonical tableSize (s2rUnlisted m.base) m.s2r

/-! ## The cursor of unit BC -/

/-- The cursor as the comparisons and the steps of the rules take it, over natural numbers and never
wrapping: `bc.cur`, the model's carry above it (spec/20_memory.md R71, spec/40_bit_channel.md R126,
R131; notes/assumptions/3.md). -/
def Bc.cursor (b : Bc) : WideAddr := b.carry ++ b.cur

/-- Unit BC with its cursor moved: `bc.cur` takes the low `AW` bits (spec/10_state.md R22). -/
def Bc.setCursor (b : Bc) (v : WideAddr) : Bc :=
  { b with cur := v.extractLsb' 0 32, carry := v.extractLsb' 32 1 }

/-! ## Faults: entry and return -/

/-- The fault codes of spec/60_exceptions.md R215. -/
inductive FaultCode where
  | invalidCommand
  | notInitialized
  | invalidArgument
  | bufferTooSmall
  deriving DecidableEq, Repr

/-- The code as `pl.err` holds it (spec/60_exceptions.md R215). -/
def errValue : FaultCode → BitVec 4
  | .invalidCommand => 1
  | .notInitialized => 2
  | .invalidArgument => 3
  | .bufferTooSmall => 4

/-- The output cursor a run-time fault records: `pl.ocur` in DECOMPRESS, else `bc.cur`
(spec/60_exceptions.md R219, R222; notes/assumptions/13.md). -/
def faultOutputCursor (s : State) : WideAddr :=
  match s.pl.op with
  | .decompress => s.pl.ocur
  | .compress => s.bc.cursor
  | .init => s.bc.cursor
  | .none => s.bc.cursor

/-- The input cursor a run-time fault records: `bc.cur` in DECOMPRESS, else `pl.icur`
(spec/60_exceptions.md R222; notes/assumptions/13.md). -/
def faultInputCursor (s : State) : WideAddr :=
  match s.pl.op with
  | .decompress => s.bc.cursor
  | .compress => s.pl.icur
  | .init => s.pl.icur
  | .none => s.pl.icur

/-- The host registers after a fault: rejected commands leave them alone (spec/60_exceptions.md
R221), a run-time fault records the cursors `mod 2^32` (R222). -/
def faultRegs (code : FaultCode) (s : State) : Regs :=
  match code with
  | .bufferTooSmall =>
    { s.regs with
      outEnd := (faultOutputCursor s).setWidth 32
      inCur := (faultInputCursor s).setWidth 32 }
  | .invalidCommand => s.regs
  | .notInitialized => s.regs
  | .invalidArgument => s.regs

/-- TAKING A FAULT, the one entry for every code (spec/60_exceptions.md R221 for codes 1 to 3,
R222 for code 4): the code, the state `Faulted`, and for code 4 the two cursors. -/
def takeFault (code : FaultCode) (s : State) : State :=
  (s.setPl { s.pl with err := errValue code, state := .faulted }).setRegs (faultRegs code s)

/-- THE RETURN FROM A FAULT, which is the acceptance of the next command: `pl.op`, `pl.err <- 0`,
`pl.state <- Running` (spec/44_pipeline.md R195, spec/60_exceptions.md R225). -/
def acceptCommand (op : PlOp) (s : State) : State :=
  (s.setPl { s.pl with op := op, err := 0, state := .running }).setProg .notStarted

/-! ## Hardware reset -/

/-- External memory after hardware reset: untouched (spec/70_reset_and_hazards.md R247), but that
the output region of a running session is left unspecified (R246; notes/assumptions/7.md). -/
def memAfterReset (s : State) : Memory :=
  match s.pl.state with
  | .running =>
    match s.pl.op with
    | .compress => s.mem.lose s.regs.outBase.toNat s.regs.outCap.toNat s.free
    | .decompress => s.mem.lose s.regs.outBase.toNat s.regs.outCap.toNat s.free
    | .init => s.mem
    | .none => s.mem
  | .idle => s.mem
  | .done => s.mem
  | .faulted => s.mem

/-- Hardware reset of a machine that may have been running (spec/70_reset_and_hazards.md R245 to
R247): the state of spec/10_state.md R55, the tables of unit RM unspecified anew, external memory
as `memAfterReset` says; the host goes on with its script (notes/assumptions/21.md). -/
def hardwareReset (s : State) : State :=
  { State.reset with
    rm := Rm.reset s.free
    mem := memAfterReset s
    host := s.host
    rdata := s.rdata
    result := s.result
    free := s.free + 1 }

/-! ## Answers of the instructions -/

/-- A micro-operation without a result, performed on the operation bus: a raised fault is taken. -/
def settle : Res Unit → Host.Outcome State Fault Refusal
  | .ok _ s => .next s
  | .raised s => .next (takeFault .bufferTooSmall s)
  | .fault f => .fault f
  | .refused r => .refused r

/-- A micro-operation with a result, which goes to the result latch (notes/assumptions/11.md). -/
def settleValue : Res Nat → Host.Outcome State Fault Refusal
  | .ok v s => .next (s.setResult v)
  | .raised s => .next (takeFault .bufferTooSmall s)
  | .fault f => .fault f
  | .refused r => .refused r

end Sys2Proof.Machine
end

