-- ==== Sys2Proof/Machine/BitChannel.lean ====
section
/-! DEFINITION. Unit BC, the bit channel (spec/40_bit_channel.md): the helpers putbit and getbit,
the flush and the reload, and the eleven operations. -/

namespace Sys2Proof.Machine

/-- The operation is one of the mode the channel is in: an open belongs to `Closed`, every other
operation to the mode of its open (spec/40_bit_channel.md R120, V12). -/
def inMode {α : Type} (m : BcMode) (s : State) (r : Res α) : Res α :=
  if s.bc.mode = m then r else .refused (.wrongMode s.bc.mode)

/-- Unit BC after its accumulator was stored: cursor on, accumulator and counter cleared
(spec/40_bit_channel.md R126). -/
def bcFlushed (b : Bc) : Bc := { b.setCursor (b.cursor + 4) with acc := 0, fill := 0 }

/-- `BC.FLUSH` (spec/40_bit_channel.md R126): the limit is checked before the write, over
natural numbers. -/
def flush (s : State) : Res Unit :=
  inMode .write s <|
    if s.bc.lim.toNat < s.bc.cursor.toNat + 4 then .raised s
    else (memWriteWord s.bc.cursor.toNat s.bc.acc s).bind fun _ t =>
      .ok () (t.setBc (bcFlushed t.bc))

/-- Unit BC with the bit placed at position `bc.fill` (spec/40_bit_channel.md R127). -/
def bcPlaced (bit : Bool) (b : Bc) : Bc :=
  { b with acc := b.acc ||| ((BitVec.ofBool bit).setWidth 32 <<< b.fill.toNat), fill := b.fill + 1 }

/-- `putbit(b)` (spec/40_bit_channel.md R127): the flush at 32 is immediate. -/
def putBit (bit : Bool) (s : State) : Res Unit :=
  inMode .write s <|
    if 31 < s.bc.fill.toNat then .refused (.fillOutOfRange s.bc.fill.toNat)
    else if s.bc.fill.toNat = 31 then flush (s.setBc (bcPlaced bit s.bc))
    else .ok () (s.setBc (bcPlaced bit s.bc))

/-- `putbit` of each bit, in stream order. -/
def putBits : List Bool → State → Res Unit
  | [], s => .ok () s
  | b :: rest, s => (putBit b s).bind fun _ t => putBits rest t

/-- `BC.PUT1` (spec/40_bit_channel.md R123). -/
def put1 (s : State) : Res Unit := putBit true s

/-- `BC.WRFIX value, n` (spec/40_bit_channel.md R124). -/
def wrfix (value n : Nat) (s : State) : Res Unit :=
  inMode .write s <|
    if 32 < n then .refused (.fieldTooLong n) else putBits (fieldBits value n) s

/-- `BC.WRZERO n` (spec/40_bit_channel.md R125). -/
def wrzero (n : Nat) (s : State) : Res Unit := inMode .write s <| putBits (zeroBits n) s

/-- Unit BC after a valid word was loaded (spec/40_bit_channel.md R131). -/
def bcLoaded (w : Word) (b : Bc) : Bc := { b.setCursor (b.cursor + 4) with acc := w, fill := 0 }

/-- Unit BC after the sentinel word was substituted: the cursor stays (spec/40_bit_channel.md
R131). -/
def bcPadded (b : Bc) : Bc := { b with acc := Config.sentinelWord, fill := 0 }

/-- `BC.RELOAD` (spec/40_bit_channel.md R131). -/
def reload (s : State) : Res Unit :=
  inMode .read s <|
    if s.bc.cursor.toNat + 4 ≤ s.bc.stop.toNat then
      (memReadWord s.bc.cursor.toNat s).bind fun w t => .ok () (t.setBc (bcLoaded w t.bc))
    else .ok () (s.setBc (bcPadded s.bc))

/-- Unit BC with the bit at position 0 consumed (spec/40_bit_channel.md R128). -/
def bcConsumed (b : Bc) : Bc := { b with acc := b.acc >>> 1, fill := b.fill + 1 }

/-- `getbit()` (spec/40_bit_channel.md R128): the reload at 32 is immediate. -/
def getBit (s : State) : Res Bool :=
  inMode .read s <|
    if 31 < s.bc.fill.toNat then .refused (.fillOutOfRange s.bc.fill.toNat)
    else if s.bc.fill.toNat = 31 then
      (reload (s.setBc (bcConsumed s.bc))).bind fun _ t => .ok (s.bc.acc.getLsbD 0) t
    else .ok (s.bc.acc.getLsbD 0) (s.setBc (bcConsumed s.bc))

/-- `n` calls of `getbit`, the first bit least significant (spec/40_bit_channel.md R129). -/
def getField : Nat → State → Res Nat
  | 0, s => .ok 0 s
  | n + 1, s => (getBit s).bind fun b t => (getField n t).bind fun v u => .ok (b.toNat + 2 * v) u

/-- `BC.RDFIX n` (spec/40_bit_channel.md R129). -/
def rdfix (n : Nat) (s : State) : Res Nat :=
  inMode .read s <| if 32 < n then .refused (.fieldTooLong n) else getField n s

/-- The zeros up to the first 1 bit, the 1 bit consumed; at most `fuel` bits are looked at
(spec/40_bit_channel.md R130). -/
def scanUnary : Nat → State → Res Nat
  | 0, _ => .refused .scanExhausted
  | fuel + 1, s =>
    (getBit s).bind fun b t =>
      if b then .ok 0 t else (scanUnary fuel t).bind fun q u => .ok (q + 1) u

/-- More bits than a unary scan can look at: those of the current word, of every word of the
region not yet loaded, and of a sentinel (spec/40_bit_channel.md R130, termination). -/
def scanBound (s : State) : Nat := 32 * ((s.bc.stop.toNat - s.bc.cursor.toNat) / 4 + 2)

/-- `BC.RDUNARY` (spec/40_bit_channel.md R130). -/
def rdunary (s : State) : Res Nat := inMode .read s <| scanUnary (scanBound s) s

/-- Unit BC bound to a read region (spec/40_bit_channel.md R121). -/
def bcOpenedRead (base : Word) (stop : WideAddr) (b : Bc) : Bc :=
  { b with mode := .read, cur := base, carry := 0, stop := stop }

/-- The pseudocode of `BC.OPEN_R base, end` (spec/40_bit_channel.md R121), in any mode: a command
performs it after a session that faulted, too (notes/assumptions/4.md). -/
def openRead (base : Word) (stop : WideAddr) (s : State) : Res Unit :=
  if readRegionOk base stop then reload (s.setBc (bcOpenedRead base stop s.bc))
  else .refused .badRegion

/-- Unit BC bound to a write region with an empty accumulator (spec/40_bit_channel.md R122). -/
def bcOpenedWrite (base : Word) (lim : WideAddr) (b : Bc) : Bc :=
  { b with mode := .write, cur := base, carry := 0, lim := lim, acc := 0, fill := 0 }

/-- The pseudocode of `BC.OPEN_W base, lim` (spec/40_bit_channel.md R122), in any mode: a command
performs it after a session that faulted, too (notes/assumptions/4.md). -/
def openWrite (base : Word) (lim : WideAddr) (s : State) : Res Unit :=
  if writeRegionOk base lim then .ok () (s.setBc (bcOpenedWrite base lim s.bc))
  else .refused .badRegion

/-- Unit BC with no region bound (spec/10_state.md R21). -/
def bcClosed (b : Bc) : Bc := { b with mode := .closed }

/-- `BC.CLOSE_R` (spec/40_bit_channel.md R133). -/
def closeRead (s : State) : Res Unit := inMode .read s <| .ok () (s.setBc (bcClosed s.bc))

/-- `BC.CLOSE_W` (spec/40_bit_channel.md R134): a partial word is stored first, zero-padded. -/
def closeWrite (s : State) : Res Unit :=
  inMode .write s <|
    if 0 < s.bc.fill.toNat then (flush s).bind fun _ t => .ok () (t.setBc (bcClosed t.bc))
    else .ok () (s.setBc (bcClosed s.bc))

/-! ## The meanings -/

/-- Meaning of `BC.OPEN_R` (spec/40_bit_channel.md R121); an open while open has no meaning (R120,
V12). -/
def execBcOpenR (base : Word) (stop : WideAddr) (s : State) : Host.Outcome State Fault Refusal :=
  settle (inMode .closed s (openRead base stop s))

/-- Meaning of `BC.OPEN_W` (spec/40_bit_channel.md R122); an open while open has no meaning (R120,
V12). -/
def execBcOpenW (base : Word) (lim : WideAddr) (s : State) : Host.Outcome State Fault Refusal :=
  settle (inMode .closed s (openWrite base lim s))

/-- Meaning of `BC.PUT1` (spec/40_bit_channel.md R123). -/
def execBcPut1 (s : State) : Host.Outcome State Fault Refusal := settle (put1 s)

/-- Meaning of `BC.WRFIX` (spec/40_bit_channel.md R124). -/
def execBcWrfix (value : Word) (n : BitVec 6) (s : State) : Host.Outcome State Fault Refusal :=
  settle (wrfix value.toNat n.toNat s)

/-- Meaning of `BC.WRZERO` (spec/40_bit_channel.md R125). -/
def execBcWrzero (n : Word) (s : State) : Host.Outcome State Fault Refusal :=
  settle (wrzero n.toNat s)

/-- Meaning of `BC.FLUSH` (spec/40_bit_channel.md R126). -/
def execBcFlush (s : State) : Host.Outcome State Fault Refusal := settle (flush s)

/-- Meaning of `BC.RDFIX` (spec/40_bit_channel.md R129). -/
def execBcRdfix (n : BitVec 6) (s : State) : Host.Outcome State Fault Refusal :=
  settleValue (rdfix n.toNat s)

/-- Meaning of `BC.RDUNARY` (spec/40_bit_channel.md R130). -/
def execBcRdunary (s : State) : Host.Outcome State Fault Refusal := settleValue (rdunary s)

/-- Meaning of `BC.RELOAD` (spec/40_bit_channel.md R131). -/
def execBcReload (s : State) : Host.Outcome State Fault Refusal := settle (reload s)

/-- Meaning of `BC.CLOSE_R` (spec/40_bit_channel.md R133). -/
def execBcCloseR (s : State) : Host.Outcome State Fault Refusal := settle (closeRead s)

/-- Meaning of `BC.CLOSE_W` (spec/40_bit_channel.md R134). -/
def execBcCloseW (s : State) : Host.Outcome State Fault Refusal := settle (closeWrite s)

end Sys2Proof.Machine
end

