-- ==== Sys2Proof/Machine/Estimator.lean ====
section
/-! DEFINITION. Unit EST, the adaptive parameter estimator (spec/43_estimator.md). -/

namespace Sys2Proof.Machine

/-- The values `initialize_model()` gives the estimator (spec/43_estimator.md R185). -/
def estInitialised : Est := { sum := 0, count := 0, k := Config.kInit }

/-- `EST.INIT` (spec/43_estimator.md R185). -/
def estInit (s : State) : State := s.setEst estInitialised

/-- The scan of `EST.UPDATE` at a boundary: the first `j` with `count * 2^j > sum`, looking at
`fuel` values from `j` on (spec/43_estimator.md R186). -/
def firstFailing (count sum : Nat) : Nat → Nat → Nat
  | 0, j => j
  | fuel + 1, j => if count * 2 ^ j ≤ sum then firstFailing count sum fuel (j + 1) else j

/-- The `k` a boundary gives for the sum of its 256 rank values: one less than the first failing
value, 0 when the mean is below 1 (spec/43_estimator.md R186). A sum of 17 bits fails by
`j = 10`. -/
def boundaryK (sum : Nat) : BitVec 5 :=
  BitVec.ofNat 5 (firstFailing Config.resetInterval sum 16 0 - 1)

/-- The estimator after one rank value was accumulated (spec/43_estimator.md R186). -/
def estUpdated (e : Est) (d : Nat) : Est :=
  if e.count.toNat + 1 = Config.resetInterval then
    { sum := 0, count := 0, k := boundaryK (e.sum.toNat + d) }
  else
    { e with sum := BitVec.ofNat 16 (e.sum.toNat + d), count := BitVec.ofNat 9 (e.count.toNat + 1) }

/-- `EST.UPDATE d` (spec/43_estimator.md R186), for `d` in 0 to 255 (V14; notes/assumptions/17.md). -/
def estUpdate (d : Nat) (s : State) : Res Unit :=
  if 255 < d then .refused (.rankValueTooLarge d) else .ok () (s.setEst (estUpdated s.est d))

/-- Meaning of `EST.INIT` (spec/43_estimator.md R185). -/
def execEstInit (s : State) : Host.Outcome State Fault Refusal := .next (estInit s)

/-- Meaning of `EST.UPDATE` (spec/43_estimator.md R186). -/
def execEstUpdate (rankValue : BitVec 9) (s : State) : Host.Outcome State Fault Refusal :=
  settle (estUpdate rankValue.toNat s)

end Sys2Proof.Machine
end

