-- ==== Sys2Proof/Machine/GolombRice.lean ====
section
/-! DEFINITION. Units GRE and GRD, the Golomb-Rice encoder and decoder
(spec/42_golomb_rice.md); neither holds state. -/

namespace Sys2Proof.Machine

/-- `GRE.ENCODE k, value` (spec/42_golomb_rice.md R171). -/
def greEncode (k : BitVec 5) (value : Nat) (s : State) : Res Unit :=
  inMode .write s <|
    (wrzero (riceQuotient k value) s).bind fun _ t =>
      (put1 t).bind fun _ u => wrfix (riceRemainder k value) k.toNat u

/-- `GRD.DECODE k` (spec/42_golomb_rice.md R175); the value is a natural number, not reduced
(R176). -/
def grdDecode (k : BitVec 5) (s : State) : Res Nat :=
  inMode .read s <|
    (rdunary s).bind fun q t =>
      (rdfix k.toNat t).bind fun r u => .ok (q * 2 ^ k.toNat + r) u

/-- Meaning of `GRE.ENCODE` (spec/42_golomb_rice.md R171). -/
def execGreEncode (k : BitVec 5) (value : Word) (s : State) : Host.Outcome State Fault Refusal :=
  settle (greEncode k value.toNat s)

/-- Meaning of `GRD.DECODE` (spec/42_golomb_rice.md R175). -/
def execGrdDecode (k : BitVec 5) (s : State) : Host.Outcome State Fault Refusal :=
  settleValue (grdDecode k s)

end Sys2Proof.Machine
end

