-- ==== Sys2Proof/Machine/RankModel.lean ====
section
/-! DEFINITION. Unit RM, the rank model permutation table (spec/41_rank_model.md). -/

namespace Sys2Proof.Machine

/-- Every context the identity permutation with zero counts (spec/41_rank_model.md R151,
spec/10_state.md R56): nothing listed over the initialised base. -/
def rmInitialised : Rm := { base := .initialised, freq := [], r2s := [], s2r := [] }

/-- `RM.INIT` (spec/41_rank_model.md R151). -/
def rmInit (s : State) : State := s.setRm rmInitialised

/-- `RM.RANK_OF x, s` (spec/41_rank_model.md R152). -/
def rankOf (x sym : Byte) (s : State) : Byte := s.rm.rankOf x sym

/-- `RM.SYMBOL_AT x, r` (spec/41_rank_model.md R153). -/
def symbolAt (x r : Byte) (s : State) : Byte := s.rm.symAt x r

/-- The scan of `RM.OBSERVE` from rank `q` towards 0: the rank one after the stop point, which is
the nearest rank above whose frequency is at least `f`, or 0 when there is none
(spec/41_rank_model.md R154, R155). -/
def scanRank (m : Rm) (x : Byte) (f : Nat) : Nat → Nat
  | 0 => 0
  | q + 1 =>
    if (m.freqAt x (m.symAt x (BitVec.ofNat 8 q))).toNat < f then scanRank m x f q else q + 1

/-- The exchange of the symbol `sym` at rank `r` with the target `t` at rank `q`
(spec/41_rank_model.md R154). -/
def exchangeRanks (m : Rm) (x sym t r q : Byte) : Rm :=
  (((m.setSym x q sym).setSym x r t).setRank x sym q).setRank x t r

/-- The tables after one occurrence of `sym` was counted in context `x`
(spec/41_rank_model.md R154). -/
def observed (m : Rm) (x sym : Byte) : Rm :=
  let counted := m.setFreq x sym (m.freqAt x sym + 1)
  let r := counted.rankOf x sym
  let q := BitVec.ofNat 8 (scanRank counted x (counted.freqAt x sym).toNat r.toNat)
  let t := counted.symAt x q
  if t = sym then counted else exchangeRanks counted x sym t r q

/-- `RM.OBSERVE x, s` (spec/41_rank_model.md R154); an entry equal to `2^32 - 1` has no meaning
(R158; notes/assumptions/16.md). -/
def observe (x sym : Byte) (s : State) : Res Unit :=
  if (s.rm.freqAt x sym).toNat = 4294967295 then .refused (.frequencyOverflow x sym)
  else .ok () (s.setRm (observed s.rm x sym))

/-- Meaning of `RM.INIT` (spec/41_rank_model.md R151). -/
def execRmInit (s : State) : Host.Outcome State Fault Refusal := .next (rmInit s)

/-- Meaning of `RM.RANK_OF` (spec/41_rank_model.md R152). -/
def execRmRankOf (context symbol : Byte) (s : State) : Host.Outcome State Fault Refusal :=
  settleValue (.ok (rankOf context symbol s).toNat s)

/-- Meaning of `RM.SYMBOL_AT` (spec/41_rank_model.md R153). -/
def execRmSymbolAt (context rank : Byte) (s : State) : Host.Outcome State Fault Refusal :=
  settleValue (.ok (symbolAt context rank s).toNat s)

/-- Meaning of `RM.OBSERVE` (spec/41_rank_model.md R154). -/
def execRmObserve (context symbol : Byte) (s : State) : Host.Outcome State Fault Refusal :=
  settle (observe context symbol s)

end Sys2Proof.Machine
end

