-- ==== Sys2Proof/Machine/Pipeline.lean ====
section
/-! DEFINITION. Unit PIPE, the pipeline controller and the three host commands
(spec/44_pipeline.md): acceptance, the opening, the loop and the ending of each command, one
engine step, and a whole command. -/

namespace Sys2Proof.Machine

/-! ## Submission and acceptance -/

/-- The acceptance checks 2 to 5, in their order (spec/44_pipeline.md R196); check 1 is the
decoder's (spec/30_encoding.md R105). -/
def sessionCheck (op : PlOp) (s : State) : Option FaultCode :=
  if s.pl.modelInit = false then some .notInitialized
  else if regionsWrap s then some .invalidArgument
  else if baseMisaligned op s then some .invalidArgument
  else if regionsOverlap s then some .invalidArgument
  else none

/-- The code of the first acceptance check that fails; INIT passes them all
(spec/44_pipeline.md R196). -/
def acceptanceFault (op : PlOp) (s : State) : Option FaultCode :=
  match op with
  | .compress => sessionCheck .compress s
  | .decompress => sessionCheck .decompress s
  | .init => none
  | .none => none

/-- A command written to `CMD` (spec/44_pipeline.md R195): ignored while running (R53), rejected
or accepted. -/
def submit (op : PlOp) (s : State) : State :=
  if s.pl.state = .running then s
  else
    match acceptanceFault op s with
    | some code => takeFault code s
    | none => acceptCommand op s

/-- A reserved command word written to `CMD` (spec/30_encoding.md R105, check 1 of R196). -/
def submitReserved (s : State) : State :=
  if s.pl.state = .running then s else takeFault .invalidCommand s

/-! ## INIT -/

/-- Unit PIPE after INIT (spec/44_pipeline.md R197). -/
def plInitialised (p : Pl) : Pl :=
  { p with ctx := Config.initialContext, modelInit := true, state := .done }

/-- The pseudocode of INIT (spec/44_pipeline.md R197). -/
def initBody (s : State) : State :=
  let t := estInit (rmInit s)
  t.setPl (plInitialised t.pl)

/-! ## What COMPRESS and DECOMPRESS share -/

/-- The end of a session: the results and the state `Done` (spec/44_pipeline.md R198, R199). -/
def finishSession (out inp : WideAddr) (s : State) : State :=
  (s.setRegs { s.regs with outEnd := out.setWidth 32, inCur := inp.setWidth 32 }).setPl
    { s.pl with state := .done }

/-- The updates after a symbol, in their order, the context last (spec/70_reset_and_hazards.md
R255; spec/44_pipeline.md R198, R199). -/
def learn (sym : Byte) (d : Nat) (s : State) : Res Unit :=
  (observe s.pl.ctx sym s).bind fun _ t =>
    (estUpdate d t).bind fun _ u => .ok () (u.setPl { u.pl with ctx := sym })

/-! ## COMPRESS -/

/-- The opening lines of COMPRESS (spec/44_pipeline.md R198). -/
def compressStart (s : State) : Res Unit :=
  let t := s.setPl { s.pl with ctx := Config.initialContext, icur := s.regs.inBase.setWidth 33 }
  (openWrite t.regs.outBase (BitVec.ofNat 33 (outputEnd t)) t).bind fun _ u =>
    .ok () (u.setProg .looping)

/-- One symbol of COMPRESS (spec/44_pipeline.md R198): read, look up, code with the present `k`,
then learn. -/
def compressSymbol (s : State) : Res Unit :=
  (memReadByte s.pl.icur.toNat s).bind fun c t =>
    let u := t.setPl { t.pl with icur := t.pl.icur + 1 }
    let d := (rankOf u.pl.ctx c u).toNat
    (greEncode u.est.k d u).bind fun _ v => learn c d v

/-- The ending of COMPRESS (spec/44_pipeline.md R198): the marker, the close, the results. -/
def compressFinish (s : State) : Res Unit :=
  (greEncode s.est.k Config.eosValue s).bind fun _ t =>
    (closeWrite t).bind fun _ u => .ok () (finishSession u.bc.cursor u.pl.icur u)

/-- One engine step of a running COMPRESS. -/
def compressStep (s : State) : Res Unit :=
  match s.prog with
  | .notStarted => compressStart s
  | .looping => if s.pl.icur.toNat < inputEnd s then compressSymbol s else compressFinish s

/-! ## DECOMPRESS -/

/-- The opening lines of DECOMPRESS (spec/44_pipeline.md R199). -/
def decompressStart (s : State) : Res Unit :=
  let t := s.setPl { s.pl with ctx := Config.initialContext, ocur := s.regs.outBase.setWidth 33 }
  (openRead t.regs.inBase (BitVec.ofNat 33 (readRegionEnd t)) t).bind fun _ u =>
    .ok () (u.setProg .looping)

/-- The ending of DECOMPRESS (spec/44_pipeline.md R199). -/
def decompressFinish (s : State) : Res Unit :=
  (closeRead s).bind fun _ t => .ok () (finishSession t.pl.ocur t.bc.cursor t)

/-- A decoded symbol of DECOMPRESS (spec/44_pipeline.md R199): the capacity is checked before the
write; then the symbol is stored and learned. -/
def emitSymbol (d : Nat) (s : State) : Res Unit :=
  let c := symbolAt s.pl.ctx (BitVec.ofNat 8 d) s
  if outputEnd s < s.pl.ocur.toNat + 1 then .raised s
  else
    (memWriteByte s.pl.ocur.toNat c s).bind fun _ t =>
      learn c d (t.setPl { t.pl with ocur := t.pl.ocur + 1 })

/-- One code word of DECOMPRESS (spec/44_pipeline.md R199): a value of 256 or more ends the
stream. -/
def decompressSymbol (s : State) : Res Unit :=
  (grdDecode s.est.k s).bind fun d t =>
    if Config.eosValue ≤ d then decompressFinish t else emitSymbol d t

/-- One engine step of a running DECOMPRESS. -/
def decompressStep (s : State) : Res Unit :=
  match s.prog with
  | .notStarted => decompressStart s
  | .looping => decompressSymbol s

/-! ## The engine -/

/-- One step of the engine while it runs (spec/44_pipeline.md R204; notes/assumptions/9.md): a
raised fault is taken. -/
def engineStep (s : State) : Host.Outcome State Fault Refusal :=
  match s.pl.op with
  | .init => .next (initBody s)
  | .compress => settle (compressStep s)
  | .decompress => settle (decompressStep s)
  | .none => .refused .noCommandAccepted

/-- The engine run until it stops, at most `fuel` steps. -/
def engineRun : Nat → State → Host.Outcome State Fault Refusal
  | 0, s => .next s
  | fuel + 1, s =>
    if s.pl.state = .running then
      match engineStep s with
      | .next t => engineRun fuel t
      | .fault f => .fault f
      | .refused r => .refused r
    else .next s

/-- More engine steps than a command takes: its opening, one for each byte of its input
(COMPRESS, spec/44_pipeline.md R202) or of its output (DECOMPRESS, R203), and its ending. -/
def commandBound (s : State) : Nat := s.regs.inLen.toNat + s.regs.outCap.toNat + 3

/-- A host command as one big step (spec/00_scope.md R13, spec/44_pipeline.md R195): submitted, and
if accepted run to `Done` or to a fault; ignored while another command runs (spec/10_state.md
R53). -/
def runCommand (op : PlOp) (s : State) : Host.Outcome State Fault Refusal :=
  if s.pl.state = .running then .next s else engineRun (commandBound s) (submit op s)

/-- Meaning of `INIT` (spec/44_pipeline.md R195, R197). -/
def execInit (s : State) : Host.Outcome State Fault Refusal := runCommand .init s

/-- Meaning of `COMPRESS` (spec/44_pipeline.md R195, R196, R198). -/
def execCompress (s : State) : Host.Outcome State Fault Refusal := runCommand .compress s

/-- Meaning of `DECOMPRESS` (spec/44_pipeline.md R195, R196, R199). -/
def execDecompress (s : State) : Host.Outcome State Fault Refusal := runCommand .decompress s

end Sys2Proof.Machine
end

