-- ==== Sys2Proof/Machine/Dispatch.lean ====
section
/-! DEFINITION. One arm per operation, each one call of its meaning. -/

namespace Sys2Proof.Machine

def exec (i : Instr) (s : State) : Host.Outcome State Fault Refusal :=
  match i with
  | .init => Sys2Proof.Machine.execInit s
  | .compress => Sys2Proof.Machine.execCompress s
  | .decompress => Sys2Proof.Machine.execDecompress s
  | .bcOpenR base stop => Sys2Proof.Machine.execBcOpenR base stop s
  | .bcOpenW base lim => Sys2Proof.Machine.execBcOpenW base lim s
  | .bcPut1 => Sys2Proof.Machine.execBcPut1 s
  | .bcWrfix value n => Sys2Proof.Machine.execBcWrfix value n s
  | .bcWrzero n => Sys2Proof.Machine.execBcWrzero n s
  | .bcFlush => Sys2Proof.Machine.execBcFlush s
  | .bcRdfix n => Sys2Proof.Machine.execBcRdfix n s
  | .bcRdunary => Sys2Proof.Machine.execBcRdunary s
  | .bcReload => Sys2Proof.Machine.execBcReload s
  | .bcCloseR => Sys2Proof.Machine.execBcCloseR s
  | .bcCloseW => Sys2Proof.Machine.execBcCloseW s
  | .greEncode k value => Sys2Proof.Machine.execGreEncode k value s
  | .grdDecode k => Sys2Proof.Machine.execGrdDecode k s
  | .rmInit => Sys2Proof.Machine.execRmInit s
  | .rmRankOf context symbol => Sys2Proof.Machine.execRmRankOf context symbol s
  | .rmSymbolAt context rank => Sys2Proof.Machine.execRmSymbolAt context rank s
  | .rmObserve context symbol => Sys2Proof.Machine.execRmObserve context symbol s
  | .estInit => Sys2Proof.Machine.execEstInit s
  | .estUpdate rankValue => Sys2Proof.Machine.execEstUpdate rankValue s

end Sys2Proof.Machine
end

