-- ==== Sys2Proof/Machine/Flags.lean ====
section
/-! DEFINITION. The fields of `STATUS` (spec/10_state.md R42): every one is a function of the
state of unit PIPE; the register holds no state of its own. -/

namespace Sys2Proof.Machine

/-- `STATUS.BUSY`, bit 0. -/
def flagBusy (s : State) : Bool := decide (s.pl.state = .running)

/-- `STATUS.DONE`, bit 1. -/
def flagDone (s : State) : Bool := decide (s.pl.state = .done) || decide (s.pl.state = .faulted)

/-- `STATUS.MODEL_INIT`, bit 2. -/
def flagModelInit (s : State) : Bool := s.pl.modelInit

/-- `STATUS.ERR`, bits 7 to 4. -/
def fieldErr (s : State) : BitVec 4 := s.pl.err

/-- `STATUS.LAST_OP`, bits 9 and 8. -/
def fieldLastOp (s : State) : BitVec 2 :=
  match s.pl.op with
  | .none => 0
  | .init => 1
  | .compress => 2
  | .decompress => 3

/-- `STATUS` as a read returns it; bits 3 and 31 to 10 are 0. -/
def statusWord (s : State) : Word :=
  (0 : BitVec 22) ++ fieldLastOp s ++ fieldErr s ++ (0 : BitVec 1) ++
    BitVec.ofBool (flagModelInit s) ++ BitVec.ofBool (flagDone s) ++ BitVec.ofBool (flagBusy s)

end Sys2Proof.Machine
end

