-- ==== Sys2Proof/Machine/HostPort.lean ====
section
/-! DEFINITION. The host's side: the host register block (spec/10_state.md R40 to R53), the
host's script (spec/30_encoding.md R111), and how the next operation is fetched: an operation on
the operation bus first, else a command at the head of the script (notes/assumptions/1.md). -/

namespace Sys2Proof.Machine

/-! ## The host register block -/

/-- A 32-bit access at a multiple of 4 inside the block (spec/10_state.md R40; V9). -/
def registerAccessOk (off : Nat) : Bool := off % 4 == 0 && decide (off ≤ 0xFC)

/-- What each register reads as while `BUSY = 0` (spec/10_state.md R40 to R52). -/
def registerValue (off : Nat) (s : State) : Word :=
  if off = 0x04 then statusWord s
  else if off = 0x08 then s.regs.inBase
  else if off = 0x0C then s.regs.inLen
  else if off = 0x10 then s.regs.outBase
  else if off = 0x14 then s.regs.outCap
  else if off = 0x18 then s.regs.outEnd
  else if off = 0x1C then s.regs.inCur
  else if off = 0x20 then s.est.k.setWidth 32
  else if off = 0x24 then s.est.sum.setWidth 32
  else if off = 0x28 then s.est.count.setWidth 32
  else if off = 0x2C then s.pl.ctx.setWidth 32
  else if off = 0x30 then s.bc.acc
  else if off = 0x34 then s.bc.fill.setWidth 32
  else 0

/-- A host read (spec/10_state.md R40, R53): while `BUSY = 1` a register other than `STATUS` gives
a free value (notes/assumptions/8.md). -/
def hostRead (off : Nat) (s : State) : Host.Outcome State Fault Refusal :=
  if registerAccessOk off then
    if s.pl.state = .running ∧ off ≠ 0x04 then
      .next ((s.setRdata (Config.busyRead s.free)).setFree (s.free + 1))
    else .next (s.setRdata (registerValue off s))
  else .refused (.registerAccess off)

/-- The operation a command word submits: the controller's name for it. -/
def plOpOf : Instr → PlOp
  | .init => .init
  | .compress => .compress
  | .decompress => .decompress
  | .bcOpenR _ _ => .none
  | .bcOpenW _ _ => .none
  | .bcPut1 => .none
  | .bcWrfix _ _ => .none
  | .bcWrzero _ => .none
  | .bcFlush => .none
  | .bcRdfix _ => .none
  | .bcRdunary => .none
  | .bcReload => .none
  | .bcCloseR => .none
  | .bcCloseW => .none
  | .greEncode _ _ => .none
  | .grdDecode _ => .none
  | .rmInit => .none
  | .rmRankOf _ _ => .none
  | .rmSymbolAt _ _ => .none
  | .rmObserve _ _ => .none
  | .estInit => .none
  | .estUpdate _ => .none

/-- A value written to `CMD`, the engine not yet moved (spec/10_state.md R41,
spec/44_pipeline.md R195). -/
def submitWord (w : Word) (s : State) : State :=
  match decodeCmd w with
  | .ok i => submit (plOpOf i) s
  | .error _ => submitReserved s

/-- The host registers after a write (spec/10_state.md R43 to R46); writes to read-only and
reserved offsets are ignored (R52; notes/assumptions/14.md). -/
def regsWritten (off : Nat) (v : Word) (r : Regs) : Regs :=
  if off = 0x08 then { r with inBase := v }
  else if off = 0x0C then { r with inLen := v }
  else if off = 0x10 then { r with outBase := v }
  else if off = 0x14 then { r with outCap := v }
  else r

/-- A host write (spec/10_state.md R40, R41, R53): ignored while `BUSY = 1`. -/
def hostWrite (off : Nat) (v : Word) (s : State) : Host.Outcome State Fault Refusal :=
  if registerAccessOk off then
    if s.pl.state = .running then .next s
    else if off = 0x00 then .next (submitWord v s)
    else .next (s.setRegs (regsWritten off v s.regs))
  else .refused (.registerAccess off)

/-- The host stores bytes in external memory (spec/30_encoding.md R111 `MEM`;
notes/assumptions/19.md). -/
def hostStore (addr : Nat) (bytes : List Byte) (s : State) : Host.Outcome State Fault Refusal :=
  if addr + bytes.length ≤ Config.addressSpace then .next (s.setMem (s.mem.setBytes addr bytes))
  else .fault (.noSuchAddress (addr + bytes.length - 1))

/-! ## Fetch -/

/-- The operation the next step performs, when it performs one, and the state with it taken away:
the one on the operation bus, else the command at the head of the host's script. -/
def fetch (s : State) : Option (Packet × State) :=
  match s.bus with
  | some o => some (.op o, s.setBus none)
  | none =>
    match s.host with
    | .cmd w :: rest => some (.cmd w, s.setHost rest)
    | .wr _ _ :: _ => none
    | .rd _ :: _ => none
    | .wait :: _ => none
    | .idle :: _ => none
    | .mem _ _ :: _ => none
    | .rst :: _ => none
    | [] => none

/-- What a fetched packet does: a decoded operation is performed; a reserved command word is
rejected (spec/30_encoding.md R105); a reserved operation code has no meaning (R109). -/
def runPacket (p : Packet) (s : State) : Host.Outcome State Fault Refusal :=
  match decode p with
  | .ok i => exec i s
  | .error (.reservedCommand _) => .next (submitReserved s)
  | .error (.reservedOperation code) => .refused (.reservedOperation code)
  | .error (.operandOutOfLane code) => .refused (.operandOutOfLane code)

/-! ## The host's script -/

/-- The engine moves if it runs, and nothing changes if it does not (spec/60_exceptions.md
R233). -/
def engineMoves (s : State) : Host.Outcome State Fault Refusal :=
  if s.pl.state = .running then engineStep s else .next s

/-- `WAIT` at the head of the script: a read of `STATUS`; with `DONE = 1` it is over, else the
engine moves, if it runs, and the host reads again (spec/30_encoding.md R111,
spec/70_reset_and_hazards.md R257; notes/assumptions/12.md). -/
def hostWait (rest : List HostAction) (s : State) : Host.Outcome State Fault Refusal :=
  if flagDone s then .next ((s.setRdata (statusWord s)).setHost rest)
  else engineMoves (s.setRdata (statusWord s))

/-- A step in which no operation is fetched: the host's next action, or the engine's next step. -/
def hostStep (s : State) : Host.Outcome State Fault Refusal :=
  match s.host with
  | [] => engineMoves s
  | .cmd w :: rest => runPacket (.cmd w) (s.setHost rest)
  | .wr off v :: rest => hostWrite off v (s.setHost rest)
  | .rd off :: rest => hostRead off (s.setHost rest)
  | .wait :: rest => hostWait rest s
  | .idle :: rest => engineMoves (s.setHost rest)
  | .mem addr bytes :: rest => hostStore addr bytes (s.setHost rest)
  | .rst :: rest => .next (hardwareReset (s.setHost rest))

/-- One step of the machine. -/
def stepBody (s : State) : Host.Outcome State Fault Refusal :=
  match fetch s with
  | some (p, t) => runPacket p t
  | none => hostStep s

/-- A command written where the next step fetches it: at the head of the host's script, nothing
on the operation bus before it. -/
def presentCommand (w : Word) (s : State) : State := (s.setBus none).setHost (.cmd w :: s.host)

/-- An operation written where the next step fetches it: on the operation bus. -/
def presentOperation (o : BusOp) (s : State) : State := s.setBus (some o)

/-- The packet of a table word placed where the next step fetches it. -/
def placeTableWord (s : State) (nbits w : Nat) : State :=
  match tablePacket nbits w with
  | some (.cmd c) => presentCommand c s
  | some (.op o) => presentOperation o s
  | none => s

end Sys2Proof.Machine
end

