-- ==== Sys2Proof/Safety.lean ====
section
/-! DEFINITION. The words the claims use: bit streams (spec/00_scope.md R11, spec/30_encoding.md
R91, R94), what a channel has produced and has still to read (spec/40_bit_channel.md R135, R136),
the invariants of the units (spec/10_state.md R27, R31, R33, R42), and what a session learns. -/

namespace Sys2Proof.Machine

/-! ## Bit streams -/

/-- The number whose bits are listed, least significant first. -/
def bitsValue : List Bool → Nat
  | [] => 0
  | b :: rest => b.toNat + 2 * bitsValue rest

/-- The code word of `value` under `k`, in stream order (spec/30_encoding.md R91). -/
def codeWord (k : BitVec 5) (value : Nat) : List Bool :=
  zeroBits (riceQuotient k value) ++ true :: fieldBits (riceRemainder k value) k.toNat

/-- The bits a write channel has produced and not yet stored (spec/10_state.md R25). -/
def pendingBits (b : Bc) : List Bool := fieldBits b.acc.toNat b.fill.toNat

/-! ## The writing channel -/

/-- A channel in mode `Write` as every write operation leaves it: a free place in the accumulator,
zeros above the bits produced, an aligned cursor, a limit inside memory (spec/10_state.md R22, R24,
R25, R27). -/
def WriteReady (s : State) : Prop :=
  s.bc.mode = .write ∧ s.bc.fill.toNat ≤ 31 ∧ s.bc.acc.toNat < 2 ^ s.bc.fill.toNat ∧
    s.bc.cur.toNat % 4 = 0 ∧ s.bc.lim.toNat ≤ Config.addressSpace

/-- The words that `n` more bits fill. -/
def wordsFilled (s : State) (n : Nat) : Nat := (s.bc.fill.toNat + n) / 32

/-- The limit leaves room for the words that `n` more bits fill, if any (spec/10_state.md R24). -/
def HasRoom (s : State) (n : Nat) : Prop :=
  0 < wordsFilled s n → s.bc.cursor.toNat + 4 * wordsFilled s n ≤ s.bc.lim.toNat

/-- `t` is `s` with `bits` appended to its stream (spec/40_bit_channel.md R135): the words filled
are stored at the cursor in order, the rest is in the accumulator, every other byte of memory and
every other field is as before. -/
def Appended (bits : List Bool) (s t : State) : Prop :=
  t = { s with
    bc := { s.bc with
      cur := t.bc.cur, carry := t.bc.carry, acc := t.bc.acc, fill := t.bc.fill }
    mem := t.mem } ∧
  t.bc.cursor.toNat = s.bc.cursor.toNat + 4 * wordsFilled s bits.length ∧
  t.bc.fill.toNat = (s.bc.fill.toNat + bits.length) % 32 ∧
  t.bc.acc.toNat =
    bitsValue ((pendingBits s.bc ++ bits).drop (32 * wordsFilled s bits.length)) ∧
  (∀ j, j < wordsFilled s bits.length →
    (t.mem.wordAt (s.bc.cursor.toNat + 4 * j)).toNat =
      bitsValue (((pendingBits s.bc ++ bits).drop (32 * j)).take 32)) ∧
  ∀ a, a < s.bc.cursor.toNat ∨ s.bc.cursor.toNat + 4 * wordsFilled s bits.length ≤ a →
    t.mem.byteAt a = s.mem.byteAt a

/-- `t` records the fault `ERR_BUFFER_TOO_SMALL`, raised where the channel and memory are those of `t`
(spec/60_exceptions.md R219, R222): the code, the state, the two cursors; all but unit BC and memory
is otherwise as in `s`. -/
def FaultRecorded (s t : State) : Prop :=
  t = { s with
    bc := t.bc, mem := t.mem
    pl := { s.pl with err := 4, state := .faulted }
    regs := { s.regs with
      outEnd := (if s.pl.op = .decompress then s.pl.ocur else t.bc.cursor).setWidth 32
      inCur := (if s.pl.op = .decompress then t.bc.cursor else s.pl.icur).setWidth 32 } }

/-- The words the limit leaves room for. -/
def wordsFit (s : State) : Nat := (s.bc.lim.toNat - s.bc.cursor.toNat) / 4

/-- `t` is what appending `bits` leaves when the limit has no room for all the words they fill
(spec/40_bit_channel.md R124, R126): the words that fit are stored, the next one is complete in the
accumulator and not stored, no later bit is placed, the fault is recorded. -/
def RanOutOfRoom (bits : List Bool) (s t : State) : Prop :=
  FaultRecorded s t ∧
  t.bc = { s.bc with cur := t.bc.cur, carry := t.bc.carry, acc := t.bc.acc, fill := 32 } ∧
  t.bc.cursor.toNat = s.bc.cursor.toNat + 4 * wordsFit s ∧
  t.bc.acc.toNat = bitsValue (((pendingBits s.bc ++ bits).drop (32 * wordsFit s)).take 32) ∧
  (∀ j, j < wordsFit s →
    (t.mem.wordAt (s.bc.cursor.toNat + 4 * j)).toNat =
      bitsValue (((pendingBits s.bc ++ bits).drop (32 * j)).take 32)) ∧
  ∀ a, a < s.bc.cursor.toNat ∨ s.bc.cursor.toNat + 4 * wordsFit s ≤ a →
    t.mem.byteAt a = s.mem.byteAt a

/-! ## The reading channel -/

/-- A channel in mode `Read` as every read operation leaves it (spec/10_state.md R22, R23, R27). -/
def ReadReady (s : State) : Prop :=
  s.bc.mode = .read ∧ s.bc.fill.toNat ≤ 31 ∧ s.bc.cur.toNat % 4 = 0 ∧
    s.bc.stop.toNat ≤ Config.addressSpace

/-- The word the reload number `m` (from 0) of the channel brings: a word of the region, or the
sentinel once the region is exhausted (spec/40_bit_channel.md R131). -/
def reloadWord (s : State) (m : Nat) : Word :=
  if s.bc.cursor.toNat + 4 * (m + 1) ≤ s.bc.stop.toNat then s.mem.wordAt (s.bc.cursor.toNat + 4 * m)
  else Config.sentinelWord

/-- The bit number `j` (from 0) that the channel will consume (spec/40_bit_channel.md R136). -/
def upcomingBit (s : State) (j : Nat) : Bool :=
  if j < 32 - s.bc.fill.toNat then s.bc.acc.getLsbD j
  else
    (reloadWord s ((j - (32 - s.bc.fill.toNat)) / 32)).getLsbD
      ((j - (32 - s.bc.fill.toNat)) % 32)

/-- The `n` bits that come after the first `from` ones. -/
def upcomingBits (s : State) (skip n : Nat) : List Bool :=
  (List.range n).map fun j => upcomingBit s (skip + j)

/-- The words that consuming `n` bits reloads. -/
def wordsReloaded (s : State) (n : Nat) : Nat := (s.bc.fill.toNat + n) / 32

/-- Unit BC after `n` bits were consumed (spec/40_bit_channel.md R128, R131, R136): the cursor moves
over the valid words loaded only. -/
def consumedBc (s : State) (n : Nat) : Bc :=
  if wordsReloaded s n = 0 then
    { s.bc with acc := s.bc.acc >>> n, fill := BitVec.ofNat 6 (s.bc.fill.toNat + n) }
  else
    { s.bc.setCursor (BitVec.ofNat 33 (s.bc.cursor.toNat +
        4 * min (wordsReloaded s n) ((s.bc.stop.toNat - s.bc.cursor.toNat) / 4))) with
      acc := reloadWord s (wordsReloaded s n - 1) >>> ((s.bc.fill.toNat + n) % 32)
      fill := BitVec.ofNat 6 ((s.bc.fill.toNat + n) % 32) }

/-- The bit `s[j]` of a read session over `[base, stop)` (spec/40_bit_channel.md R136). -/
def sessionBit (m : Memory) (base stop j : Nat) : Bool :=
  if j < 32 * ((stop - base) / 4) then (m.wordAt (base + 4 * (j / 32))).getLsbD (j % 32)
  else decide (j % 32 = 31)

/-! ## Invariants -/

/-- Unit BC between operations (spec/10_state.md R22, R25, R26, R27; notes/assumptions/25.md), the
cursor no further than one past the top of the address space (spec/20_memory.md R71). -/
def ChannelOk (b : Bc) : Prop :=
  b.fill.toNat ≤ 32 ∧ (b.fill.toNat = 32 → b.mode = .write) ∧
    (b.mode = .write → b.acc.toNat < 2 ^ b.fill.toNat) ∧
    (b.mode = .read → b.acc.toNat < 2 ^ (32 - b.fill.toNat)) ∧
    (b.mode ≠ .closed → b.cur.toNat % 4 = 0) ∧ b.cursor.toNat ≤ Config.addressSpace

/-- Unit EST between operations (spec/10_state.md R33, spec/43_estimator.md R188). -/
def EstimatorOk (e : Est) : Prop :=
  e.count.toNat ≤ 255 ∧ e.sum.toNat ≤ 255 * e.count.toNat ∧ e.k.toNat ≤ 7

/-- `rm.r2s` and `rm.s2r` are mutual inverses in every context (spec/10_state.md R31 (a)). -/
def MutualInverses (m : Rm) : Prop :=
  (∀ x sym, m.symAt x (m.rankOf x sym) = sym) ∧ ∀ x r, m.rankOf x (m.symAt x r) = r

/-- The frequencies do not increase along the ranks (spec/10_state.md R31 (b)). -/
def FrequencyOrdered (m : Rm) : Prop :=
  ∀ x r1 r2 : Byte, r1.toNat < r2.toNat →
    (m.freqAt x (m.symAt x r2)).toNat ≤ (m.freqAt x (m.symAt x r1)).toNat

/-- Both invariants of unit RM (spec/10_state.md R31). -/
def RankModelOk (m : Rm) : Prop := MutualInverses m ∧ FrequencyOrdered m

/-- The tables hold their invariants once `RM.INIT` has run, and INIT has run when
`pl.model_init = 1` (spec/10_state.md R31, R39). -/
def ModelOk (s : State) : Prop :=
  (s.pl.modelInit = true → s.rm.base = .initialised) ∧
    (s.rm.base = .initialised → RankModelOk s.rm)

/-- `pl.err` is non-zero exactly in `Faulted` and is one of the codes of R215
(spec/10_state.md R42, spec/60_exceptions.md R215). -/
def StatusOk (p : Pl) : Prop := (p.err ≠ 0 ↔ p.state = .faulted) ∧ p.err.toNat ≤ 4

/-- External memory and the tables are in their one canonical form. -/
def CanonicalForm (s : State) : Prop := s.mem.wf = true ∧ s.rm.wf = true

/-! ## Sessions -/

/-- The acceptance checks 2, 3 and 5 pass for a session (spec/44_pipeline.md R196), over natural
numbers. -/
def SessionAccepted (s : State) : Prop :=
  s.pl.modelInit = true ∧
    s.regs.inBase.toNat + s.regs.inLen.toNat ≤ Config.addressSpace ∧
    s.regs.outBase.toNat + s.regs.outCap.toNat ≤ Config.addressSpace ∧
    ¬(0 < s.regs.inLen.toNat ∧ 0 < s.regs.outCap.toNat ∧
      s.regs.inBase.toNat < s.regs.outBase.toNat + s.regs.outCap.toNat ∧
      s.regs.outBase.toNat < s.regs.inBase.toNat + s.regs.inLen.toNat)

/-- No entry of `rm.freq` can reach `2^32 - 1` within `n` more symbols (spec/41_rank_model.md
R158). -/
def CountsHaveRoom (m : Rm) (n : Nat) : Prop :=
  ∀ x sym : Byte, (m.freqAt x sym).toNat + n ≤ 4294967295

/-- The model of a freshly initialised block (spec/10_state.md R56). -/
def FreshModel (s : State) : Prop :=
  s.rm = rmInitialised ∧ s.est = estInitialised ∧ s.pl.modelInit = true

/-- The symbols of the input region of COMPRESS, in order. -/
def inputSymbols (s : State) : List Byte :=
  (List.range s.regs.inLen.toNat).map fun j => s.mem.byteAt (s.regs.inBase.toNat + j)

/-- The tables after a session's symbols, the first in context `x` (spec/44_pipeline.md R198). -/
def rmAfter (m : Rm) (x : Byte) : List Byte → Rm
  | [] => m
  | c :: rest => rmAfter (observed m x c) c rest

/-- The estimator after a session's symbols (spec/44_pipeline.md R198). -/
def estAfter (m : Rm) (e : Est) (x : Byte) : List Byte → Est
  | [] => e
  | c :: rest => estAfter (observed m x c) (estUpdated e (m.rankOf x c).toNat) c rest

/-- The code words of a session's symbols, without the marker's: that of each rank under the `k` in
force before its update (spec/30_encoding.md R94). -/
def symbolsBits (m : Rm) (e : Est) (x : Byte) : List Byte → List Bool
  | [] => []
  | c :: rest =>
    codeWord e.k (m.rankOf x c).toNat ++
      symbolsBits (observed m x c) (estUpdated e (m.rankOf x c).toNat) c rest

/-- The stream of a session: the code word of each rank under the `k` in force before its update,
then the marker's (spec/30_encoding.md R94). -/
def sessionBits (m : Rm) (e : Est) (x : Byte) : List Byte → List Bool
  | [] => codeWord e.k Config.eosValue
  | c :: rest =>
    codeWord e.k (m.rankOf x c).toNat ++
      sessionBits (observed m x c) (estUpdated e (m.rankOf x c).toNat) c rest

/-- The context after a session's symbols (spec/10_state.md R36). -/
def contextAfter (symbols : List Byte) : Byte := symbols.getLastD Config.initialContext

/-- The words a stream of `n` bits takes (spec/30_encoding.md R94). -/
def streamWords (n : Nat) : Nat := (n + 31) / 32

/-! ## The closed form of a boundary's `k` -/

/-- `k = 0` when the sum is below 512, else the position of the most significant set bit of
`sum div 256` (spec/43_estimator.md R187). -/
def closedFormK (sum : Nat) : Nat := if sum < 512 then 0 else Nat.log2 (sum / 256)

/-! ## The word-at-a-time form of the writes -/

/-- The whole zero words of `BC.WRZERO`, then the rest of the run (spec/40_bit_channel.md R138). -/
def zeroWords : Nat → Nat → State → Res Unit
  | 0, rest, s => .ok () (s.setBc { s.bc with fill := BitVec.ofNat 6 rest })
  | n + 1, rest, s =>
    (flush (s.setBc { s.bc with fill := 32 })).bind fun _ t => zeroWords n rest t

/-- `BC.WRZERO n` word at a time (spec/40_bit_channel.md R138). -/
def wrzeroByWords (n : Nat) (s : State) : Res Unit :=
  if n < 32 - s.bc.fill.toNat then
    .ok () (s.setBc { s.bc with fill := BitVec.ofNat 6 (s.bc.fill.toNat + n) })
  else
    (flush (s.setBc { s.bc with fill := 32 })).bind fun _ t =>
      zeroWords ((n - (32 - s.bc.fill.toNat)) / 32) ((n - (32 - s.bc.fill.toNat)) % 32) t

/-- `BC.WRFIX value, n` word at a time (spec/40_bit_channel.md R138). -/
def wrfixByWords (value n : Nat) (s : State) : Res Unit :=
  if n < 32 - s.bc.fill.toNat then
    .ok () (s.setBc { s.bc with
      acc := s.bc.acc ||| BitVec.ofNat 32 (value % 2 ^ n * 2 ^ s.bc.fill.toNat)
      fill := BitVec.ofNat 6 (s.bc.fill.toNat + n) })
  else
    (flush (s.setBc { s.bc with
      acc := s.bc.acc |||
        BitVec.ofNat 32 (value % 2 ^ n % 2 ^ (32 - s.bc.fill.toNat) * 2 ^ s.bc.fill.toNat)
      fill := 32 })).bind fun _ t =>
      .ok () (t.setBc { t.bc with
        acc := BitVec.ofNat 32 (value % 2 ^ n / 2 ^ (32 - s.bc.fill.toNat))
        fill := BitVec.ofNat 6 (n - (32 - s.bc.fill.toNat)) })

end Sys2Proof.Machine
end

