-- ==== Sys2Proof/Certificates/Slice0/Obligations.lean ====
section
/-! DEFINITION. The statements about the machine, for the provers. Each docstring names the rule of
spec/ it formalises; one that rests on a choice of the model names the log entry. -/

open Sys2Proof Sys2Proof.Machine

/-! ## Encoding -/

/-- Every operation, with every operand at every value, is decoded from its encoding
(spec/30_encoding.md R104, R106, R108; the lanes are the model's, notes/assumptions/2.md). -/
def Obligations.DecodeOfEncodeIsTheOperation : Prop :=
  ∀ i : Instr, decode (encode i) = .ok i

/-- A packet that decodes is the encoding of what it decodes to, or a host command's operation code
(spec/30_encoding.md R106): no packet means two operations. That no bit of an operand lane is ignored
is the model's choice (notes/assumptions/2.md), and so is that the bus takes the codes 0x01 to 0x03
(notes/assumptions/1.md). -/
def Obligations.DecodedPacketIsTheEncoding : Prop :=
  ∀ (p : Packet) (i : Instr), decode p = .ok i → p = encode i ∨ p = .op (encodeOp i)

/-- Command words and operation codes written out from the tables of spec/30_encoding.md R104 and R108
decode to their operations, one or more for each unit; the lanes the operands of the `.op` packets
stand in are the model's choice (notes/assumptions/2.md). -/
def Obligations.TableWordsDecodeToTheirOperations : Prop :=
  decodeTableWord 32 0x00000001 = some .init ∧
  decodeTableWord 32 0x00000002 = some .compress ∧
  decodeTableWord 32 0x00000003 = some .decompress ∧
  decode (.op ⟨0x13, 0x5, 0x3⟩) = .ok (.bcWrfix 5 3) ∧
  decode (.op ⟨0x20, 0x3, 0x41⟩) = .ok (.greEncode 3 65) ∧
  decode (.op ⟨0x30, 0x3, 0x0⟩) = .ok (.grdDecode 3) ∧
  decode (.op ⟨0x43, 0x12, 0x34⟩) = .ok (.rmObserve 0x12 0x34) ∧
  decode (.op ⟨0x51, 0xFF, 0x0⟩) = .ok (.estUpdate 255)

/-- The map of operation codes is total: a code is reserved exactly when no operation has it, and a
reserved code has no meaning (spec/30_encoding.md R109). That a step takes the operation bus before
the host's script and refuses a reserved code there by name, and that no step puts an operation on
the bus, is said of the model's own field `bus` (notes/assumptions/1.md). -/
def Obligations.CodeIsReservedExactlyWhenNoOperationHasIt : Prop :=
  ∀ o : BusOp,
    (decode (.op o) = .error (.reservedOperation o.code) ↔ ∀ i : Instr, opCode i ≠ o.code) ∧
    (∀ s : State, s.bus = some o → (∀ i : Instr, opCode i ≠ o.code) →
      step s = .refused (.reservedOperation o.code)) ∧
    ∀ s t : State, step s = .next t → t.bus = none

/-- A reserved command word, written with or without waiting for the end, is rejected with
`ERR_INVALID_COMMAND` and changes nothing else (spec/30_encoding.md R105). -/
def Obligations.ReservedCommandWordIsRejected : Prop :=
  ∀ (s : State) (w : Word) (rest : List HostAction),
    s.bus = none → s.pl.state ≠ .running → w ≠ 1 → w ≠ 2 → w ≠ 3 →
    (s.host = .cmd w :: rest ∨ s.host = .wr 0x00 w :: rest) →
    step s = .next { s with host := rest, pl := { s.pl with err := 1, state := .faulted } }

/-! ## The step -/

/-- A step performs the operation it fetches and decodes, and nothing else stands around `exec`:
the operation on the operation bus, else a command at the head of the host's script, taken away
from where it was fetched (notes/assumptions/1.md). -/
def Obligations.StepPerformsTheDecodedOperation : Prop :=
  (∀ (s t : State) (p : Packet) (i : Instr),
    fetch s = some (p, t) → decode p = .ok i → step s = exec i t) ∧
  (∀ (s : State) (o : BusOp), s.bus = some o → fetch s = some (.op o, { s with bus := none })) ∧
  ∀ (s : State) (w : Word) (rest : List HostAction), s.bus = none → s.host = .cmd w :: rest →
    fetch s = some (.cmd w, { s with host := rest })

/-! ## Acceptance and the host registers -/

/-- The acceptance checks of a session, in their order: before any INIT it is rejected with code 2;
with regions that wrap, overlap or are misaligned on the channel's side, with code 3; nothing else
changes (spec/60_exceptions.md R217, R218, R221, spec/44_pipeline.md R196). -/
def Obligations.SessionsFailingTheChecksAreRejected : Prop :=
  ∀ s : State, s.pl.state ≠ .running →
    (s.pl.modelInit = false →
      exec .compress s = .next { s with pl := { s.pl with err := 2, state := .faulted } } ∧
      exec .decompress s = .next { s with pl := { s.pl with err := 2, state := .faulted } }) ∧
    (s.pl.modelInit = true → ¬(SessionAccepted s ∧ s.regs.outBase.toNat % 4 = 0) →
      exec .compress s = .next { s with pl := { s.pl with err := 3, state := .faulted } }) ∧
    (s.pl.modelInit = true → ¬(SessionAccepted s ∧ s.regs.inBase.toNat % 4 = 0) →
      exec .decompress s = .next { s with pl := { s.pl with err := 3, state := .faulted } })

/-- An accepted command clears the fault record and runs: a `CMD` write whose checks pass leaves
`pl.op` the command, `pl.err` 0 and `BUSY = 1` (spec/44_pipeline.md R195, spec/60_exceptions.md
R225; `prog` is the model's own, notes/assumptions/9.md). -/
def Obligations.AcceptedCommandStartsRunning : Prop :=
  ∀ (s : State) (rest : List HostAction), s.bus = none → s.pl.state ≠ .running →
    (s.host = .wr 0x00 1 :: rest →
      step s = .next { s with
        host := rest, pl := { s.pl with op := .init, err := 0, state := .running },
        prog := .notStarted }) ∧
    (s.host = .wr 0x00 2 :: rest → SessionAccepted s → s.regs.outBase.toNat % 4 = 0 →
      step s = .next { s with
        host := rest, pl := { s.pl with op := .compress, err := 0, state := .running },
        prog := .notStarted }) ∧
    (s.host = .wr 0x00 3 :: rest → SessionAccepted s → s.regs.inBase.toNat % 4 = 0 →
      step s = .next { s with
        host := rest, pl := { s.pl with op := .decompress, err := 0, state := .running },
        prog := .notStarted })

/-- While `BUSY = 1` a write to any register, `CMD` included, changes nothing, a read of `STATUS`
returns its current value, and a read of another register returns some value, of which the statement
says nothing (spec/10_state.md R53), and changes nothing else but the counter of free values, which is
the model's own (notes/assumptions/8.md). -/
def Obligations.BusyBlockIgnoresWritesAndShowsStatus : Prop :=
  ∀ (s : State) (rest : List HostAction), s.bus = none → s.pl.state = .running →
    (∀ (off : Nat) (v : Word), off % 4 = 0 → off ≤ 0xFC → s.host = .wr off v :: rest →
      step s = .next { s with host := rest }) ∧
    (s.host = .rd 0x04 :: rest →
      step s = .next { s with host := rest, rdata := statusWord s }) ∧
    (∀ off : Nat, off % 4 = 0 → off ≤ 0xFC → off ≠ 0x04 → s.host = .rd off :: rest →
      ∃ v, step s = .next { s with host := rest, rdata := v, free := s.free + 1 }) ∧
    exec .init s = .next s ∧ exec .compress s = .next s ∧ exec .decompress s = .next s

/-- A write to a configuration register while `BUSY = 0` takes effect at once and reads back, any
value (spec/10_state.md R43 to R46, spec/70_reset_and_hazards.md R254 (c)). -/
def Obligations.ConfigurationRegisterReadsBack : Prop :=
  ∀ (s : State) (off : Nat) (v : Word) (rest : List HostAction),
    s.bus = none → s.pl.state ≠ .running →
    (off = 0x08 ∨ off = 0x0C ∨ off = 0x10 ∨ off = 0x14) →
    s.host = .wr off v :: .rd off :: rest →
    ∃ t u : State, step s = .next t ∧ step t = .next u ∧
      u = { s with host := rest, rdata := v, regs := u.regs } ∧
      u.regs.inBase = (if off = 0x08 then v else s.regs.inBase) ∧
      u.regs.inLen = (if off = 0x0C then v else s.regs.inLen) ∧
      u.regs.outBase = (if off = 0x10 then v else s.regs.outBase) ∧
      u.regs.outCap = (if off = 0x14 then v else s.regs.outCap) ∧
      u.regs.outEnd = s.regs.outEnd ∧ u.regs.inCur = s.regs.inCur

/-- What each read-only register reads as while `BUSY = 0`, reserved offsets among them, and that a
write to a reserved offset changes nothing (spec/10_state.md R41, R42, R47 to R52); that a write to a
read-only register changes nothing either is DEDUCED (notes/assumptions/14.md). -/
def Obligations.ReadOnlyRegistersShowTheUnits : Prop :=
  ∀ (s : State) (off : Nat) (rest : List HostAction), s.bus = none → s.pl.state ≠ .running →
    (s.host = .rd off :: rest →
      (off = 0x00 → step s = .next { s with host := rest, rdata := 0 }) ∧
      (off = 0x04 → step s = .next { s with host := rest, rdata := statusWord s }) ∧
      (off = 0x18 → step s = .next { s with host := rest, rdata := s.regs.outEnd }) ∧
      (off = 0x1C → step s = .next { s with host := rest, rdata := s.regs.inCur }) ∧
      (off = 0x20 → step s = .next { s with host := rest, rdata := s.est.k.setWidth 32 }) ∧
      (off = 0x24 → step s = .next { s with host := rest, rdata := s.est.sum.setWidth 32 }) ∧
      (off = 0x28 → step s = .next { s with host := rest, rdata := s.est.count.setWidth 32 }) ∧
      (off = 0x2C → step s = .next { s with host := rest, rdata := s.pl.ctx.setWidth 32 }) ∧
      (off = 0x30 → step s = .next { s with host := rest, rdata := s.bc.acc }) ∧
      (off = 0x34 → step s = .next { s with host := rest, rdata := s.bc.fill.setWidth 32 }) ∧
      (0x38 ≤ off ∧ off ≤ 0xFC ∧ off % 4 = 0 →
        step s = .next { s with host := rest, rdata := 0 })) ∧
    ∀ v : Word, s.host = .wr off v :: rest → off % 4 = 0 → off ≤ 0xFC →
      off = 0x04 ∨ 0x18 ≤ off → step s = .next { s with host := rest }

/-- The fields of `STATUS`, bit by bit, each a function of the state of unit PIPE; what a read of it
returns, running or not; `BUSY` and `DONE` never both 1; `ERR` non-zero exactly in `Faulted`; its
reset value (spec/10_state.md R42). -/
def Obligations.StatusFieldsAreThePlState : Prop :=
  statusWord State.reset = 0 ∧ ∀ s : State,
    (∀ rest, s.bus = none → s.host = .rd 0x04 :: rest →
      step s = .next { s with host := rest, rdata := statusWord s }) ∧
    (statusWord s).getLsbD 0 = decide (s.pl.state = .running) ∧
    (statusWord s).getLsbD 1 = decide (s.pl.state = .done ∨ s.pl.state = .faulted) ∧
    (statusWord s).getLsbD 2 = s.pl.modelInit ∧
    (statusWord s).getLsbD 3 = false ∧
    (statusWord s).extractLsb' 4 4 = s.pl.err ∧
    ((statusWord s).extractLsb' 8 2).toNat =
      (match s.pl.op with | .none => 0 | .init => 1 | .compress => 2 | .decompress => 3) ∧
    (statusWord s).extractLsb' 10 22 = 0 ∧
    ¬((statusWord s).getLsbD 0 = true ∧ (statusWord s).getLsbD 1 = true) ∧
    (StatusOk s.pl → ((statusWord s).extractLsb' 4 4 ≠ 0 ↔ s.pl.state = .faulted))

/-! ## Reset -/

/-- The values hardware reset gives (spec/10_state.md R55), and `STATUS` reads 0; the tables of
unit RM, which R55 leaves unspecified, are not in it. -/
def Obligations.ResetGivesTheListedValues : Prop :=
  State.reset.bc.mode = .closed ∧ State.reset.bc.cur = 0 ∧ State.reset.bc.cursor = 0 ∧
  State.reset.bc.stop = 0 ∧ State.reset.bc.lim = 0 ∧ State.reset.bc.acc = 0 ∧
  State.reset.bc.fill = 0 ∧
  State.reset.est.sum = 0 ∧ State.reset.est.count = 0 ∧ State.reset.est.k = 3 ∧
  State.reset.pl = ⟨.idle, .none, 0, 0, 0, 0, false⟩ ∧
  State.reset.regs = ⟨0, 0, 0, 0, 0, 0⟩ ∧
  statusWord State.reset = 0

/-- Hardware reset at any time takes the state of spec/10_state.md R55; external memory is
untouched, but that the output region of a running COMPRESS or DECOMPRESS it abandons is unspecified
(spec/70_reset_and_hazards.md R245 to R247; one pulse, notes/assumptions/21.md; what the lost region
holds, and that a running INIT has none, notes/assumptions/7.md; the carry of the cursor,
notes/assumptions/3.md). -/
def Obligations.HardwareResetTakesTheResetState : Prop :=
  ∀ (s : State) (rest : List HostAction), s.bus = none → s.host = .rst :: rest →
    ∃ t : State, step s = .next t ∧
      t.bc = ⟨.closed, 0, 0, 0, 0, 0, 0⟩ ∧ t.est = ⟨0, 0, 3⟩ ∧
      t.pl = ⟨.idle, .none, 0, 0, 0, 0, false⟩ ∧ t.regs = ⟨0, 0, 0, 0, 0, 0⟩ ∧
      t.host = rest ∧ t.bus = none ∧
      (¬(s.pl.state = .running ∧ (s.pl.op = .compress ∨ s.pl.op = .decompress)) →
        t.mem = s.mem) ∧
      ∀ a, a < s.regs.outBase.toNat ∨ s.regs.outBase.toNat + s.regs.outCap.toNat ≤ a →
        t.mem.byteAt a = s.mem.byteAt a

/-! ## Unit BC, writing -/

/-- `BC.OPEN_W` of a closed channel binds it to a write region with an empty accumulator and changes
nothing else (spec/40_bit_channel.md R122); `setCursor` is the cursor over natural numbers
(spec/20_memory.md R71). -/
def Obligations.OpenWriteBindsAnEmptyChannel : Prop :=
  ∀ (s : State) (base : Word) (lim : WideAddr),
    s.bc.mode = .closed → base.toNat % 4 = 0 → base.toNat ≤ lim.toNat →
    opCode (.bcOpenW base lim) = 0x11 ∧ exec (.bcOpenW base lim) s = .next { s with
      bc := { s.bc.setCursor (base.setWidth 33) with
        mode := .write, lim := lim, acc := 0, fill := 0 } }

/-- `BC.PUT1` appends one bit of value 1 (spec/40_bit_channel.md R123), storing the word it fills;
without room for that word it raises `ERR_BUFFER_TOO_SMALL`; the cursors recorded with no session
running are DEDUCED (notes/assumptions/13.md). -/
def Obligations.Put1AppendsAOne : Prop :=
  opCode .bcPut1 = 0x12 ∧ ∀ s : State, WriteReady s →
    (HasRoom s 1 → ∃ t, exec .bcPut1 s = .next t ∧ Appended [true] s t) ∧
    (¬HasRoom s 1 → ∃ t, exec .bcPut1 s = .next t ∧ RanOutOfRoom [true] s t)

/-- `BC.WRFIX` appends the low `n` bits of its value, least significant first, across word
boundaries; bits placed before a refused flush stay placed, bits after it are not
(spec/40_bit_channel.md R124); the cursors recorded with no session running are DEDUCED
(notes/assumptions/13.md). -/
def Obligations.WrfixAppendsTheLowBits : Prop :=
  ∀ (s : State) (value : Word) (n : BitVec 6) (bits : List Bool), WriteReady s → n.toNat ≤ 32 →
    bits = (List.range n.toNat).map (fun j => value.getLsbD j) →
    opCode (.bcWrfix value n) = 0x13 ∧
    (HasRoom s n.toNat → ∃ t, exec (.bcWrfix value n) s = .next t ∧ Appended bits s t) ∧
    (¬HasRoom s n.toNat → ∃ t, exec (.bcWrfix value n) s = .next t ∧ RanOutOfRoom bits s t)

/-- `BC.WRZERO` appends `n` zero bits, over any number of words (spec/40_bit_channel.md R125); the
cursors recorded by a refused flush with no session running are DEDUCED
(notes/assumptions/13.md). -/
def Obligations.WrzeroAppendsZeros : Prop :=
  ∀ (s : State) (n : Word), WriteReady s →
    opCode (.bcWrzero n) = 0x14 ∧
    (HasRoom s n.toNat → ∃ t, exec (.bcWrzero n) s = .next t ∧
      Appended (List.replicate n.toNat false) s t) ∧
    (¬HasRoom s n.toNat → ∃ t, exec (.bcWrzero n) s = .next t ∧
      RanOutOfRoom (List.replicate n.toNat false) s t)

/-- The word-at-a-time form of `BC.WRFIX` and `BC.WRZERO` equals the bit-serial one in every
effect, the fault point among them (spec/40_bit_channel.md R138). -/
def Obligations.WordAtATimeWritesEqualBitSerialOnes : Prop :=
  ∀ s : State, s.bc.mode = .write → s.bc.fill.toNat ≤ 31 → s.bc.acc.toNat < 2 ^ s.bc.fill.toNat →
    (∀ value n : Nat, n ≤ 32 → wrfix value n s = wrfixByWords value n s) ∧
    ∀ n : Nat, wrzero n s = wrzeroByWords n s

/-- `BC.FLUSH` stores the whole accumulator at the cursor, moves the cursor on and clears
accumulator and counter, every byte outside the word unchanged; refused for want of room it writes
nothing, keeps cursor, accumulator and counter, and records the cursors
(spec/40_bit_channel.md R126, spec/60_exceptions.md R219, R222; with no session running the
recorded cursors are DEDUCED, notes/assumptions/13.md). -/
def Obligations.FlushStoresTheAccumulatorOrKeepsIt : Prop :=
  opCode .bcFlush = 0x15 ∧ ∀ s : State, s.bc.mode = .write →
    (s.bc.cur.toNat % 4 = 0 → s.bc.cursor.toNat + 4 ≤ s.bc.lim.toNat →
      s.bc.lim.toNat ≤ Config.addressSpace →
      ∃ t, exec .bcFlush s = .next t ∧
        t = { s with
          bc := { s.bc.setCursor (s.bc.cursor + 4) with acc := 0, fill := 0 }, mem := t.mem } ∧
        t.bc.cursor.toNat = s.bc.cursor.toNat + 4 ∧
        t.mem.byteAt s.bc.cursor.toNat = s.bc.acc.extractLsb' 0 8 ∧
        t.mem.byteAt (s.bc.cursor.toNat + 1) = s.bc.acc.extractLsb' 8 8 ∧
        t.mem.byteAt (s.bc.cursor.toNat + 2) = s.bc.acc.extractLsb' 16 8 ∧
        t.mem.byteAt (s.bc.cursor.toNat + 3) = s.bc.acc.extractLsb' 24 8 ∧
        ∀ a, a < s.bc.cursor.toNat ∨ s.bc.cursor.toNat + 4 ≤ a → t.mem.byteAt a = s.mem.byteAt a) ∧
    (s.bc.lim.toNat < s.bc.cursor.toNat + 4 →
      exec .bcFlush s = .next { s with
        pl := { s.pl with err := 4, state := .faulted }
        regs := { s.regs with
          outEnd := (if s.pl.op = .decompress then s.pl.ocur else s.bc.cursor).setWidth 32
          inCur := (if s.pl.op = .decompress then s.bc.cursor else s.pl.icur).setWidth 32 } })

/-- `BC.CLOSE_W` stores a partial word, zero-padded, and closes; with nothing buffered it only
closes (spec/40_bit_channel.md R134); without room it faults and changes nothing in the channel, the
cursors recorded with no session running being DEDUCED (notes/assumptions/13.md). -/
def Obligations.CloseWriteStoresThePartialWord : Prop :=
  opCode .bcCloseW = 0x1A ∧ ∀ s : State, WriteReady s →
    (s.bc.fill.toNat = 0 →
      exec .bcCloseW s = .next { s with bc := { s.bc with mode := .closed } }) ∧
    (0 < s.bc.fill.toNat → s.bc.cursor.toNat + 4 ≤ s.bc.lim.toNat →
      ∃ t, exec .bcCloseW s = .next t ∧
        t = { s with
          bc := { s.bc.setCursor (s.bc.cursor + 4) with mode := .closed, acc := 0, fill := 0 }
          mem := t.mem } ∧
        t.mem.wordAt s.bc.cursor.toNat = s.bc.acc ∧
        ∀ a, a < s.bc.cursor.toNat ∨ s.bc.cursor.toNat + 4 ≤ a → t.mem.byteAt a = s.mem.byteAt a) ∧
    (0 < s.bc.fill.toNat → s.bc.lim.toNat < s.bc.cursor.toNat + 4 →
      ∃ t, exec .bcCloseW s = .next t ∧ FaultRecorded s t ∧ t.bc = s.bc ∧ t.mem = s.mem)

/-- What a write session leaves in memory (spec/40_bit_channel.md R135): `(m + 31) div 32` words
from the base up hold the bits, zeros after them, and no fault occurs exactly when they fit. The open
is the pseudocode a command performs, in any mode (notes/assumptions/4.md). -/
def Obligations.WriteSessionLeavesTheBitsInMemory : Prop :=
  ∀ (s : State) (base : Word) (lim : WideAddr) (bits : List Bool),
    base.toNat % 4 = 0 → base.toNat ≤ lim.toNat → lim.toNat ≤ Config.addressSpace →
    (base.toNat + 4 * streamWords bits.length ≤ lim.toNat →
      ∃ t, ((openWrite base lim s).bind fun _ t =>
          (putBits bits t).bind fun _ u => closeWrite u) = .ok () t ∧
        t = { s with bc := t.bc, mem := t.mem } ∧
        t.bc.mode = .closed ∧ t.bc.acc = 0 ∧ t.bc.fill = 0 ∧
        t.bc.cursor.toNat = base.toNat + 4 * streamWords bits.length ∧
        (∀ w i, w < streamWords bits.length → i < 32 →
          (t.mem.wordAt (base.toNat + 4 * w)).getLsbD i = bits.getD (32 * w + i) false) ∧
        ∀ a, a < base.toNat ∨ base.toNat + 4 * streamWords bits.length ≤ a →
          t.mem.byteAt a = s.mem.byteAt a) ∧
    (lim.toNat < base.toNat + 4 * streamWords bits.length →
      ∃ t, ((openWrite base lim s).bind fun _ t =>
        (putBits bits t).bind fun _ u => closeWrite u) = .raised t)

/-! ## Unit BC, reading -/

/-- `BC.OPEN_R` of a closed channel binds it to a read region and loads its first word, or the
sentinel when the region is empty (spec/40_bit_channel.md R121); `setCursor` is the cursor over
natural numbers (spec/20_memory.md R71). -/
def Obligations.OpenReadLoadsTheFirstWord : Prop :=
  ∀ (s : State) (base : Word) (stop : WideAddr), s.bc.mode = .closed → base.toNat % 4 = 0 →
    base.toNat ≤ stop.toNat → (stop.toNat - base.toNat) % 4 = 0 →
    opCode (.bcOpenR base stop) = 0x10 ∧
    (stop.toNat = base.toNat → exec (.bcOpenR base stop) s = .next { s with
      bc := { s.bc.setCursor (base.setWidth 33) with
        mode := .read, stop := stop, acc := 0x80000000, fill := 0 } }) ∧
    (base.toNat < stop.toNat → exec (.bcOpenR base stop) s = .next { s with
      bc := { s.bc.setCursor (base.setWidth 33 + 4) with
        mode := .read, stop := stop,
        acc := s.mem.byteAt (base.toNat + 3) ++ s.mem.byteAt (base.toNat + 2) ++
          s.mem.byteAt (base.toNat + 1) ++ s.mem.byteAt base.toNat,
        fill := 0 } })

/-- `BC.RELOAD` brings the next word of the region, or past its end the sentinel, without a fault
and without moving the cursor (spec/40_bit_channel.md R131). -/
def Obligations.ReloadBringsTheNextWordOrTheSentinel : Prop :=
  opCode .bcReload = 0x18 ∧ ∀ s : State, s.bc.mode = .read → s.bc.cur.toNat % 4 = 0 →
    (s.bc.cursor.toNat + 4 ≤ s.bc.stop.toNat → s.bc.stop.toNat ≤ Config.addressSpace →
      exec .bcReload s = .next { s with
        bc := { s.bc.setCursor (s.bc.cursor + 4) with
          acc := s.mem.byteAt (s.bc.cursor.toNat + 3) ++ s.mem.byteAt (s.bc.cursor.toNat + 2) ++
            s.mem.byteAt (s.bc.cursor.toNat + 1) ++ s.mem.byteAt s.bc.cursor.toNat
          fill := 0 } }) ∧
    (s.bc.stop.toNat < s.bc.cursor.toNat + 4 →
      exec .bcReload s = .next { s with bc := { s.bc with acc := 0x80000000, fill := 0 } })

/-- `BC.RDFIX` consumes `n` bits and returns them, first bit least significant, reloading as
needed (spec/40_bit_channel.md R129). -/
def Obligations.RdfixReturnsTheNextBits : Prop :=
  ∀ (s : State) (n : BitVec 6), ReadReady s → n.toNat ≤ 32 →
    opCode (.bcRdfix n) = 0x16 ∧ bitsValue (upcomingBits s 0 n.toNat) < 2 ^ n.toNat ∧
    exec (.bcRdfix n) s = .next { s with
      bc := consumedBc s n.toNat, result := bitsValue (upcomingBits s 0 n.toNat) }

/-- `BC.RDUNARY` always completes: it counts the zeros up to the first 1 bit and consumes that bit
(spec/40_bit_channel.md R130). -/
def Obligations.RdunaryCountsTheZeros : Prop :=
  opCode .bcRdunary = 0x17 ∧ ∀ s : State, ReadReady s →
    ∃ q, (∀ j, j < q → upcomingBit s j = false) ∧ upcomingBit s q = true ∧
      q ≤ 32 * ((s.bc.stop.toNat - s.bc.cursor.toNat) / 4) + (32 - s.bc.fill.toNat) + 31 ∧
      exec .bcRdunary s = .next { s with bc := consumedBc s (q + 1), result := q }

/-- `BC.CLOSE_R` changes the mode and nothing else (spec/40_bit_channel.md R133). -/
def Obligations.CloseReadOnlyCloses : Prop :=
  opCode .bcCloseR = 0x19 ∧ ∀ s : State, s.bc.mode = .read →
    exec .bcCloseR s = .next { s with bc := { s.bc with mode := .closed } }

/-- What a read session sees (spec/40_bit_channel.md R136): the bits of the region, then the
sentinel's without end; after `n` bits the cursor is past the words loaded. The open is the
pseudocode a command performs, in any mode (notes/assumptions/4.md). -/
def Obligations.ReadSessionSeesTheRegionThenTheSentinel : Prop :=
  ∀ (s : State) (base : Word) (stop : WideAddr) (n : Nat),
    base.toNat % 4 = 0 → base.toNat ≤ stop.toNat → (stop.toNat - base.toNat) % 4 = 0 →
    stop.toNat ≤ Config.addressSpace →
    ∃ t, ((openRead base stop s).bind fun _ t => getField n t) =
        .ok (bitsValue ((List.range n).map (sessionBit s.mem base.toNat stop.toNat))) t ∧
      t = { s with bc := t.bc } ∧ t.bc.mode = .read ∧ t.bc.stop = stop ∧
      t.bc.fill.toNat = n % 32 ∧
      t.bc.cursor.toNat = base.toNat + 4 * min ((stop.toNat - base.toNat) / 4) (n / 32 + 1)

/-! ## Units GRE and GRD -/

/-- `GRE.ENCODE` appends the code word: quotient zeros, a 1, the `k` remainder bits least
significant first; what was placed before a refused flush stays, the rest is not produced
(spec/42_golomb_rice.md R171, spec/30_encoding.md R91); the cursors recorded with no session running
are DEDUCED (notes/assumptions/13.md). -/
def Obligations.EncodeAppendsTheCodeWord : Prop :=
  ∀ (s : State) (k : BitVec 5) (value : Word) (bits : List Bool), WriteReady s →
    bits = List.replicate (value.toNat / 2 ^ k.toNat) false ++
      true :: (List.range k.toNat).map (fun j => value.getLsbD j) →
    opCode (.greEncode k value) = 0x20 ∧ bits.length = value.toNat / 2 ^ k.toNat + 1 + k.toNat ∧
    (HasRoom s bits.length →
      ∃ t, exec (.greEncode k value) s = .next t ∧ Appended bits s t) ∧
    (¬HasRoom s bits.length →
      ∃ t, exec (.greEncode k value) s = .next t ∧ RanOutOfRoom bits s t)

/-- `GRD.DECODE` consumes one code word and returns `q * 2^k + r`, not reduced; it always
completes (spec/42_golomb_rice.md R175, R176). -/
def Obligations.DecodeConsumesOneCodeWord : Prop :=
  ∀ (s : State) (k : BitVec 5), ReadReady s →
    opCode (.grdDecode k) = 0x30 ∧ ∃ q, (∀ j, j < q → upcomingBit s j = false) ∧ upcomingBit s q = true ∧
      exec (.grdDecode k) s = .next { s with
        bc := consumedBc s (q + 1 + k.toNat)
        result := q * 2 ^ k.toNat + bitsValue (upcomingBits s (q + 1) k.toNat) }

/-- A value encoded under `k` anywhere in a write session is decoded under `k` at the same place
of a read session over what was stored, which is left at the first bit after the code word
(spec/42_golomb_rice.md R177). The opens are the pseudocode a command performs, in any mode
(notes/assumptions/4.md). -/
def Obligations.GolombRiceRoundTrip : Prop :=
  ∀ (s : State) (base : Word) (lim stop : WideAddr) (before after : List Bool) (k : BitVec 5)
    (value : Word) (t1 t2 t3 t4 t5 : State),
    lim.toNat ≤ Config.addressSpace → stop.toNat ≤ Config.addressSpace → stop.toNat % 4 = 0 →
    openWrite base lim s = .ok () t1 → putBits before t1 = .ok () t2 →
    greEncode k value.toNat t2 = .ok () t3 → putBits after t3 = .ok () t4 →
    closeWrite t4 = .ok () t5 → t5.bc.cursor.toNat ≤ stop.toNat →
    ∃ (u1 u2 u3 : State) (v : Nat),
      openRead base stop t5 = .ok () u1 ∧ getField before.length u1 = .ok v u2 ∧
      grdDecode k u2 = .ok value.toNat u3 ∧
      u3.bc.fill.toNat =
        (before.length + value.toNat / 2 ^ k.toNat + 1 + k.toNat) % 32 ∧
      u3.bc.cursor.toNat = base.toNat + 4 * min ((stop.toNat - base.toNat) / 4)
        ((before.length + value.toNat / 2 ^ k.toNat + 1 + k.toNat) / 32 + 1)

/-- Decoding `j` bits into a sentinel word with the region exhausted gives `(31 - j) * 2^k`
(spec/42_golomb_rice.md R178). -/
def Obligations.DecodeInThePaddingGivesTheZerosLeft : Prop :=
  ∀ (s : State) (k : BitVec 5), s.bc.mode = .read → s.bc.fill.toNat ≤ 31 →
    s.bc.stop.toNat < s.bc.cursor.toNat + 4 → s.bc.acc = 0x80000000 >>> s.bc.fill.toNat →
    exec (.grdDecode k) s = .next { s with
      bc := { s.bc with acc := 0x80000000 >>> k.toNat, fill := k.setWidth 6 }
      result := (31 - s.bc.fill.toNat) * 2 ^ k.toNat }

/-! ## Unit RM -/

/-- `RM.INIT` gives every context the identity permutation and zero counts, whatever the tables
held, and changes nothing else (spec/41_rank_model.md R151). -/
def Obligations.RmInitGivesTheIdentity : Prop :=
  opCode .rmInit = 0x40 ∧ ∀ s : State, ∃ t, exec .rmInit s = .next t ∧ t = { s with rm := t.rm } ∧
    ∀ x i : Byte, t.rm.freqAt x i = 0 ∧ t.rm.symAt x i = i ∧ t.rm.rankOf x i = i

/-- `RM.RANK_OF` and `RM.SYMBOL_AT` are look-ups without any state change but the result
(spec/41_rank_model.md R152, R153; the result latch is the model's, notes/assumptions/11.md). -/
def Obligations.RankLookupsReadTheTables : Prop :=
  ∀ (s : State) (x y : Byte),
    opCode (.rmRankOf x y) = 0x41 ∧ opCode (.rmSymbolAt x y) = 0x42 ∧
    exec (.rmRankOf x y) s = .next { s with result := (s.rm.rankOf x y).toNat } ∧
    exec (.rmSymbolAt x y) s = .next { s with result := (s.rm.symAt x y).toNat }

/-- `RM.OBSERVE` counts one occurrence and exchanges the symbol with the one right after the stop
point, the nearest rank above whose frequency is at least the incremented one; whatever the tables
hold (spec/41_rank_model.md R154). `q` is the rank after the stop point. -/
def Obligations.ObserveExchangesWithTheSymbolAfterTheStopPoint : Prop :=
  ∀ (s : State) (x sym : Byte), (s.rm.freqAt x sym).toNat < 4294967295 →
    opCode (.rmObserve x sym) = 0x43 ∧
    ∃ (t : State) (q : Byte), exec (.rmObserve x sym) s = .next t ∧ t = { s with rm := t.rm } ∧
      (∀ y u, t.rm.freqAt y u =
        if y = x ∧ u = sym then s.rm.freqAt x sym + 1 else s.rm.freqAt y u) ∧
      q.toNat ≤ (s.rm.rankOf x sym).toNat ∧
      (∀ j : Byte, q.toNat ≤ j.toNat → j.toNat < (s.rm.rankOf x sym).toNat →
        (t.rm.freqAt x (s.rm.symAt x j)).toNat < (t.rm.freqAt x sym).toNat) ∧
      (∀ p : Byte, p.toNat + 1 = q.toNat →
        (t.rm.freqAt x sym).toNat ≤ (t.rm.freqAt x (s.rm.symAt x p)).toNat) ∧
      (s.rm.symAt x q = sym → ∀ y j, t.rm.symAt y j = s.rm.symAt y j ∧
        t.rm.rankOf y j = s.rm.rankOf y j) ∧
      (s.rm.symAt x q ≠ sym → ∀ y j,
        t.rm.symAt y j =
          (if y = x ∧ j = s.rm.rankOf x sym then s.rm.symAt x q
            else if y = x ∧ j = q then sym else s.rm.symAt y j) ∧
        t.rm.rankOf y j =
          (if y = x ∧ j = s.rm.symAt x q then s.rm.rankOf x sym
            else if y = x ∧ j = sym then q else s.rm.rankOf y j))

/-- The new rank in closed form (spec/41_rank_model.md R156): the number of other symbols at least
as frequent; the symbol that held it takes the old rank; nothing else moves, in this context or
another, and one frequency grows by one. -/
def Obligations.ObserveMovesTheSymbolToItsClosedFormRank : Prop :=
  ∀ (s : State) (x sym : Byte), RankModelOk s.rm → (s.rm.freqAt x sym).toNat < 4294967295 →
    ∃ t, exec (.rmObserve x sym) s = .next t ∧ t = { s with rm := t.rm } ∧
      (t.rm.rankOf x sym).toNat =
        ((List.range 256).filter fun u =>
          decide (BitVec.ofNat 8 u ≠ sym) &&
            decide ((s.rm.freqAt x sym).toNat + 1 ≤
              (s.rm.freqAt x (BitVec.ofNat 8 u)).toNat)).length ∧
      (∀ u, u = s.rm.symAt x (t.rm.rankOf x sym) → u ≠ sym →
        t.rm.rankOf x u = s.rm.rankOf x sym) ∧
      (∀ u, u ≠ sym → u ≠ s.rm.symAt x (t.rm.rankOf x sym) →
        t.rm.rankOf x u = s.rm.rankOf x u) ∧
      (t.rm.freqAt x sym).toNat = (s.rm.freqAt x sym).toNat + 1 ∧
      (∀ u, u ≠ sym → t.rm.freqAt x u = s.rm.freqAt x u) ∧
      ∀ y u, y ≠ x → t.rm.freqAt y u = s.rm.freqAt y u ∧ t.rm.symAt y u = s.rm.symAt y u ∧
        t.rm.rankOf y u = s.rm.rankOf y u

/-- `RM.OBSERVE` keeps both invariants of the tables, exactly (spec/41_rank_model.md R157). -/
def Obligations.ObserveKeepsTheRankModel : Prop :=
  ∀ (s t : State) (x sym : Byte), RankModelOk s.rm → exec (.rmObserve x sym) s = .next t →
    RankModelOk t.rm

/-! ## Unit EST -/

/-- `EST.INIT` sets `k = 3`, `sum = 0`, `count = 0` and changes nothing else
(spec/43_estimator.md R185). -/
def Obligations.EstInitSetsTheStartingValues : Prop :=
  opCode .estInit = 0x50 ∧ ∀ s : State, exec .estInit s = .next { s with est := { sum := 0, count := 0, k := 3 } }

/-- `EST.UPDATE` accumulates; at the 256th value it recomputes `k` by the closed form and clears
sum and count, and at no other (spec/43_estimator.md R186, R187). -/
def Obligations.EstUpdateAccumulatesAndRecomputes : Prop :=
  ∀ (s : State) (d : BitVec 9), EstimatorOk s.est → d.toNat ≤ 255 →
    opCode (.estUpdate d) = 0x51 ∧
    ∃ t, exec (.estUpdate d) s = .next t ∧ t = { s with est := t.est } ∧
      (s.est.count.toNat < 255 →
        t.est.k = s.est.k ∧ t.est.sum.toNat = s.est.sum.toNat + d.toNat ∧
        t.est.count.toNat = s.est.count.toNat + 1) ∧
      (s.est.count.toNat = 255 →
        t.est.k.toNat = closedFormK (s.est.sum.toNat + d.toNat) ∧
        t.est.sum = 0 ∧ t.est.count = 0)

/-! ## What has no meaning -/

/-- What these rules give no meaning to is refused by name: an operation outside its mode, an open
while open, operands outside their range, a count that cannot grow, a register access outside the interface
contract (spec/93_implementation_defined.md U13, V9, V12, V13, V14; spec/00_scope.md R12,
spec/40_bit_channel.md R120, R121, R122, R124, R129, spec/41_rank_model.md R158,
spec/42_golomb_rice.md R170, R171, R175, spec/43_estimator.md R186). The names are the model's
(notes/assumptions/15.md, 16.md, 17.md, 20.md), and so is that `GRE.ENCODE` and `GRD.DECODE` check
the mode before anything else (notes/assumptions/26.md). -/
def Obligations.WhatHasNoMeaningIsRefused : Prop :=
  ∀ s : State,
    (s.bc.mode ≠ .write →
      exec .bcPut1 s = .refused (.wrongMode s.bc.mode) ∧
      (∀ v n, exec (.bcWrfix v n) s = .refused (.wrongMode s.bc.mode)) ∧
      (∀ n, exec (.bcWrzero n) s = .refused (.wrongMode s.bc.mode)) ∧
      exec .bcFlush s = .refused (.wrongMode s.bc.mode) ∧
      exec .bcCloseW s = .refused (.wrongMode s.bc.mode) ∧
      ∀ k v, exec (.greEncode k v) s = .refused (.wrongMode s.bc.mode)) ∧
    (s.bc.mode ≠ .read →
      (∀ n, exec (.bcRdfix n) s = .refused (.wrongMode s.bc.mode)) ∧
      exec .bcRdunary s = .refused (.wrongMode s.bc.mode) ∧
      exec .bcReload s = .refused (.wrongMode s.bc.mode) ∧
      exec .bcCloseR s = .refused (.wrongMode s.bc.mode) ∧
      ∀ k, exec (.grdDecode k) s = .refused (.wrongMode s.bc.mode)) ∧
    (s.bc.mode ≠ .closed →
      (∀ base stop, exec (.bcOpenR base stop) s = .refused (.wrongMode s.bc.mode)) ∧
      ∀ base lim, exec (.bcOpenW base lim) s = .refused (.wrongMode s.bc.mode)) ∧
    (∀ (base : Word) (stop : WideAddr), s.bc.mode = .closed →
      base.toNat % 4 ≠ 0 ∨ stop.toNat < base.toNat ∨ (stop.toNat - base.toNat) % 4 ≠ 0 →
      exec (.bcOpenR base stop) s = .refused .badRegion) ∧
    (∀ (base : Word) (lim : WideAddr), s.bc.mode = .closed →
      base.toNat % 4 ≠ 0 ∨ lim.toNat < base.toNat →
      exec (.bcOpenW base lim) s = .refused .badRegion) ∧
    (∀ (v : Word) (n : BitVec 6), s.bc.mode = .write → 32 < n.toNat →
      exec (.bcWrfix v n) s = .refused (.fieldTooLong n.toNat)) ∧
    (∀ n : BitVec 6, s.bc.mode = .read → 32 < n.toNat →
      exec (.bcRdfix n) s = .refused (.fieldTooLong n.toNat)) ∧
    (∀ x sym : Byte, s.rm.freqAt x sym = 0xFFFFFFFF →
      exec (.rmObserve x sym) s = .refused (.frequencyOverflow x sym)) ∧
    (∀ d : BitVec 9, 255 < d.toNat →
      exec (.estUpdate d) s = .refused (.rankValueTooLarge d.toNat)) ∧
    ∀ (off : Nat) (v : Word) (rest : List HostAction), s.bus = none → off % 4 ≠ 0 ∨ 0xFC < off →
      s.host = .wr off v :: rest ∨ s.host = .rd off :: rest →
      step s = .refused (.registerAccess off)

/-! ## The host commands -/

/-- INIT gives the freshly initialised model, sets `pl.ctx` and `pl.model_init`, and leaves unit
BC, the host registers and memory alone (spec/44_pipeline.md R197, spec/10_state.md R56). -/
def Obligations.InitGivesAFreshModel : Prop :=
  encode .init = .cmd 0x00000001 ∧ opCode .init = 0x01 ∧
  ∀ s : State, s.pl.state ≠ .running → ∃ t, exec .init s = .next t ∧
    t = { s with
      rm := t.rm, est := { sum := 0, count := 0, k := 3 }
      pl := { s.pl with state := .done, op := .init, ctx := 0, err := 0, modelInit := true }
      prog := .notStarted } ∧
    ∀ x i : Byte, t.rm.freqAt x i = 0 ∧ t.rm.symAt x i = i ∧ t.rm.rankOf x i = i

/-- COMPRESS with room for its stream stores exactly the stream of spec/30_encoding.md R94, zero
padded, learns every symbol, and reports both ends (spec/44_pipeline.md R198, R201). -/
def Obligations.CompressWritesTheSessionStream : Prop :=
  ∀ (s : State) (bits : List Bool), s.pl.state ≠ .running → SessionAccepted s →
    s.regs.outBase.toNat % 4 = 0 →
    CountsHaveRoom s.rm s.regs.inLen.toNat → bits = sessionBits s.rm s.est 0 (inputSymbols s) →
    4 * streamWords bits.length ≤ s.regs.outCap.toNat →
    ∃ t, exec .compress s = .next t ∧
      t = { s with
        bc := { s.bc with
          mode := .closed, cur := t.bc.cur, carry := t.bc.carry, lim := t.bc.lim, acc := 0, fill := 0 }
        rm := rmAfter s.rm 0 (inputSymbols s), est := estAfter s.rm s.est 0 (inputSymbols s)
        pl := { s.pl with
          state := .done, op := .compress, err := 0, ctx := contextAfter (inputSymbols s)
          icur := t.pl.icur }
        regs := { s.regs with
          outEnd := t.bc.cur, inCur := t.pl.icur.setWidth 32 }
        mem := t.mem, prog := .looping } ∧
      t.bc.cursor.toNat = s.regs.outBase.toNat + 4 * streamWords bits.length ∧
      t.bc.lim.toNat = s.regs.outBase.toNat + s.regs.outCap.toNat ∧
      t.pl.icur.toNat = s.regs.inBase.toNat + s.regs.inLen.toNat ∧
      (∀ w i, w < streamWords bits.length → i < 32 →
        (t.mem.wordAt (s.regs.outBase.toNat + 4 * w)).getLsbD i = bits.getD (32 * w + i) false) ∧
      ∀ a, a < s.regs.outBase.toNat ∨
          s.regs.outBase.toNat + 4 * streamWords bits.length ≤ a →
        t.mem.byteAt a = s.mem.byteAt a

/-- COMPRESS without room for its stream stops with `ERR_BUFFER_TOO_SMALL`, the refused write's
address in `OUT_END`: the words there is room for are in memory, the next one stays in the
accumulator, and the `n` symbols whose code words went in whole are learned, the one at fault is not,
though its byte was read (spec/44_pipeline.md R198, R201, spec/60_exceptions.md R219, R222). -/
def Obligations.CompressWithoutRoomFaults : Prop :=
  ∀ (s : State) (bits : List Bool) (words : Nat), s.pl.state ≠ .running → SessionAccepted s →
    s.regs.outBase.toNat % 4 = 0 → CountsHaveRoom s.rm s.regs.inLen.toNat →
    bits = sessionBits s.rm s.est 0 (inputSymbols s) → words = s.regs.outCap.toNat / 4 →
    s.regs.outCap.toNat < 4 * streamWords bits.length →
    ∃ (t : State) (n : Nat), exec .compress s = .next t ∧
      n ≤ s.regs.inLen.toNat ∧
      (symbolsBits s.rm s.est 0 ((inputSymbols s).take n)).length < 32 * (words + 1) ∧
      (n < s.regs.inLen.toNat →
        32 * (words + 1) ≤
          (symbolsBits s.rm s.est 0 ((inputSymbols s).take (n + 1))).length) ∧
      t = { s with
        bc := { s.bc with
          mode := .write, cur := t.bc.cur, carry := t.bc.carry, lim := t.bc.lim, acc := t.bc.acc, fill := t.bc.fill }
        rm := rmAfter s.rm 0 ((inputSymbols s).take n)
        est := estAfter s.rm s.est 0 ((inputSymbols s).take n)
        pl := { s.pl with
          state := .faulted, op := .compress, err := 4, icur := t.pl.icur
          ctx := contextAfter ((inputSymbols s).take n) }
        regs := { s.regs with
          outEnd := t.bc.cur, inCur := t.pl.icur.setWidth 32 }
        mem := t.mem, prog := .looping } ∧
      t.bc.cursor.toNat = s.regs.outBase.toNat + 4 * words ∧
      t.bc.lim.toNat = s.regs.outBase.toNat + s.regs.outCap.toNat ∧
      t.bc.fill.toNat = min 32 (bits.length - 32 * words) ∧
      t.bc.acc.toNat = bitsValue ((bits.drop (32 * words)).take 32) ∧
      t.pl.icur.toNat = s.regs.inBase.toNat + min (n + 1) s.regs.inLen.toNat ∧
      (∀ w i, w < words → i < 32 →
        (t.mem.wordAt (s.regs.outBase.toNat + 4 * w)).getLsbD i = bits.getD (32 * w + i) false) ∧
      ∀ a, a < s.regs.outBase.toNat ∨ s.regs.outBase.toNat + 4 * words ≤ a →
        t.mem.byteAt a = s.mem.byteAt a

/-- With `OUT_CAP >= 32 * IN_LEN + 36` COMPRESS never faults (spec/70_reset_and_hazards.md R251,
spec/44_pipeline.md R201). -/
def Obligations.CompressWithTheSafeCapacityCompletes : Prop :=
  ∀ s : State, s.pl.state ≠ .running → SessionAccepted s → s.regs.outBase.toNat % 4 = 0 →
    CountsHaveRoom s.rm s.regs.inLen.toNat →
    32 * s.regs.inLen.toNat + 36 ≤ s.regs.outCap.toNat →
    ∃ t, exec .compress s = .next t ∧ t.pl.state = .done ∧ t.pl.err = 0

/-- DECOMPRESS of a stream that encodes `symbols` from the model it finds stores exactly those
bytes, learns them, and stops at the marker (spec/44_pipeline.md R199). -/
def Obligations.DecompressStoresTheSymbolsOfAStream : Prop :=
  ∀ (s : State) (symbols : List Byte) (bits : List Bool), s.pl.state ≠ .running →
    SessionAccepted s → s.regs.inBase.toNat % 4 = 0 → MutualInverses s.rm →
    CountsHaveRoom s.rm symbols.length → symbols.length ≤ s.regs.outCap.toNat →
    bits = sessionBits s.rm s.est 0 symbols →
    (∀ j, j < bits.length →
      sessionBit s.mem s.regs.inBase.toNat
        (s.regs.inBase.toNat + 4 * (s.regs.inLen.toNat / 4)) j = bits.getD j false) →
    ∃ t, exec .decompress s = .next t ∧
      t = { s with
        bc := { s.bc with
          mode := .closed, cur := t.bc.cur, carry := t.bc.carry, stop := t.bc.stop, acc := t.bc.acc,
          fill := t.bc.fill }
        rm := rmAfter s.rm 0 symbols, est := estAfter s.rm s.est 0 symbols
        pl := { s.pl with
          state := .done, op := .decompress, err := 0, ctx := contextAfter symbols,
          ocur := t.pl.ocur }
        regs := { s.regs with
          outEnd := t.pl.ocur.setWidth 32, inCur := t.bc.cur }
        mem := t.mem, prog := .looping } ∧
      t.pl.ocur.toNat = s.regs.outBase.toNat + symbols.length ∧
      t.bc.stop.toNat = s.regs.inBase.toNat + 4 * (s.regs.inLen.toNat / 4) ∧
      t.bc.cursor.toNat =
        s.regs.inBase.toNat + 4 * min (s.regs.inLen.toNat / 4) (bits.length / 32 + 1) ∧
      t.bc.fill.toNat = bits.length % 32 ∧
      (∀ j, j < symbols.length →
        t.mem.byteAt (s.regs.outBase.toNat + j) = symbols.getD j 0) ∧
      ∀ a, a < s.regs.outBase.toNat ∨ s.regs.outBase.toNat + symbols.length ≤ a →
        t.mem.byteAt a = s.mem.byteAt a

/-- DECOMPRESS ends on any input, malformed ones among them: in `Done`, or with
`ERR_BUFFER_TOO_SMALL` when the output outruns its region. Either way the symbols decoded before the
end are stored and learned, the value that ends the session is neither, though its code word is
consumed, and both cursors are recorded (spec/44_pipeline.md R199, R203, spec/60_exceptions.md R219,
R220, R222). -/
def Obligations.DecompressEndsOnEveryInput : Prop :=
  ∀ s : State, s.pl.state ≠ .running → SessionAccepted s → s.regs.inBase.toNat % 4 = 0 →
    CountsHaveRoom s.rm s.regs.outCap.toNat →
    ∃ (t : State) (symbols : List Byte), exec .decompress s = .next t ∧
      t = { s with
        bc := { s.bc with
          mode := t.bc.mode, cur := t.bc.cur, carry := t.bc.carry, stop := t.bc.stop, acc := t.bc.acc,
          fill := t.bc.fill }
        rm := rmAfter s.rm 0 symbols, est := t.est
        pl := { s.pl with
          state := t.pl.state, op := .decompress, err := t.pl.err, ctx := contextAfter symbols
          ocur := t.pl.ocur }
        regs := { s.regs with
          outEnd := t.pl.ocur.setWidth 32, inCur := t.bc.cur }
        mem := t.mem, prog := .looping } ∧
      ((t.pl.state = .done ∧ t.pl.err = 0 ∧ t.bc.mode = .closed ∧
          symbols.length ≤ s.regs.outCap.toNat) ∨
        (t.pl.state = .faulted ∧ t.pl.err = 4 ∧ t.bc.mode = .read ∧
          symbols.length = s.regs.outCap.toNat)) ∧
      t.bc.stop.toNat = s.regs.inBase.toNat + 4 * (s.regs.inLen.toNat / 4) ∧
      t.pl.ocur.toNat = s.regs.outBase.toNat + symbols.length ∧
      (∀ j, j < symbols.length →
        t.mem.byteAt (s.regs.outBase.toNat + j) = symbols.getD j 0) ∧
      (∀ a, a < s.regs.outBase.toNat ∨ s.regs.outBase.toNat + symbols.length ≤ a →
        t.mem.byteAt a = s.mem.byteAt a) ∧
      (MutualInverses s.rm → t.est = estAfter s.rm s.est 0 symbols ∧
        ∃ (last : Nat) (read : List Bool),
          (last < 256 ↔ t.pl.state = .faulted) ∧
          read = symbolsBits s.rm s.est 0 symbols ++ codeWord t.est.k last ∧
          (∀ j, j < read.length →
            sessionBit s.mem s.regs.inBase.toNat t.bc.stop.toNat j = read.getD j false) ∧
          t.bc.cursor.toNat =
            s.regs.inBase.toNat + 4 * min (s.regs.inLen.toNat / 4) (read.length / 32 + 1) ∧
          t.bc.fill.toNat = read.length % 32)

/-- Round trip (spec/44_pipeline.md R200): a freshly initialised DECOMPRESS over the bytes a freshly
initialised COMPRESS stored, whatever the rest of memory holds, writes exactly its input. -/
def Obligations.DecompressAfterCompressRestoresTheInput : Prop :=
  ∀ s1 t1 s2 : State, FreshModel s1 → exec .compress s1 = .next t1 → t1.pl.state = .done →
    s1.pl.state ≠ .running → FreshModel s2 → s2.pl.state ≠ .running →
    (∀ a, s1.regs.outBase.toNat ≤ a → a < t1.bc.cursor.toNat →
      s2.mem.byteAt a = t1.mem.byteAt a) →
    SessionAccepted s2 → s2.regs.inBase = s1.regs.outBase →
    t1.bc.cursor.toNat ≤ s2.regs.inBase.toNat + s2.regs.inLen.toNat →
    s1.regs.inLen.toNat ≤ s2.regs.outCap.toNat →
    ∃ t2, exec .decompress s2 = .next t2 ∧ t2.pl.state = .done ∧ t2.pl.err = 0 ∧
      t2.pl.ocur.toNat = s2.regs.outBase.toNat + s1.regs.inLen.toNat ∧
      t2.regs.outEnd = t2.pl.ocur.setWidth 32 ∧
      (∀ j, j < s1.regs.inLen.toNat →
        t2.mem.byteAt (s2.regs.outBase.toNat + j) = s1.mem.byteAt (s1.regs.inBase.toNat + j)) ∧
      ∀ a, a < s2.regs.outBase.toNat ∨ s2.regs.outBase.toNat + s1.regs.inLen.toNat ≤ a →
        t2.mem.byteAt a = s2.mem.byteAt a

/-- No session writes a byte outside its output region, however it ends (spec/10_state.md R46,
spec/20_memory.md R70). -/
def Obligations.SessionWritesOnlyItsOutputRegion : Prop :=
  ∀ (s t : State) (a : Nat),
    a < s.regs.outBase.toNat ∨ s.regs.outBase.toNat + s.regs.outCap.toNat ≤ a →
    exec .compress s = .next t ∨ exec .decompress s = .next t →
    t.mem.byteAt a = s.mem.byteAt a

/-- A session's result is a function of the state and of its input region: other bytes of memory
do not matter, neither to a field of the state nor to a byte it stores, however it ends
(spec/70_reset_and_hazards.md R259, spec/20_memory.md R70). -/
def Obligations.SessionDependsOnItsInputRegionOnly : Prop :=
  ∀ (s t : State) (m : Memory),
    (∀ a, s.regs.inBase.toNat ≤ a → a < s.regs.inBase.toNat + s.regs.inLen.toNat →
      m.byteAt a = s.mem.byteAt a) →
    (exec .compress s = .next t →
      ∃ u, exec .compress { s with mem := m } = .next u ∧ u = { t with mem := u.mem } ∧
        (s.pl.state ≠ .running → SessionAccepted s → s.regs.outBase.toNat % 4 = 0 →
          ∀ a, s.regs.outBase.toNat ≤ a → a < t.bc.cursor.toNat →
            u.mem.byteAt a = t.mem.byteAt a)) ∧
    (exec .decompress s = .next t →
      ∃ u, exec .decompress { s with mem := m } = .next u ∧ u = { t with mem := u.mem } ∧
        (s.pl.state ≠ .running → SessionAccepted s → s.regs.inBase.toNat % 4 = 0 →
          ∀ a, s.regs.outBase.toNat ≤ a → a < t.pl.ocur.toNat →
            u.mem.byteAt a = t.mem.byteAt a))

/-- An accepted command never leaves the block busy (spec/44_pipeline.md R202, R203,
spec/70_reset_and_hazards.md R257). -/
def Obligations.CommandsEndInDoneOrFaulted : Prop :=
  ∀ s t : State, s.pl.state ≠ .running →
    exec .init s = .next t ∨ exec .compress s = .next t ∨ exec .decompress s = .next t →
    t.pl.state = .done ∨ t.pl.state = .faulted

/-- The command as many small steps reaches the state of the command as one big step
(spec/00_scope.md R13): a `CMD` write followed by `WAIT`, step by step, against `exec`. The size of a
step, the one-step form and the steps of `WAIT` are the model's (notes/assumptions/9.md, 10.md,
12.md). -/
def Obligations.SmallStepsReachTheBigStep : Prop :=
  ∀ (s t : State) (w : Word) (i : Instr) (rest : List HostAction),
    s.bus = none → s.pl.state ≠ .running → s.host = .wr 0x00 w :: .wait :: rest →
    decode (.cmd w) = .ok i → exec i { s with host := rest } = .next t →
    ∃ n, Host.Core.run Sys2Proof.core n s = .next { t with rdata := statusWord t }

/-! ## Invariants that every step keeps -/

/-- Memory and the tables keep their one canonical form (spec/20_memory.md R61; the form is the
model's). -/
def Obligations.StepKeepsTheCanonicalForm : Prop :=
  ∀ s t : State, CanonicalForm s → step s = .next t → CanonicalForm t

/-- The channel's invariant is kept (spec/10_state.md R22, R25, R27; that the cursor goes no further
than one past the top of the address space, spec/20_memory.md R71; that `bc.fill = 32` may
outlive the state `Faulted` is DEDUCED, notes/assumptions/25.md). -/
def Obligations.StepKeepsTheChannelInvariant : Prop :=
  ∀ s t : State, ChannelOk s.bc → step s = .next t → ChannelOk t.bc

/-- The estimator's invariant is kept (spec/10_state.md R33, spec/43_estimator.md R188). -/
def Obligations.StepKeepsTheEstimatorInvariant : Prop :=
  ∀ s t : State, EstimatorOk s.est → step s = .next t → EstimatorOk t.est

/-- The invariants of the rank model are kept from the end of `RM.INIT` on (spec/10_state.md R31,
spec/41_rank_model.md R157). -/
def Obligations.StepKeepsTheRankModel : Prop :=
  ∀ s t : State, ModelOk s → step s = .next t → ModelOk t

/-- `ERR` stays non-zero exactly in `Faulted`, its code one of spec/60_exceptions.md R215
(spec/10_state.md R42). -/
def Obligations.StepKeepsTheStatusConsistent : Prop :=
  ∀ s t : State, StatusOk s.pl → step s = .next t → StatusOk t.pl

/-- The five invariants hold after hardware reset. -/
def Obligations.ResetMeetsTheInvariants : Prop :=
  CanonicalForm State.reset ∧ ChannelOk State.reset.bc ∧ EstimatorOk State.reset.est ∧
    ModelOk State.reset ∧ StatusOk State.reset.pl

/-- Only hardware reset clears `pl.model_init` (spec/10_state.md R39). -/
def Obligations.OnlyHardwareResetClearsModelInit : Prop :=
  ∀ s t : State, s.pl.modelInit = true → step s = .next t → t.pl.modelInit = false →
    s.bus = none ∧ ∃ rest, s.host = .rst :: rest

/-- The configuration registers hold the same values for the whole command (spec/20_memory.md
R79): while it runs, no step but a hardware reset changes one. -/
def Obligations.ConfigurationHoldsWhileRunning : Prop :=
  ∀ s t : State, s.pl.state = .running → step s = .next t →
    (∃ rest, s.host = .rst :: rest) ∨
    (t.regs.inBase = s.regs.inBase ∧ t.regs.inLen = s.regs.inLen ∧
      t.regs.outBase = s.regs.outBase ∧ t.regs.outCap = s.regs.outCap)

/-- `est.k` changes only at a boundary of 256 values, in `EST.INIT` (INIT performs it) or in a hardware
reset (spec/10_state.md R33): so with one engine step of a session, with `EST.UPDATE`, and with every
step of the machine. A session performed in one step changes it only if it can reach the boundary
with the symbols it can have; no other operation or host action changes it. -/
def Obligations.KChangesOnlyAtABoundary : Prop :=
  (∀ s t : State, s.pl.op = .compress ∨ s.pl.op = .decompress →
    engineStep s = .next t → t.est.k ≠ s.est.k →
    s.est.count.toNat = 255 ∧ t.est.count = 0 ∧ t.est.sum = 0) ∧
  (∀ (s t : State) (d : BitVec 9), exec (.estUpdate d) s = .next t → t.est.k ≠ s.est.k →
    s.est.count.toNat = 255 ∧ t.est.count = 0 ∧ t.est.sum = 0) ∧
  ∀ s t : State, EstimatorOk s.est → step s = .next t → t.est.k ≠ s.est.k →
    (s.bus = none ∧ ∃ rest, s.host = .rst :: rest) ∨
    (s.bus = none ∧ s.pl.state = .running ∧
      (s.host = [] ∨ ∃ rest, s.host = .idle :: rest ∨ s.host = .wait :: rest) ∧
      (s.pl.op = .init ∨ s.est.count.toNat = 255)) ∨
    ∃ (p : Packet) (u : State) (i : Instr), fetch s = some (p, u) ∧ decode p = .ok i ∧
      (i = .init ∨ i = .estInit ∨
        (i = .compress ∧ 256 ≤ s.est.count.toNat + s.regs.inLen.toNat) ∨
        (i = .decompress ∧ 256 ≤ s.est.count.toNat + s.regs.outCap.toNat) ∨
        ∃ d, i = .estUpdate d ∧ s.est.count.toNat = 255)
end

