-- ==== Sys2Proof/Laws/Cells.lean ====
section
/-! SUPPORT. The laws of lists of cells in canonical form: reading after a write, and that a
write keeps the form. -/

namespace Sys2Proof.Machine

section
variable {α : Type}

@[simp] theorem lookupCell_nil (key : Nat) (dflt : α) : lookupCell key dflt [] = dflt := rfl

theorem lookupCell_insertCell_same (key : Nat) (v dflt : α) (l : List (Nat × α)) :
    lookupCell key dflt (insertCell key v l) = v := by
  induction l with
  | nil => simp [insertCell, lookupCell]
  | cons c rest ih =>
    unfold insertCell
    split
    · simp [lookupCell]
    · split
      · simp [lookupCell]
      · next h => rw [lookupCell, if_neg (fun h' => h h'.symm), ih]

theorem lookupCell_insertCell_other {key key' : Nat} (v dflt : α) (l : List (Nat × α))
    (h : key' ≠ key) : lookupCell key' dflt (insertCell key v l) = lookupCell key' dflt l := by
  induction l with
  | nil => simp [insertCell, lookupCell, Ne.symm h]
  | cons c rest ih =>
    unfold insertCell
    split
    · simp [lookupCell, Ne.symm h]
    · split
      · next h2 => simp [lookupCell, ← h2, Ne.symm h]
      · simp only [lookupCell, ih]

theorem lookupCell_eraseCell_same (key : Nat) (dflt : α) (l : List (Nat × α)) :
    lookupCell key dflt (eraseCell key l) = dflt := by
  induction l with
  | nil => rfl
  | cons c rest ih =>
    unfold eraseCell
    split
    · exact ih
    · next h => rw [lookupCell, if_neg h, ih]

theorem lookupCell_eraseCell_other {key key' : Nat} (dflt : α) (l : List (Nat × α))
    (h : key' ≠ key) : lookupCell key' dflt (eraseCell key l) = lookupCell key' dflt l := by
  induction l with
  | nil => rfl
  | cons c rest ih =>
    unfold eraseCell
    split
    · next h2 => rw [lookupCell, if_neg (fun h' => h (h'.symm.trans h2)), ih]
    · simp only [lookupCell, ih]

/-- Reading the key just written gives the value written. -/
@[simp] theorem lookupCell_writeCell_same [DecidableEq α] (key : Nat) (v dflt : α)
    (l : List (Nat × α)) :
    lookupCell key dflt (writeCell key v dflt l) = v := by
  unfold writeCell
  split
  · next h => rw [h, lookupCell_eraseCell_same]
  · exact lookupCell_insertCell_same key v dflt l

/-- Reading another key gives what it gave before. -/
theorem lookupCell_writeCell_other [DecidableEq α] {key key' : Nat} (v dflt dflt' : α)
    (l : List (Nat × α)) (h : key' ≠ key) :
    lookupCell key' dflt' (writeCell key v dflt l) = lookupCell key' dflt' l := by
  unfold writeCell
  split
  · exact lookupCell_eraseCell_other dflt' l h
  · exact lookupCell_insertCell_other v dflt' l h

/-! ## Keys strictly rising -/

/-- The keys of a list rise when the first is below all others and the rest rise. -/
theorem cellsRising_cons (c : Nat × α) (rest : List (Nat × α)) :
    cellsRising (c :: rest) = true ↔ (∀ d ∈ rest, c.1 < d.1) ∧ cellsRising rest = true := by
  induction rest generalizing c with
  | nil => simp [cellsRising]
  | cons d tail ih =>
    have step : cellsRising (c :: d :: tail) = (decide (c.1 < d.1) && cellsRising (d :: tail)) :=
      rfl
    rw [step, Bool.and_eq_true, decide_eq_true_eq]
    constructor
    · rintro ⟨hcd, hr⟩
      refine ⟨fun e he => ?_, hr⟩
      rcases List.mem_cons.1 he with rfl | he
      · exact hcd
      · exact hcd.trans (((ih d).1 hr).1 e he)
    · rintro ⟨hall, hr⟩
      exact ⟨hall d (List.mem_cons_self ..), hr⟩

theorem mem_insertCell {key : Nat} {v : α} {c : Nat × α} {l : List (Nat × α)}
    (h : c ∈ insertCell key v l) : c = (key, v) ∨ c ∈ l := by
  induction l with
  | nil => simpa [insertCell] using h
  | cons d rest ih =>
    unfold insertCell at h
    split at h
    · simpa using h
    · split at h
      · rcases List.mem_cons.1 h with h | h
        · exact .inl h
        · exact .inr (List.mem_cons_of_mem _ h)
      · rcases List.mem_cons.1 h with rfl | h
        · exact .inr (List.mem_cons_self ..)
        · rcases ih h with h | h
          · exact .inl h
          · exact .inr (List.mem_cons_of_mem _ h)

theorem mem_eraseCell {key : Nat} {c : Nat × α} {l : List (Nat × α)}
    (h : c ∈ eraseCell key l) : c ∈ l := by
  induction l with
  | nil => exact h
  | cons d rest ih =>
    unfold eraseCell at h
    split at h
    · exact List.mem_cons_of_mem _ (ih h)
    · rcases List.mem_cons.1 h with rfl | h
      · exact List.mem_cons_self ..
      · exact List.mem_cons_of_mem _ (ih h)

theorem cellsRising_insertCell (key : Nat) (v : α) (l : List (Nat × α))
    (h : cellsRising l = true) : cellsRising (insertCell key v l) = true := by
  induction l with
  | nil => rfl
  | cons c rest ih =>
    obtain ⟨hall, hr⟩ := (cellsRising_cons c rest).1 h
    unfold insertCell
    split
    · next hk =>
      refine (cellsRising_cons _ _).2 ⟨fun d hd => ?_, h⟩
      rcases List.mem_cons.1 hd with rfl | hd
      · exact hk
      · exact hk.trans (hall d hd)
    · split
      · next hk => exact (cellsRising_cons _ _).2 ⟨fun d hd => hk ▸ hall d hd, hr⟩
      · next h1 h2 =>
        refine (cellsRising_cons _ _).2 ⟨fun d hd => ?_, ih hr⟩
        rcases mem_insertCell hd with rfl | hd
        · exact lt_of_le_of_ne (Nat.le_of_not_lt h1) (Ne.symm h2)
        · exact hall d hd

theorem cellsRising_eraseCell (key : Nat) (l : List (Nat × α)) (h : cellsRising l = true) :
    cellsRising (eraseCell key l) = true := by
  induction l with
  | nil => rfl
  | cons c rest ih =>
    obtain ⟨hall, hr⟩ := (cellsRising_cons c rest).1 h
    unfold eraseCell
    split
    · exact ih hr
    · exact (cellsRising_cons _ _).2 ⟨fun d hd => hall d (mem_eraseCell hd), ih hr⟩

theorem cellsRising_filter (p : Nat × α → Bool) (l : List (Nat × α)) (h : cellsRising l = true) :
    cellsRising (l.filter p) = true := by
  induction l with
  | nil => rfl
  | cons c rest ih =>
    obtain ⟨hall, hr⟩ := (cellsRising_cons c rest).1 h
    rw [List.filter_cons]
    split
    · exact (cellsRising_cons _ _).2 ⟨fun d hd => hall d (List.mem_filter.1 hd).1, ih hr⟩
    · exact ih hr

/-! ## The canonical form -/

/-- The canonical form says: keys rise, every key is below the bound, no entry is what an unlisted
key reads as. -/
theorem cellsCanonical_iff [DecidableEq α] (bound : Nat) (dflt : Nat → α) (l : List (Nat × α)) :
    cellsCanonical bound dflt l = true ↔
      cellsRising l = true ∧ ∀ c ∈ l, c.1 < bound ∧ c.2 ≠ dflt c.1 := by
  simp [cellsCanonical]

/-- A write keeps the canonical form. -/
theorem cellsCanonical_writeCell [DecidableEq α] {bound : Nat} {dflt : Nat → α}
    {l : List (Nat × α)} {key : Nat} (v : α) (hk : key < bound) (h : cellsCanonical bound dflt l = true) :
    cellsCanonical bound dflt (writeCell key v (dflt key) l) = true := by
  obtain ⟨hr, hall⟩ := (cellsCanonical_iff bound dflt l).1 h
  rw [cellsCanonical_iff]
  unfold writeCell
  split
  · exact ⟨cellsRising_eraseCell key l hr, fun c hc => hall c (mem_eraseCell hc)⟩
  · next hv =>
    refine ⟨cellsRising_insertCell key v l hr, fun c hc => ?_⟩
    rcases mem_insertCell hc with rfl | hc
    · exact ⟨hk, hv⟩
    · exact hall c hc

/-- Lists in canonical form that read the same at every key are equal. -/
theorem cells_ext [DecidableEq α] {bound : Nat} {dflt : Nat → α} {l m : List (Nat × α)}
    (hl : cellsCanonical bound dflt l = true) (hm : cellsCanonical bound dflt m = true)
    (h : ∀ key, lookupCell key (dflt key) l = lookupCell key (dflt key) m) : l = m := by
  have miss : ∀ (key : Nat) (d : α) (l : List (Nat × α)), (∀ c ∈ l, key < c.1) →
      lookupCell key d l = d := by
    intro key d l hall
    induction l with
    | nil => rfl
    | cons c rest ih =>
      rw [lookupCell, if_neg (hall c (List.mem_cons_self ..)).ne',
        ih fun e he => hall e (List.mem_cons_of_mem _ he)]
  induction l generalizing m with
  | nil =>
    cases m with
    | nil => rfl
    | cons c rest =>
      obtain ⟨-, hall⟩ := (cellsCanonical_iff _ _ _).1 hm
      have := h c.1
      rw [lookupCell_nil, lookupCell, if_pos rfl] at this
      exact absurd this.symm (hall c (List.mem_cons_self ..)).2
  | cons c rest ih =>
    obtain ⟨hrl, hal⟩ := (cellsCanonical_iff _ _ _).1 hl
    obtain ⟨hlt, hrl'⟩ := (cellsRising_cons _ _).1 hrl
    cases m with
    | nil =>
      have := h c.1
      rw [lookupCell_nil, lookupCell, if_pos rfl] at this
      exact absurd this (hal c (List.mem_cons_self ..)).2
    | cons d tail =>
      obtain ⟨hrm, ham⟩ := (cellsCanonical_iff _ _ _).1 hm
      obtain ⟨hlt', hrm'⟩ := (cellsRising_cons _ _).1 hrm
      have same : c.1 = d.1 := by
        rcases Nat.lt_trichotomy c.1 d.1 with hlt1 | heq | hgt
        · have := h c.1
          rw [lookupCell, if_pos rfl, miss c.1 _ (d :: tail) fun e he => by
            rcases List.mem_cons.1 he with rfl | he
            · exact hlt1
            · exact hlt1.trans (hlt' e he)] at this
          exact absurd this (hal c (List.mem_cons_self ..)).2
        · exact heq
        · have := h d.1
          rw [miss d.1 _ (c :: rest) fun e he => by
            rcases List.mem_cons.1 he with rfl | he
            · exact hgt
            · exact hgt.trans (hlt e he), lookupCell, if_pos rfl] at this
          exact absurd this.symm (ham d (List.mem_cons_self ..)).2
      have val : c.2 = d.2 := by
        have := h c.1
        rwa [lookupCell, if_pos rfl, lookupCell, if_pos same.symm] at this
      have hcd : c = d := Prod.ext same val
      subst hcd
      refine congrArg (c :: ·) (ih ((cellsCanonical_iff _ _ _).2
        ⟨hrl', fun e he => hal e (List.mem_cons_of_mem _ he)⟩) ((cellsCanonical_iff _ _ _).2
        ⟨hrm', fun e he => ham e (List.mem_cons_of_mem _ he)⟩) fun key => ?_)
      by_cases hk : c.1 = key
      · subst hk
        rw [miss _ _ rest hlt, miss _ _ tail hlt']
      · have := h key
        rwa [lookupCell, if_neg hk, lookupCell, if_neg hk] at this

end

end Sys2Proof.Machine
end

