-- ==== Sys2Proof/Laws/State.lean ====
section
/-! SUPPORT. One lemma per field per update of the state, each true by rfl. -/

namespace Sys2Proof.Machine

@[simp] theorem State.setBc_bc (s : State) (v : Bc) : (s.setBc v).bc = v := rfl
@[simp] theorem State.setBc_rm (s : State) (v : Bc) : (s.setBc v).rm = s.rm := rfl
@[simp] theorem State.setBc_est (s : State) (v : Bc) : (s.setBc v).est = s.est := rfl
@[simp] theorem State.setBc_pl (s : State) (v : Bc) : (s.setBc v).pl = s.pl := rfl
@[simp] theorem State.setBc_regs (s : State) (v : Bc) : (s.setBc v).regs = s.regs := rfl
@[simp] theorem State.setBc_mem (s : State) (v : Bc) : (s.setBc v).mem = s.mem := rfl
@[simp] theorem State.setBc_prog (s : State) (v : Bc) : (s.setBc v).prog = s.prog := rfl
@[simp] theorem State.setBc_bus (s : State) (v : Bc) : (s.setBc v).bus = s.bus := rfl
@[simp] theorem State.setBc_host (s : State) (v : Bc) : (s.setBc v).host = s.host := rfl
@[simp] theorem State.setBc_rdata (s : State) (v : Bc) : (s.setBc v).rdata = s.rdata := rfl
@[simp] theorem State.setBc_result (s : State) (v : Bc) : (s.setBc v).result = s.result := rfl
@[simp] theorem State.setBc_free (s : State) (v : Bc) : (s.setBc v).free = s.free := rfl
theorem State.setBc_eq (s : State) (v : Bc) : s.setBc v = { s with bc := v } := rfl
@[simp] theorem State.setBc_setBc (s : State) (v w : Bc) : (s.setBc v).setBc w = s.setBc w := rfl
@[simp] theorem State.setBc_self (s : State) : s.setBc s.bc = s := rfl

@[simp] theorem State.setRm_bc (s : State) (v : Rm) : (s.setRm v).bc = s.bc := rfl
@[simp] theorem State.setRm_rm (s : State) (v : Rm) : (s.setRm v).rm = v := rfl
@[simp] theorem State.setRm_est (s : State) (v : Rm) : (s.setRm v).est = s.est := rfl
@[simp] theorem State.setRm_pl (s : State) (v : Rm) : (s.setRm v).pl = s.pl := rfl
@[simp] theorem State.setRm_regs (s : State) (v : Rm) : (s.setRm v).regs = s.regs := rfl
@[simp] theorem State.setRm_mem (s : State) (v : Rm) : (s.setRm v).mem = s.mem := rfl
@[simp] theorem State.setRm_prog (s : State) (v : Rm) : (s.setRm v).prog = s.prog := rfl
@[simp] theorem State.setRm_bus (s : State) (v : Rm) : (s.setRm v).bus = s.bus := rfl
@[simp] theorem State.setRm_host (s : State) (v : Rm) : (s.setRm v).host = s.host := rfl
@[simp] theorem State.setRm_rdata (s : State) (v : Rm) : (s.setRm v).rdata = s.rdata := rfl
@[simp] theorem State.setRm_result (s : State) (v : Rm) : (s.setRm v).result = s.result := rfl
@[simp] theorem State.setRm_free (s : State) (v : Rm) : (s.setRm v).free = s.free := rfl
theorem State.setRm_eq (s : State) (v : Rm) : s.setRm v = { s with rm := v } := rfl
@[simp] theorem State.setRm_setRm (s : State) (v w : Rm) : (s.setRm v).setRm w = s.setRm w := rfl
@[simp] theorem State.setRm_self (s : State) : s.setRm s.rm = s := rfl

@[simp] theorem State.setEst_bc (s : State) (v : Est) : (s.setEst v).bc = s.bc := rfl
@[simp] theorem State.setEst_rm (s : State) (v : Est) : (s.setEst v).rm = s.rm := rfl
@[simp] theorem State.setEst_est (s : State) (v : Est) : (s.setEst v).est = v := rfl
@[simp] theorem State.setEst_pl (s : State) (v : Est) : (s.setEst v).pl = s.pl := rfl
@[simp] theorem State.setEst_regs (s : State) (v : Est) : (s.setEst v).regs = s.regs := rfl
@[simp] theorem State.setEst_mem (s : State) (v : Est) : (s.setEst v).mem = s.mem := rfl
@[simp] theorem State.setEst_prog (s : State) (v : Est) : (s.setEst v).prog = s.prog := rfl
@[simp] theorem State.setEst_bus (s : State) (v : Est) : (s.setEst v).bus = s.bus := rfl
@[simp] theorem State.setEst_host (s : State) (v : Est) : (s.setEst v).host = s.host := rfl
@[simp] theorem State.setEst_rdata (s : State) (v : Est) : (s.setEst v).rdata = s.rdata := rfl
@[simp] theorem State.setEst_result (s : State) (v : Est) : (s.setEst v).result = s.result := rfl
@[simp] theorem State.setEst_free (s : State) (v : Est) : (s.setEst v).free = s.free := rfl
theorem State.setEst_eq (s : State) (v : Est) : s.setEst v = { s with est := v } := rfl
@[simp] theorem State.setEst_setEst (s : State) (v w : Est) : (s.setEst v).setEst w = s.setEst w := rfl
@[simp] theorem State.setEst_self (s : State) : s.setEst s.est = s := rfl

@[simp] theorem State.setPl_bc (s : State) (v : Pl) : (s.setPl v).bc = s.bc := rfl
@[simp] theorem State.setPl_rm (s : State) (v : Pl) : (s.setPl v).rm = s.rm := rfl
@[simp] theorem State.setPl_est (s : State) (v : Pl) : (s.setPl v).est = s.est := rfl
@[simp] theorem State.setPl_pl (s : State) (v : Pl) : (s.setPl v).pl = v := rfl
@[simp] theorem State.setPl_regs (s : State) (v : Pl) : (s.setPl v).regs = s.regs := rfl
@[simp] theorem State.setPl_mem (s : State) (v : Pl) : (s.setPl v).mem = s.mem := rfl
@[simp] theorem State.setPl_prog (s : State) (v : Pl) : (s.setPl v).prog = s.prog := rfl
@[simp] theorem State.setPl_bus (s : State) (v : Pl) : (s.setPl v).bus = s.bus := rfl
@[simp] theorem State.setPl_host (s : State) (v : Pl) : (s.setPl v).host = s.host := rfl
@[simp] theorem State.setPl_rdata (s : State) (v : Pl) : (s.setPl v).rdata = s.rdata := rfl
@[simp] theorem State.setPl_result (s : State) (v : Pl) : (s.setPl v).result = s.result := rfl
@[simp] theorem State.setPl_free (s : State) (v : Pl) : (s.setPl v).free = s.free := rfl
theorem State.setPl_eq (s : State) (v : Pl) : s.setPl v = { s with pl := v } := rfl
@[simp] theorem State.setPl_setPl (s : State) (v w : Pl) : (s.setPl v).setPl w = s.setPl w := rfl
@[simp] theorem State.setPl_self (s : State) : s.setPl s.pl = s := rfl

@[simp] theorem State.setRegs_bc (s : State) (v : Regs) : (s.setRegs v).bc = s.bc := rfl
@[simp] theorem State.setRegs_rm (s : State) (v : Regs) : (s.setRegs v).rm = s.rm := rfl
@[simp] theorem State.setRegs_est (s : State) (v : Regs) : (s.setRegs v).est = s.est := rfl
@[simp] theorem State.setRegs_pl (s : State) (v : Regs) : (s.setRegs v).pl = s.pl := rfl
@[simp] theorem State.setRegs_regs (s : State) (v : Regs) : (s.setRegs v).regs = v := rfl
@[simp] theorem State.setRegs_mem (s : State) (v : Regs) : (s.setRegs v).mem = s.mem := rfl
@[simp] theorem State.setRegs_prog (s : State) (v : Regs) : (s.setRegs v).prog = s.prog := rfl
@[simp] theorem State.setRegs_bus (s : State) (v : Regs) : (s.setRegs v).bus = s.bus := rfl
@[simp] theorem State.setRegs_host (s : State) (v : Regs) : (s.setRegs v).host = s.host := rfl
@[simp] theorem State.setRegs_rdata (s : State) (v : Regs) : (s.setRegs v).rdata = s.rdata := rfl
@[simp] theorem State.setRegs_result (s : State) (v : Regs) : (s.setRegs v).result = s.result := rfl
@[simp] theorem State.setRegs_free (s : State) (v : Regs) : (s.setRegs v).free = s.free := rfl
theorem State.setRegs_eq (s : State) (v : Regs) : s.setRegs v = { s with regs := v } := rfl
@[simp] theorem State.setRegs_setRegs (s : State) (v w : Regs) : (s.setRegs v).setRegs w = s.setRegs w := rfl
@[simp] theorem State.setRegs_self (s : State) : s.setRegs s.regs = s := rfl

@[simp] theorem State.setMem_bc (s : State) (v : Memory) : (s.setMem v).bc = s.bc := rfl
@[simp] theorem State.setMem_rm (s : State) (v : Memory) : (s.setMem v).rm = s.rm := rfl
@[simp] theorem State.setMem_est (s : State) (v : Memory) : (s.setMem v).est = s.est := rfl
@[simp] theorem State.setMem_pl (s : State) (v : Memory) : (s.setMem v).pl = s.pl := rfl
@[simp] theorem State.setMem_regs (s : State) (v : Memory) : (s.setMem v).regs = s.regs := rfl
@[simp] theorem State.setMem_mem (s : State) (v : Memory) : (s.setMem v).mem = v := rfl
@[simp] theorem State.setMem_prog (s : State) (v : Memory) : (s.setMem v).prog = s.prog := rfl
@[simp] theorem State.setMem_bus (s : State) (v : Memory) : (s.setMem v).bus = s.bus := rfl
@[simp] theorem State.setMem_host (s : State) (v : Memory) : (s.setMem v).host = s.host := rfl
@[simp] theorem State.setMem_rdata (s : State) (v : Memory) : (s.setMem v).rdata = s.rdata := rfl
@[simp] theorem State.setMem_result (s : State) (v : Memory) : (s.setMem v).result = s.result := rfl
@[simp] theorem State.setMem_free (s : State) (v : Memory) : (s.setMem v).free = s.free := rfl
theorem State.setMem_eq (s : State) (v : Memory) : s.setMem v = { s with mem := v } := rfl
@[simp] theorem State.setMem_setMem (s : State) (v w : Memory) : (s.setMem v).setMem w = s.setMem w := rfl
@[simp] theorem State.setMem_self (s : State) : s.setMem s.mem = s := rfl

@[simp] theorem State.setProg_bc (s : State) (v : Progress) : (s.setProg v).bc = s.bc := rfl
@[simp] theorem State.setProg_rm (s : State) (v : Progress) : (s.setProg v).rm = s.rm := rfl
@[simp] theorem State.setProg_est (s : State) (v : Progress) : (s.setProg v).est = s.est := rfl
@[simp] theorem State.setProg_pl (s : State) (v : Progress) : (s.setProg v).pl = s.pl := rfl
@[simp] theorem State.setProg_regs (s : State) (v : Progress) : (s.setProg v).regs = s.regs := rfl
@[simp] theorem State.setProg_mem (s : State) (v : Progress) : (s.setProg v).mem = s.mem := rfl
@[simp] theorem State.setProg_prog (s : State) (v : Progress) : (s.setProg v).prog = v := rfl
@[simp] theorem State.setProg_bus (s : State) (v : Progress) : (s.setProg v).bus = s.bus := rfl
@[simp] theorem State.setProg_host (s : State) (v : Progress) : (s.setProg v).host = s.host := rfl
@[simp] theorem State.setProg_rdata (s : State) (v : Progress) : (s.setProg v).rdata = s.rdata := rfl
@[simp] theorem State.setProg_result (s : State) (v : Progress) : (s.setProg v).result = s.result := rfl
@[simp] theorem State.setProg_free (s : State) (v : Progress) : (s.setProg v).free = s.free := rfl
theorem State.setProg_eq (s : State) (v : Progress) : s.setProg v = { s with prog := v } := rfl
@[simp] theorem State.setProg_setProg (s : State) (v w : Progress) : (s.setProg v).setProg w = s.setProg w := rfl
@[simp] theorem State.setProg_self (s : State) : s.setProg s.prog = s := rfl

@[simp] theorem State.setBus_bc (s : State) (v : Option BusOp) : (s.setBus v).bc = s.bc := rfl
@[simp] theorem State.setBus_rm (s : State) (v : Option BusOp) : (s.setBus v).rm = s.rm := rfl
@[simp] theorem State.setBus_est (s : State) (v : Option BusOp) : (s.setBus v).est = s.est := rfl
@[simp] theorem State.setBus_pl (s : State) (v : Option BusOp) : (s.setBus v).pl = s.pl := rfl
@[simp] theorem State.setBus_regs (s : State) (v : Option BusOp) : (s.setBus v).regs = s.regs := rfl
@[simp] theorem State.setBus_mem (s : State) (v : Option BusOp) : (s.setBus v).mem = s.mem := rfl
@[simp] theorem State.setBus_prog (s : State) (v : Option BusOp) : (s.setBus v).prog = s.prog := rfl
@[simp] theorem State.setBus_bus (s : State) (v : Option BusOp) : (s.setBus v).bus = v := rfl
@[simp] theorem State.setBus_host (s : State) (v : Option BusOp) : (s.setBus v).host = s.host := rfl
@[simp] theorem State.setBus_rdata (s : State) (v : Option BusOp) : (s.setBus v).rdata = s.rdata := rfl
@[simp] theorem State.setBus_result (s : State) (v : Option BusOp) : (s.setBus v).result = s.result := rfl
@[simp] theorem State.setBus_free (s : State) (v : Option BusOp) : (s.setBus v).free = s.free := rfl
theorem State.setBus_eq (s : State) (v : Option BusOp) : s.setBus v = { s with bus := v } := rfl
@[simp] theorem State.setBus_setBus (s : State) (v w : Option BusOp) : (s.setBus v).setBus w = s.setBus w := rfl
@[simp] theorem State.setBus_self (s : State) : s.setBus s.bus = s := rfl

@[simp] theorem State.setHost_bc (s : State) (v : List HostAction) : (s.setHost v).bc = s.bc := rfl
@[simp] theorem State.setHost_rm (s : State) (v : List HostAction) : (s.setHost v).rm = s.rm := rfl
@[simp] theorem State.setHost_est (s : State) (v : List HostAction) : (s.setHost v).est = s.est := rfl
@[simp] theorem State.setHost_pl (s : State) (v : List HostAction) : (s.setHost v).pl = s.pl := rfl
@[simp] theorem State.setHost_regs (s : State) (v : List HostAction) : (s.setHost v).regs = s.regs := rfl
@[simp] theorem State.setHost_mem (s : State) (v : List HostAction) : (s.setHost v).mem = s.mem := rfl
@[simp] theorem State.setHost_prog (s : State) (v : List HostAction) : (s.setHost v).prog = s.prog := rfl
@[simp] theorem State.setHost_bus (s : State) (v : List HostAction) : (s.setHost v).bus = s.bus := rfl
@[simp] theorem State.setHost_host (s : State) (v : List HostAction) : (s.setHost v).host = v := rfl
@[simp] theorem State.setHost_rdata (s : State) (v : List HostAction) : (s.setHost v).rdata = s.rdata := rfl
@[simp] theorem State.setHost_result (s : State) (v : List HostAction) : (s.setHost v).result = s.result := rfl
@[simp] theorem State.setHost_free (s : State) (v : List HostAction) : (s.setHost v).free = s.free := rfl
theorem State.setHost_eq (s : State) (v : List HostAction) : s.setHost v = { s with host := v } := rfl
@[simp] theorem State.setHost_setHost (s : State) (v w : List HostAction) : (s.setHost v).setHost w = s.setHost w := rfl
@[simp] theorem State.setHost_self (s : State) : s.setHost s.host = s := rfl

@[simp] theorem State.setRdata_bc (s : State) (v : Word) : (s.setRdata v).bc = s.bc := rfl
@[simp] theorem State.setRdata_rm (s : State) (v : Word) : (s.setRdata v).rm = s.rm := rfl
@[simp] theorem State.setRdata_est (s : State) (v : Word) : (s.setRdata v).est = s.est := rfl
@[simp] theorem State.setRdata_pl (s : State) (v : Word) : (s.setRdata v).pl = s.pl := rfl
@[simp] theorem State.setRdata_regs (s : State) (v : Word) : (s.setRdata v).regs = s.regs := rfl
@[simp] theorem State.setRdata_mem (s : State) (v : Word) : (s.setRdata v).mem = s.mem := rfl
@[simp] theorem State.setRdata_prog (s : State) (v : Word) : (s.setRdata v).prog = s.prog := rfl
@[simp] theorem State.setRdata_bus (s : State) (v : Word) : (s.setRdata v).bus = s.bus := rfl
@[simp] theorem State.setRdata_host (s : State) (v : Word) : (s.setRdata v).host = s.host := rfl
@[simp] theorem State.setRdata_rdata (s : State) (v : Word) : (s.setRdata v).rdata = v := rfl
@[simp] theorem State.setRdata_result (s : State) (v : Word) : (s.setRdata v).result = s.result := rfl
@[simp] theorem State.setRdata_free (s : State) (v : Word) : (s.setRdata v).free = s.free := rfl
theorem State.setRdata_eq (s : State) (v : Word) : s.setRdata v = { s with rdata := v } := rfl
@[simp] theorem State.setRdata_setRdata (s : State) (v w : Word) : (s.setRdata v).setRdata w = s.setRdata w := rfl
@[simp] theorem State.setRdata_self (s : State) : s.setRdata s.rdata = s := rfl

@[simp] theorem State.setResult_bc (s : State) (v : Nat) : (s.setResult v).bc = s.bc := rfl
@[simp] theorem State.setResult_rm (s : State) (v : Nat) : (s.setResult v).rm = s.rm := rfl
@[simp] theorem State.setResult_est (s : State) (v : Nat) : (s.setResult v).est = s.est := rfl
@[simp] theorem State.setResult_pl (s : State) (v : Nat) : (s.setResult v).pl = s.pl := rfl
@[simp] theorem State.setResult_regs (s : State) (v : Nat) : (s.setResult v).regs = s.regs := rfl
@[simp] theorem State.setResult_mem (s : State) (v : Nat) : (s.setResult v).mem = s.mem := rfl
@[simp] theorem State.setResult_prog (s : State) (v : Nat) : (s.setResult v).prog = s.prog := rfl
@[simp] theorem State.setResult_bus (s : State) (v : Nat) : (s.setResult v).bus = s.bus := rfl
@[simp] theorem State.setResult_host (s : State) (v : Nat) : (s.setResult v).host = s.host := rfl
@[simp] theorem State.setResult_rdata (s : State) (v : Nat) : (s.setResult v).rdata = s.rdata := rfl
@[simp] theorem State.setResult_result (s : State) (v : Nat) : (s.setResult v).result = v := rfl
@[simp] theorem State.setResult_free (s : State) (v : Nat) : (s.setResult v).free = s.free := rfl
theorem State.setResult_eq (s : State) (v : Nat) : s.setResult v = { s with result := v } := rfl
@[simp] theorem State.setResult_setResult (s : State) (v w : Nat) : (s.setResult v).setResult w = s.setResult w := rfl
@[simp] theorem State.setResult_self (s : State) : s.setResult s.result = s := rfl

@[simp] theorem State.setFree_bc (s : State) (v : Nat) : (s.setFree v).bc = s.bc := rfl
@[simp] theorem State.setFree_rm (s : State) (v : Nat) : (s.setFree v).rm = s.rm := rfl
@[simp] theorem State.setFree_est (s : State) (v : Nat) : (s.setFree v).est = s.est := rfl
@[simp] theorem State.setFree_pl (s : State) (v : Nat) : (s.setFree v).pl = s.pl := rfl
@[simp] theorem State.setFree_regs (s : State) (v : Nat) : (s.setFree v).regs = s.regs := rfl
@[simp] theorem State.setFree_mem (s : State) (v : Nat) : (s.setFree v).mem = s.mem := rfl
@[simp] theorem State.setFree_prog (s : State) (v : Nat) : (s.setFree v).prog = s.prog := rfl
@[simp] theorem State.setFree_bus (s : State) (v : Nat) : (s.setFree v).bus = s.bus := rfl
@[simp] theorem State.setFree_host (s : State) (v : Nat) : (s.setFree v).host = s.host := rfl
@[simp] theorem State.setFree_rdata (s : State) (v : Nat) : (s.setFree v).rdata = s.rdata := rfl
@[simp] theorem State.setFree_result (s : State) (v : Nat) : (s.setFree v).result = s.result := rfl
@[simp] theorem State.setFree_free (s : State) (v : Nat) : (s.setFree v).free = v := rfl
theorem State.setFree_eq (s : State) (v : Nat) : s.setFree v = { s with free := v } := rfl
@[simp] theorem State.setFree_setFree (s : State) (v w : Nat) : (s.setFree v).setFree w = s.setFree w := rfl
@[simp] theorem State.setFree_self (s : State) : s.setFree s.free = s := rfl

end Sys2Proof.Machine
end

