-- ==== Sys2Proof/Laws/Memory.lean ====
section
/-! SUPPORT. The laws of external memory: read after write for bytes and channel words, and that
every memory operation keeps the canonical form. -/

namespace Sys2Proof.Machine

/-! ## Bytes -/

@[simp] theorem Memory.setByte_lost (m : Memory) (a : Nat) (v : Byte) :
    (m.setByte a v).lost = m.lost := rfl

/-- Reading the byte just written gives the value written. -/
@[simp] theorem Memory.byteAt_setByte_same (m : Memory) (a : Nat) (v : Byte) :
    (m.setByte a v).byteAt a = v := lookupCell_writeCell_same a v _ m.cells

/-- A byte write leaves every other byte alone. -/
theorem Memory.byteAt_setByte_other (m : Memory) {a b : Nat} (v : Byte) (h : b ≠ a) :
    (m.setByte a v).byteAt b = m.byteAt b := lookupCell_writeCell_other v _ _ m.cells h

theorem Memory.byteAt_setByte (m : Memory) (a b : Nat) (v : Byte) :
    (m.setByte a v).byteAt b = if b = a then v else m.byteAt b := by
  split
  · next h => rw [h, Memory.byteAt_setByte_same]
  · next h => exact m.byteAt_setByte_other v h

/-- What storing a list of bytes does to every byte. -/
theorem Memory.byteAt_setBytes (m : Memory) (a b : Nat) (bytes : List Byte) :
    (m.setBytes a bytes).byteAt b =
      if a ≤ b ∧ b < a + bytes.length then bytes.getD (b - a) 0 else m.byteAt b := by
  induction bytes generalizing m a with
  | nil => rw [Memory.setBytes, if_neg (by rw [List.length_nil]; omega)]
  | cons v rest ih =>
    rw [Memory.setBytes, ih, Memory.byteAt_setByte]
    rcases Nat.lt_trichotomy b a with h | h | h
    · rw [if_neg (by omega), if_neg (by omega), if_neg (by omega)]
    · subst h
      rw [if_neg (by omega), if_pos rfl, if_pos (by simp)]
      simp
    · by_cases h2 : b < a + 1 + rest.length
      · rw [if_pos (by omega), if_pos (by simp; omega),
          show b - a = (b - (a + 1)) + 1 by omega, List.getD_cons_succ]
      · rw [if_neg (by omega), if_neg (by omega), if_neg (by simp; omega)]

/-! ## Channel words -/

/-- What a word write does to every byte, little-endian (spec/20_memory.md R62). -/
theorem Memory.byteAt_setWord (m : Memory) (a b : Nat) (w : Word) :
    (m.setWord a w).byteAt b =
      if b = a + 3 then w.extractLsb' 24 8
      else if b = a + 2 then w.extractLsb' 16 8
      else if b = a + 1 then w.extractLsb' 8 8
      else if b = a then w.extractLsb' 0 8
      else m.byteAt b := by
  simp only [Memory.setWord, Memory.byteAt_setByte]

/-- A word write leaves every byte outside the word alone. -/
theorem Memory.byteAt_setWord_other (m : Memory) {a b : Nat} (w : Word)
    (h : b < a ∨ a + 4 ≤ b) : (m.setWord a w).byteAt b = m.byteAt b := by
  rw [Memory.byteAt_setWord, if_neg (by omega), if_neg (by omega), if_neg (by omega),
    if_neg (by omega)]

/-- Reading the word just written gives the value written. -/
@[simp] theorem Memory.wordAt_setWord_same (m : Memory) (a : Nat) (w : Word) :
    (m.setWord a w).wordAt a = w := by
  simp only [Memory.wordAt, Memory.byteAt_setWord]
  rw [if_pos trivial, if_neg (by omega), if_pos trivial, if_neg (by omega), if_neg (by omega),
    if_pos trivial, if_neg (by omega), if_neg (by omega), if_neg (by omega), if_pos trivial]
  ext i hi
  simp only [BitVec.getElem_append, BitVec.getElem_extractLsb']
  split
  · simp [BitVec.getLsbD_eq_getElem, hi]
  · split
    · rw [BitVec.getLsbD_eq_getElem (by omega)]; congr 1; omega
    · split
      · rw [BitVec.getLsbD_eq_getElem (by omega)]; congr 1; omega
      · rw [BitVec.getLsbD_eq_getElem (by omega)]; congr 1; omega

/-- A word write leaves every disjoint word alone. -/
theorem Memory.wordAt_setWord_other (m : Memory) {a b : Nat} (w : Word)
    (h : b + 4 ≤ a ∨ a + 4 ≤ b) : (m.setWord a w).wordAt b = m.wordAt b := by
  simp only [Memory.wordAt]
  rw [m.byteAt_setWord_other w (by omega), m.byteAt_setWord_other w (by omega),
    m.byteAt_setWord_other w (by omega), m.byteAt_setWord_other w (by omega)]

/-- Memories that agree on the four bytes of a word agree on the word. -/
theorem Memory.wordAt_congr {m n : Memory} {a : Nat}
    (h : ∀ b, a ≤ b → b < a + 4 → m.byteAt b = n.byteAt b) : m.wordAt a = n.wordAt a := by
  simp only [Memory.wordAt]
  rw [h a (by omega) (by omega), h (a + 1) (by omega) (by omega),
    h (a + 2) (by omega) (by omega), h (a + 3) (by omega) (by omega)]

/-! ## The canonical form -/

/-- A byte write inside the address space keeps the canonical form. -/
theorem Memory.wf_setByte {m : Memory} {a : Nat} (v : Byte) (ha : a < Config.addressSpace)
    (h : m.wf = true) : (m.setByte a v).wf = true := cellsCanonical_writeCell v ha h

/-- A word write inside the address space keeps the canonical form. -/
theorem Memory.wf_setWord {m : Memory} {a : Nat} (w : Word) (ha : a + 4 ≤ Config.addressSpace)
    (h : m.wf = true) : (m.setWord a w).wf = true := by
  unfold Memory.setWord
  exact wf_setByte _ (by omega) (wf_setByte _ (by omega) (wf_setByte _ (by omega)
    (wf_setByte _ (by omega) h)))

/-- Storing bytes inside the address space keeps the canonical form. -/
theorem Memory.wf_setBytes {m : Memory} {a : Nat} {bytes : List Byte}
    (ha : a + bytes.length ≤ Config.addressSpace) (h : m.wf = true) :
    (m.setBytes a bytes).wf = true := by
  induction bytes generalizing m a with
  | nil => exact h
  | cons v rest ih =>
    rw [List.length_cons] at ha
    exact ih (by omega) (wf_setByte v (by omega) h)

/-- Losing a region keeps the canonical form. -/
theorem Memory.wf_lose {m : Memory} (base len epoch : Nat) (h : m.wf = true) :
    (m.lose base len epoch).wf = true := by
  obtain ⟨hr, hall⟩ := (cellsCanonical_iff _ _ _).1 h
  refine (cellsCanonical_iff _ _ _).2 ⟨cellsRising_filter _ _ hr, fun c hc => ?_⟩
  obtain ⟨hmem, hout⟩ := List.mem_filter.1 hc
  refine ⟨(hall c hmem).1, ?_⟩
  have : ¬(base ≤ c.1 ∧ c.1 < base + len) := by simp at hout; omega
  rw [Memory.lose, unlistedByte, if_neg this]
  exact (hall c hmem).2

/-- Outside a lost region every byte is as before. -/
theorem Memory.byteAt_lose_other (m : Memory) {base len epoch a : Nat}
    (h : a < base ∨ base + len ≤ a) : (m.lose base len epoch).byteAt a = m.byteAt a := by
  have key : ∀ l : List Host.Cell,
      lookupCell a (unlistedByte a m.lost)
        (l.filter fun c => !(decide (base ≤ c.1) && decide (c.1 < base + len))) =
        lookupCell a (unlistedByte a m.lost) l := by
    intro l
    induction l with
    | nil => rfl
    | cons c rest ih =>
      rw [List.filter_cons]
      split
      · simp only [lookupCell, ih]
      · next hc =>
        rw [ih, lookupCell, if_neg]
        rintro rfl
        simp at hc
        omega
  rw [Memory.lose, Memory.byteAt, unlistedByte, if_neg (by dsimp only; omega), key, Memory.byteAt]

/-- Inside a lost region every byte is a free value. -/
theorem Memory.byteAt_lose_inside (m : Memory) {base len epoch a : Nat}
    (h1 : base ≤ a) (h2 : a < base + len) :
    (m.lose base len epoch).byteAt a = Config.lostByte epoch a := by
  have key : ∀ (l : List Host.Cell) (d : Byte),
      lookupCell a d
        (l.filter fun c => !(decide (base ≤ c.1) && decide (c.1 < base + len))) = d := by
    intro l d
    induction l with
    | nil => rfl
    | cons c rest ih =>
      rw [List.filter_cons]
      split
      · next hc =>
        rw [lookupCell, if_neg, ih]
        rintro rfl
        simp at hc
        omega
      · exact ih
  rw [Memory.lose, Memory.byteAt, key, unlistedByte, if_pos ⟨h1, h2⟩]

/-- Memories in canonical form that lost the same regions and read the same are equal. -/
theorem Memory.ext_byteAt {m n : Memory} (hm : m.wf = true) (hn : n.wf = true)
    (hl : m.lost = n.lost) (h : ∀ a, m.byteAt a = n.byteAt a) : m = n := by
  obtain ⟨mc, ml⟩ := m
  obtain ⟨nc, nl⟩ := n
  obtain rfl : ml = nl := hl
  exact congrArg (Memory.mk · ml) (cells_ext hm hn h)

/-- The memory of the reset state is in canonical form. -/
theorem Memory.wf_reset : State.reset.mem.wf = true := rfl

/-- Hardware reset keeps the canonical form of memory. -/
theorem Memory.wf_memAfterReset {s : State} (h : s.mem.wf = true) :
    (memAfterReset s).wf = true := by
  unfold memAfterReset
  split
  · split
    · exact wf_lose _ _ _ h
    · exact wf_lose _ _ _ h
    · exact h
    · exact h
  all_goals exact h

end Sys2Proof.Machine
end

