-- ==== Sys2Proof/Laws/Ops.lean ====
section
/-! SUPPORT. For each shared operation, once, all it can do: if it answers a state, then which.
Provers cite these and do not unfold the operations. -/

namespace Sys2Proof.Machine

/-! ## Sequencing -/

section
variable {α β : Type}

@[simp] theorem Res.bind_ok (v : α) (s : State) (f : α → State → Res β) :
    (Res.ok v s).bind f = f v s := rfl
@[simp] theorem Res.bind_raised (s : State) (f : α → State → Res β) :
    (Res.raised s).bind f = .raised s := rfl
@[simp] theorem Res.bind_fault (e : Fault) (f : α → State → Res β) :
    (Res.fault e).bind f = .fault e := rfl
@[simp] theorem Res.bind_refused (e : Refusal) (f : α → State → Res β) :
    (Res.refused e).bind f = .refused e := rfl

theorem Res.bind_eq_ok {r : Res α} {f : α → State → Res β} {b : β} {t : State} :
    r.bind f = .ok b t ↔ ∃ a s, r = .ok a s ∧ f a s = .ok b t := by
  cases r <;> simp

theorem Res.bind_eq_raised {r : Res α} {f : α → State → Res β} {t : State} :
    r.bind f = .raised t ↔ r = .raised t ∨ ∃ a s, r = .ok a s ∧ f a s = .raised t := by
  cases r <;> simp

theorem Res.bind_assoc {γ : Type} (r : Res α) (f : α → State → Res β)
    (g : β → State → Res γ) :
    (r.bind f).bind g = r.bind fun a s => (f a s).bind g := by
  cases r <;> rfl

end

/-- What a micro-operation without a result leaves: its state, or the fault taken. -/
theorem settle_eq_next {r : Res Unit} {t : State} :
    settle r = .next t ↔
      r = .ok () t ∨ ∃ s, r = .raised s ∧ t = takeFault .bufferTooSmall s := by
  cases r <;> simp [settle, eq_comm]

/-- What a micro-operation with a result leaves: the result latched, or the fault taken. -/
theorem settleValue_eq_next {r : Res Nat} {t : State} :
    settleValue r = .next t ↔
      (∃ v s, r = .ok v s ∧ t = s.setResult v) ∨
        ∃ s, r = .raised s ∧ t = takeFault .bufferTooSmall s := by
  cases r <;> simp [settleValue, eq_comm]

/-! ## Memory accesses -/

theorem memReadByte_eq_ok {a : Nat} {s t : State} {v : Byte} :
    memReadByte a s = .ok v t ↔ a < Config.addressSpace ∧ v = s.mem.byteAt a ∧ t = s := by
  unfold memReadByte
  split <;> simp_all [eq_comm]

theorem memWriteByte_eq_ok {a : Nat} {v : Byte} {s t : State} {u : Unit} :
    memWriteByte a v s = .ok u t ↔
      a < Config.addressSpace ∧ t = s.setMem (s.mem.setByte a v) := by
  unfold memWriteByte
  split <;> simp_all [eq_comm]

theorem memReadWord_eq_ok {a : Nat} {s t : State} {w : Word} :
    memReadWord a s = .ok w t ↔
      a % 4 = 0 ∧ a < Config.addressSpace ∧ w = s.mem.wordAt a ∧ t = s := by
  unfold memReadWord
  split
  · simp_all
  · split <;> simp_all [eq_comm]

theorem memWriteWord_eq_ok {a : Nat} {w : Word} {s t : State} {u : Unit} :
    memWriteWord a w s = .ok u t ↔
      a % 4 = 0 ∧ a < Config.addressSpace ∧ t = s.setMem (s.mem.setWord a w) := by
  unfold memWriteWord
  split
  · simp_all
  · split <;> simp_all [eq_comm]

/-- No memory access raises (spec/20_memory.md R74). -/
theorem memReadByte_ne_raised (a : Nat) (s t : State) : memReadByte a s ≠ .raised t := by
  unfold memReadByte
  split <;> simp
theorem memWriteByte_ne_raised (a : Nat) (v : Byte) (s t : State) :
    memWriteByte a v s ≠ .raised t := by
  unfold memWriteByte
  split <;> simp
theorem memReadWord_ne_raised (a : Nat) (s t : State) : memReadWord a s ≠ .raised t := by
  unfold memReadWord
  split
  · simp
  · split <;> simp
theorem memWriteWord_ne_raised (a : Nat) (w : Word) (s t : State) :
    memWriteWord a w s ≠ .raised t := by
  unfold memWriteWord
  split
  · simp
  · split <;> simp

/-! ## The cursor of unit BC -/

/-- The cursor as a number: `bc.cur`, and `2^32` more with the carry. -/
theorem Bc.cursor_toNat (b : Bc) : b.cursor.toNat = 2 ^ 32 * b.carry.toNat + b.cur.toNat := by
  have h := b.cur.isLt
  unfold Bc.cursor
  rw [BitVec.toNat_append, Nat.shiftLeft_eq, Nat.mul_comm, Nat.two_pow_add_eq_or_of_lt h]

/-- The low `AW` bits of the cursor are `bc.cur` (spec/10_state.md R22). -/
@[simp] theorem Bc.cursor_setWidth (b : Bc) : b.cursor.setWidth 32 = b.cur := by
  apply BitVec.eq_of_toNat_eq
  have h := b.cur.isLt
  rw [BitVec.toNat_setWidth, Bc.cursor_toNat]
  omega

/-- The cursor is a multiple of 4 exactly when `bc.cur` is. -/
theorem Bc.cursor_mod_four (b : Bc) : b.cursor.toNat % 4 = b.cur.toNat % 4 := by
  rw [Bc.cursor_toNat]
  omega

/-- Below the top of the address space the cursor is `bc.cur`. -/
theorem Bc.cursor_of_carry {b : Bc} (h : b.carry = 0) : b.cursor = b.cur.setWidth 33 := by
  apply BitVec.eq_of_toNat_eq
  have hlt := b.cur.isLt
  rw [Bc.cursor_toNat, h, BitVec.toNat_setWidth, Nat.mod_eq_of_lt (by omega)]
  simp

@[simp] theorem Bc.cursor_setCursor (b : Bc) (v : WideAddr) : (b.setCursor v).cursor = v :=
  BitVec.extractLsb'_append_extractLsb'_eq_extractLsb' rfl |>.trans BitVec.extractLsb'_eq_self

@[simp] theorem Bc.setCursor_cur (b : Bc) (v : WideAddr) :
    (b.setCursor v).cur = v.extractLsb' 0 32 := rfl
@[simp] theorem Bc.setCursor_carry (b : Bc) (v : WideAddr) :
    (b.setCursor v).carry = v.extractLsb' 32 1 := rfl
@[simp] theorem Bc.setCursor_mode (b : Bc) (v : WideAddr) : (b.setCursor v).mode = b.mode := rfl
@[simp] theorem Bc.setCursor_stop (b : Bc) (v : WideAddr) : (b.setCursor v).stop = b.stop := rfl
@[simp] theorem Bc.setCursor_lim (b : Bc) (v : WideAddr) : (b.setCursor v).lim = b.lim := rfl
@[simp] theorem Bc.setCursor_acc (b : Bc) (v : WideAddr) : (b.setCursor v).acc = b.acc := rfl
@[simp] theorem Bc.setCursor_fill (b : Bc) (v : WideAddr) : (b.setCursor v).fill = b.fill := rfl

/-- Where each update of unit BC leaves the cursor (spec/40_bit_channel.md R121, R122, R126, R131). -/
@[simp] theorem bcFlushed_cursor (b : Bc) : (bcFlushed b).cursor = b.cursor + 4 :=
  Bc.cursor_setCursor b _
@[simp] theorem bcLoaded_cursor (w : Word) (b : Bc) : (bcLoaded w b).cursor = b.cursor + 4 :=
  Bc.cursor_setCursor b _
@[simp] theorem bcPlaced_cursor (bit : Bool) (b : Bc) : (bcPlaced bit b).cursor = b.cursor := rfl
/-- Placing a bit keeps the channel's mode and its limits. -/
@[simp] theorem bcPlaced_frame (bit : Bool) (b : Bc) :
    (bcPlaced bit b).mode = b.mode ∧ (bcPlaced bit b).lim = b.lim ∧
      (bcPlaced bit b).stop = b.stop := ⟨rfl, rfl, rfl⟩
@[simp] theorem bcPadded_cursor (b : Bc) : (bcPadded b).cursor = b.cursor := rfl
@[simp] theorem bcConsumed_cursor (b : Bc) : (bcConsumed b).cursor = b.cursor := rfl
@[simp] theorem bcClosed_cursor (b : Bc) : (bcClosed b).cursor = b.cursor := rfl
@[simp] theorem bcOpenedRead_cursor (base : Word) (stop : WideAddr) (b : Bc) :
    (bcOpenedRead base stop b).cursor = base.setWidth 33 := Bc.cursor_of_carry rfl
@[simp] theorem bcOpenedWrite_cursor (base : Word) (lim : WideAddr) (b : Bc) :
    (bcOpenedWrite base lim b).cursor = base.setWidth 33 := Bc.cursor_of_carry rfl

/-! ## Unit BC -/

section
variable {α : Type}

@[simp] theorem inMode_pos {m : BcMode} {s : State} (r : Res α) (h : s.bc.mode = m) :
    inMode m s r = r := if_pos h

@[simp] theorem inMode_neg {m : BcMode} {s : State} (r : Res α) (h : s.bc.mode ≠ m) :
    inMode m s r = .refused (.wrongMode s.bc.mode) := if_neg h

theorem inMode_eq_ok {m : BcMode} {s t : State} {r : Res α} {v : α} :
    inMode m s r = .ok v t ↔ s.bc.mode = m ∧ r = .ok v t := by
  unfold inMode
  split <;> simp_all

theorem inMode_eq_raised {m : BcMode} {s t : State} {r : Res α} :
    inMode m s r = .raised t ↔ s.bc.mode = m ∧ r = .raised t := by
  unfold inMode
  split <;> simp_all

end

/-- All a completed flush does (spec/40_bit_channel.md R126). -/
theorem flush_eq_ok {s t : State} {u : Unit} :
    flush s = .ok u t ↔
      s.bc.mode = .write ∧ s.bc.cursor.toNat + 4 ≤ s.bc.lim.toNat ∧ s.bc.cursor.toNat % 4 = 0 ∧
        s.bc.cursor.toNat < Config.addressSpace ∧
        t = (s.setMem (s.mem.setWord s.bc.cursor.toNat s.bc.acc)).setBc (bcFlushed s.bc) := by
  unfold flush
  rw [inMode_eq_ok]
  split
  · simp only [reduceCtorEq, and_false, false_iff, not_and]
    intros
    omega
  · simp only [Res.bind_eq_ok, memWriteWord_eq_ok]
    constructor
    · rintro ⟨hm, -, _, ⟨h4, hlt, rfl⟩, h⟩
      exact ⟨hm, by omega, h4, hlt, by simpa using h.symm⟩
    · rintro ⟨hm, -, h4, hlt, rfl⟩
      exact ⟨hm, (), _, ⟨h4, hlt, rfl⟩, rfl⟩

/-- A flush raises exactly for want of room, and then nothing has changed
(spec/40_bit_channel.md R126). -/
theorem flush_eq_raised {s t : State} :
    flush s = .raised t ↔
      s.bc.mode = .write ∧ s.bc.lim.toNat < s.bc.cursor.toNat + 4 ∧ t = s := by
  unfold flush
  rw [inMode_eq_raised]
  split
  · simp_all [eq_comm]
  · simp only [Res.bind_eq_raised, memWriteWord_ne_raised, false_or, reduceCtorEq, and_false,
      exists_false, false_iff, not_and]
    intros
    omega

/-- All a completed putbit does (spec/40_bit_channel.md R127). -/
theorem putBit_eq_ok {bit : Bool} {s t : State} {u : Unit} :
    putBit bit s = .ok u t ↔
      s.bc.mode = .write ∧
        (s.bc.fill.toNat < 31 ∧ t = s.setBc (bcPlaced bit s.bc) ∨
          s.bc.fill.toNat = 31 ∧ flush (s.setBc (bcPlaced bit s.bc)) = .ok u t) := by
  unfold putBit
  rw [inMode_eq_ok]
  split
  · simp only [reduceCtorEq, and_false, false_iff, not_and, not_or]
    intros
    constructor <;> intros <;> omega
  · split
    · next h => simp [h]
    · next h1 h2 =>
      simp only [Res.ok.injEq, true_and]
      constructor
      · rintro ⟨hm, rfl⟩
        exact ⟨hm, .inl ⟨by omega, rfl⟩⟩
      · rintro ⟨hm, ⟨-, rfl⟩ | ⟨h, -⟩⟩
        · exact ⟨hm, rfl⟩
        · exact absurd h h2

/-- A putbit raises exactly when it fills a word there is no room for: the bit is in the
accumulator, the word is not stored (spec/40_bit_channel.md R126, R127). -/
theorem putBit_eq_raised {bit : Bool} {s t : State} :
    putBit bit s = .raised t ↔
      s.bc.mode = .write ∧ s.bc.fill.toNat = 31 ∧ s.bc.lim.toNat < s.bc.cursor.toNat + 4 ∧
        t = s.setBc (bcPlaced bit s.bc) := by
  unfold putBit
  rw [inMode_eq_raised]
  split
  · simp only [reduceCtorEq, and_false, false_iff, not_and]
    intros
    omega
  · split
    · next h =>
      rw [flush_eq_raised]
      simp [h]
    · next h => simp [h]

/-- The bits of a list are put one after another. -/
theorem putBits_append (l m : List Bool) (s : State) :
    putBits (l ++ m) s = (putBits l s).bind fun _ t => putBits m t := by
  induction l generalizing s with
  | nil => rfl
  | cons b rest ih =>
    simp only [List.cons_append, putBits, Res.bind_assoc]
    congr 1
    funext _ t
    exact ih t

/-- What writing bits may change: the cursor, accumulator and counter of unit BC, and memory. -/
theorem putBits_frame {bits : List Bool} {s t : State} {u : Unit}
    (h : putBits bits s = .ok u t ∨ putBits bits s = .raised t) :
    t = { s with
      bc := { s.bc with cur := t.bc.cur, carry := t.bc.carry, acc := t.bc.acc, fill := t.bc.fill }, mem := t.mem } := by
  induction bits generalizing s with
  | nil =>
    rcases h with h | h
    · cases h; rfl
    · cases h
  | cons b rest ih =>
    have one : ∀ {r : State} {v : Unit}, putBit b s = .ok v r → r = { s with
        bc := { s.bc with cur := r.bc.cur, carry := r.bc.carry, acc := r.bc.acc, fill := r.bc.fill }
        mem := r.mem } := by
      intro r v hr
      obtain ⟨-, ⟨-, rfl⟩ | ⟨-, hf⟩⟩ := putBit_eq_ok.1 hr
      · rfl
      · obtain ⟨-, -, -, -, rfl⟩ := flush_eq_ok.1 hf
        rfl
    simp only [putBits, Res.bind_eq_ok, Res.bind_eq_raised] at h
    obtain ⟨v, r, hr, ht⟩ | hraised | ⟨v, r, hr, ht⟩ := h
    · rw [ih (.inl ht), one hr]
    · obtain ⟨-, -, -, rfl⟩ := putBit_eq_raised.1 hraised
      rfl
    · rw [ih (.inr ht), one hr]

/-- All a reload does (spec/40_bit_channel.md R131). -/
theorem reload_eq_ok {s t : State} {u : Unit} :
    reload s = .ok u t ↔
      s.bc.mode = .read ∧
        (s.bc.cursor.toNat + 4 ≤ s.bc.stop.toNat ∧ s.bc.cursor.toNat % 4 = 0 ∧
            s.bc.cursor.toNat < Config.addressSpace ∧
            t = s.setBc (bcLoaded (s.mem.wordAt s.bc.cursor.toNat) s.bc) ∨
          s.bc.stop.toNat < s.bc.cursor.toNat + 4 ∧ t = s.setBc (bcPadded s.bc)) := by
  unfold reload
  rw [inMode_eq_ok]
  split
  · next hroom =>
    simp only [Res.bind_eq_ok, memReadWord_eq_ok]
    constructor
    · rintro ⟨hm, _, _, ⟨h4, hlt, rfl, rfl⟩, h⟩
      exact ⟨hm, .inl ⟨hroom, h4, hlt, by simpa using h.symm⟩⟩
    · rintro ⟨hm, ⟨-, h4, hlt, rfl⟩ | ⟨h, -⟩⟩
      · exact ⟨hm, _, _, ⟨h4, hlt, rfl, rfl⟩, rfl⟩
      · omega
  · next hroom =>
    simp only [Res.ok.injEq, true_and]
    constructor
    · rintro ⟨hm, rfl⟩
      exact ⟨hm, .inr ⟨by omega, rfl⟩⟩
    · rintro ⟨hm, ⟨h, -⟩ | ⟨-, rfl⟩⟩
      · omega
      · exact ⟨hm, rfl⟩

/-- Nothing on the reading side raises (spec/60_exceptions.md R220). -/
theorem reload_ne_raised (s t : State) : reload s ≠ .raised t := by
  unfold reload
  simp only [ne_eq, inMode_eq_raised, not_and]
  intro
  split
  · simp [Res.bind_eq_raised, memReadWord_ne_raised]
  · simp

/-- All a getbit does (spec/40_bit_channel.md R128). -/
theorem getBit_eq_ok {s t : State} {b : Bool} :
    getBit s = .ok b t ↔
      s.bc.mode = .read ∧ b = s.bc.acc.getLsbD 0 ∧
        (s.bc.fill.toNat < 31 ∧ t = s.setBc (bcConsumed s.bc) ∨
          s.bc.fill.toNat = 31 ∧ reload (s.setBc (bcConsumed s.bc)) = .ok () t) := by
  unfold getBit
  rw [inMode_eq_ok]
  split
  · simp only [reduceCtorEq, and_false, false_iff, not_and, not_or]
    intros
    constructor <;> intros <;> omega
  · split
    · next h =>
      simp only [Res.bind_eq_ok, h, lt_irrefl, false_and, false_or, true_and]
      constructor
      · rintro ⟨hm, u, _, hr, h2⟩
        cases h2
        exact ⟨hm, rfl, hr⟩
      · rintro ⟨hm, rfl, hr⟩
        exact ⟨hm, (), t, hr, rfl⟩
    · next h1 h2 =>
      simp only [Res.ok.injEq]
      constructor
      · rintro ⟨hm, rfl, rfl⟩
        exact ⟨hm, rfl, .inl ⟨by omega, rfl⟩⟩
      · rintro ⟨hm, rfl, ⟨-, rfl⟩ | ⟨h, -⟩⟩
        · exact ⟨hm, rfl, rfl⟩
        · exact absurd h h2

theorem getBit_ne_raised (s t : State) : getBit s ≠ .raised t := by
  unfold getBit
  simp only [ne_eq, inMode_eq_raised, not_and]
  intro
  split
  · simp
  · split
    · simp [Res.bind_eq_raised, reload_ne_raised]
    · simp

theorem getField_ne_raised (n : Nat) (s t : State) : getField n s ≠ .raised t := by
  induction n generalizing s with
  | zero => simp [getField]
  | succ n ih => simp [getField, Res.bind_eq_raised, getBit_ne_raised, ih]

theorem scanUnary_ne_raised (n : Nat) (s t : State) : scanUnary n s ≠ .raised t := by
  induction n generalizing s with
  | zero => simp [scanUnary]
  | succ n ih =>
    simp only [scanUnary, ne_eq, Res.bind_eq_raised, getBit_ne_raised, false_or, not_exists,
      not_and]
    intro b r _
    split
    · simp
    · simp [Res.bind_eq_raised, ih]

/-- What a reload changes: unit BC alone, its mode and its end kept. -/
theorem reload_frame {s t : State} {u : Unit} (h : reload s = .ok u t) :
    t = { s with bc := { s.bc with cur := t.bc.cur, carry := t.bc.carry, acc := t.bc.acc, fill := t.bc.fill } } := by
  obtain ⟨-, ⟨-, -, -, rfl⟩ | ⟨-, rfl⟩⟩ := reload_eq_ok.1 h <;> rfl

/-- What consuming a bit changes. -/
theorem getBit_frame {s t : State} {b : Bool} (h : getBit s = .ok b t) :
    t = { s with bc := { s.bc with cur := t.bc.cur, carry := t.bc.carry, acc := t.bc.acc, fill := t.bc.fill } } := by
  obtain ⟨-, -, ⟨-, rfl⟩ | ⟨-, hr⟩⟩ := getBit_eq_ok.1 h
  · rfl
  · rw [reload_frame hr]
    rfl

/-- All a completed `BC.OPEN_W` does (spec/40_bit_channel.md R122). -/
theorem openWrite_eq_ok {base : Word} {lim : WideAddr} {s t : State} {u : Unit} :
    openWrite base lim s = .ok u t ↔
      base.toNat % 4 = 0 ∧ base.toNat ≤ lim.toNat ∧ t = s.setBc (bcOpenedWrite base lim s.bc) := by
  have ok : writeRegionOk base lim = true ↔ base.toNat % 4 = 0 ∧ base.toNat ≤ lim.toNat := by
    simp [writeRegionOk]
  unfold openWrite
  split
  · next h =>
    rw [Res.ok.injEq]
    exact ⟨fun h2 => ⟨(ok.1 h).1, (ok.1 h).2, h2.2.symm⟩, fun h2 => ⟨rfl, h2.2.2.symm⟩⟩
  · next h => exact ⟨(nomatch ·), fun h2 => absurd (ok.2 ⟨h2.1, h2.2.1⟩) h⟩

/-- All a `BC.OPEN_R` does (spec/40_bit_channel.md R121): a reload of the region bound. -/
theorem openRead_eq_ok {base : Word} {stop : WideAddr} {s t : State} {u : Unit} :
    openRead base stop s = .ok u t ↔
      readRegionOk base stop = true ∧ reload (s.setBc (bcOpenedRead base stop s.bc)) = .ok u t := by
  unfold openRead
  split <;> simp_all

/-- All a completed `BC.CLOSE_W` does (spec/40_bit_channel.md R134). -/
theorem closeWrite_eq_ok {s t : State} {u : Unit} :
    closeWrite s = .ok u t ↔
      s.bc.mode = .write ∧
        (s.bc.fill.toNat = 0 ∧ t = s.setBc (bcClosed s.bc) ∨
          0 < s.bc.fill.toNat ∧ ∃ r, flush s = .ok () r ∧ t = r.setBc (bcClosed r.bc)) := by
  unfold closeWrite
  rw [inMode_eq_ok]
  split
  · next h =>
    rw [Res.bind_eq_ok]
    constructor
    · rintro ⟨hm, _, r, hr, h2⟩
      cases h2
      exact ⟨hm, .inr ⟨h, r, hr, rfl⟩⟩
    · rintro ⟨hm, ⟨h2, -⟩ | ⟨-, r, hr, rfl⟩⟩
      · exact absurd h2 (Nat.ne_of_gt h)
      · exact ⟨hm, (), r, hr, rfl⟩
  · next h =>
    constructor
    · rintro ⟨hm, h2⟩
      cases h2
      exact ⟨hm, .inl ⟨Nat.eq_zero_of_not_pos h, rfl⟩⟩
    · rintro ⟨hm, ⟨-, rfl⟩ | ⟨h2, -⟩⟩
      · exact ⟨hm, rfl⟩
      · exact absurd h2 h

/-! ## The engine -/

/-- An engine that does not run stays as it is. -/
theorem engineRun_stopped {n : Nat} {s : State} (h : s.pl.state ≠ .running) :
    engineRun n s = .next s := by
  cases n with
  | zero => rfl
  | succ n => exact if_neg h

/-- An engine that runs makes one step, then goes on. -/
theorem engineRun_running {n : Nat} {s t : State} (h : s.pl.state = .running)
    (hs : engineStep s = .next t) : engineRun (n + 1) s = engineRun n t := by
  rw [engineRun, if_pos h, hs]

/-- All a command given to a block that is not running does: rejected, it is over at once;
accepted, the engine runs (spec/44_pipeline.md R195). -/
theorem runCommand_cases {op : PlOp} {s : State} (h : s.pl.state ≠ .running) :
    (∃ c, acceptanceFault op s = some c ∧ runCommand op s = .next (takeFault c s)) ∨
      acceptanceFault op s = none ∧
        runCommand op s = engineRun (commandBound s) (acceptCommand op s) := by
  unfold runCommand submit
  rw [if_neg h, if_neg h]
  cases hc : acceptanceFault op s with
  | some c =>
    refine .inl ⟨c, rfl, engineRun_stopped ?_⟩
    cases c <;> simp [takeFault]
  | none => exact .inr ⟨rfl, rfl⟩

/-! ## Taking a fault, and the return from one -/

@[simp] theorem takeFault_bc (c : FaultCode) (s : State) : (takeFault c s).bc = s.bc := rfl
@[simp] theorem takeFault_rm (c : FaultCode) (s : State) : (takeFault c s).rm = s.rm := rfl
@[simp] theorem takeFault_est (c : FaultCode) (s : State) : (takeFault c s).est = s.est := rfl
@[simp] theorem takeFault_mem (c : FaultCode) (s : State) : (takeFault c s).mem = s.mem := rfl
@[simp] theorem takeFault_prog (c : FaultCode) (s : State) : (takeFault c s).prog = s.prog := rfl
@[simp] theorem takeFault_bus (c : FaultCode) (s : State) : (takeFault c s).bus = s.bus := rfl
@[simp] theorem takeFault_host (c : FaultCode) (s : State) : (takeFault c s).host = s.host := rfl
@[simp] theorem takeFault_rdata (c : FaultCode) (s : State) :
    (takeFault c s).rdata = s.rdata := rfl
@[simp] theorem takeFault_result (c : FaultCode) (s : State) :
    (takeFault c s).result = s.result := rfl
@[simp] theorem takeFault_free (c : FaultCode) (s : State) : (takeFault c s).free = s.free := rfl

/-- Entry at acceptance: the code and the state, nothing else (spec/60_exceptions.md R221). -/
theorem takeFault_rejected {c : FaultCode} {s : State} (h : c ≠ .bufferTooSmall) :
    takeFault c s = s.setPl { s.pl with err := errValue c, state := .faulted } := by
  cases c <;> first | rfl | exact absurd rfl h

/-- Entry at run time: the two cursors besides (spec/60_exceptions.md R222). -/
theorem takeFault_bufferTooSmall (s : State) :
    takeFault .bufferTooSmall s =
      (s.setPl { s.pl with err := 4, state := .faulted }).setRegs
        { s.regs with
          outEnd := (faultOutputCursor s).setWidth 32
          inCur := (faultInputCursor s).setWidth 32 } := rfl

/-- The return: the command, no error, `Running` (spec/60_exceptions.md R225). -/
theorem acceptCommand_eq (op : PlOp) (s : State) :
    acceptCommand op s = { s with
      pl := { s.pl with op := op, err := 0, state := .running }, prog := .notStarted } := rfl

/-- All a command submitted to a block that is not running does (spec/44_pipeline.md R195). -/
theorem submit_cases {op : PlOp} {s : State} (h : s.pl.state ≠ .running) :
    (∃ c, acceptanceFault op s = some c ∧ submit op s = takeFault c s) ∨
      acceptanceFault op s = none ∧ submit op s = acceptCommand op s := by
  unfold submit
  rw [if_neg h]
  cases hc : acceptanceFault op s with
  | some c => exact .inl ⟨c, rfl, rfl⟩
  | none => exact .inr ⟨rfl, rfl⟩

/-- A block that runs ignores a command (spec/10_state.md R53). -/
theorem submit_running {op : PlOp} {s : State} (h : s.pl.state = .running) : submit op s = s :=
  if_pos h

/-- The acceptance checks give code 2 or 3 only (spec/44_pipeline.md R196). -/
theorem acceptanceFault_cases {op : PlOp} {s : State} {c : FaultCode}
    (h : acceptanceFault op s = some c) : c = .notInitialized ∨ c = .invalidArgument := by
  unfold acceptanceFault sessionCheck at h
  cases op <;> simp only [reduceCtorEq] at h <;> (repeat' split at h) <;> simp_all

/-! ## The host's side -/

/-- All a host read does (spec/10_state.md R40, R53). -/
theorem hostRead_eq_next {off : Nat} {s t : State} :
    hostRead off s = .next t ↔
      registerAccessOk off = true ∧
        (s.pl.state = .running ∧ off ≠ 0x04 ∧
            t = (s.setRdata (Config.busyRead s.free)).setFree (s.free + 1) ∨
          ¬(s.pl.state = .running ∧ off ≠ 0x04) ∧ t = s.setRdata (registerValue off s)) := by
  unfold hostRead
  split
  · next h1 =>
    split
    · next h2 => simp [h1, h2, eq_comm]
    · next h2 =>
      simp only [h1, h2, true_and, not_false_eq_true, Host.Outcome.next.injEq]
      constructor
      · rintro rfl
        exact .inr rfl
      · rintro (⟨h3, h4, -⟩ | rfl)
        · exact absurd ⟨h3, h4⟩ h2
        · rfl
  · next h1 => simp [h1]

/-- All a host write does (spec/10_state.md R40, R41, R53). -/
theorem hostWrite_eq_next {off : Nat} {v : Word} {s t : State} :
    hostWrite off v s = .next t ↔
      registerAccessOk off = true ∧
        (s.pl.state = .running ∧ t = s ∨
          s.pl.state ≠ .running ∧ off = 0 ∧ t = submitWord v s ∨
          s.pl.state ≠ .running ∧ off ≠ 0 ∧ t = s.setRegs (regsWritten off v s.regs)) := by
  unfold hostWrite
  split
  · next h1 =>
    split
    · next h2 => simp [h1, h2, eq_comm]
    · next h2 =>
      split
      · next h3 => subst h3; simp [h1, h2, eq_comm]
      · next h3 => simp [h1, h2, h3, eq_comm]
  · next h1 => simp [h1]

/-- All a host store does (spec/30_encoding.md R111). -/
theorem hostStore_eq_next {addr : Nat} {bytes : List Byte} {s t : State} :
    hostStore addr bytes s = .next t ↔
      addr + bytes.length ≤ Config.addressSpace ∧ t = s.setMem (s.mem.setBytes addr bytes) := by
  unfold hostStore
  split <;> simp_all [eq_comm]

/-- `DONE` is up in `Done` and in `Faulted` (spec/10_state.md R42). -/
@[simp] theorem flagDone_iff (s : State) :
    flagDone s = true ↔ s.pl.state = .done ∨ s.pl.state = .faulted := by
  simp [flagDone]

/-- All a `WAIT` does: it reads `STATUS`, and is over with `DONE = 1`; else the engine moves if it
runs, and the `WAIT` stays (spec/70_reset_and_hazards.md R257). -/
theorem hostWait_cases (rest : List HostAction) (s : State) :
    (s.pl.state = .done ∨ s.pl.state = .faulted) ∧
        hostWait rest s = .next ((s.setRdata (statusWord s)).setHost rest) ∨
      s.pl.state = .running ∧ hostWait rest s = engineStep (s.setRdata (statusWord s)) ∨
      s.pl.state = .idle ∧ hostWait rest s = .next (s.setRdata (statusWord s)) := by
  unfold hostWait engineMoves
  cases h : s.pl.state <;> simp [h]

/-- All a step can do: perform what it fetched, or else the host's action or the engine's step. -/
theorem step_cases (s : State) :
    (∃ o, s.bus = some o ∧ step s = runPacket (.op o) (s.setBus none)) ∨
      s.bus = none ∧
        ((∃ w rest, s.host = .cmd w :: rest ∧ step s = runPacket (.cmd w) (s.setHost rest)) ∨
          (∃ off v rest, s.host = .wr off v :: rest ∧ step s = hostWrite off v (s.setHost rest)) ∨
          (∃ off rest, s.host = .rd off :: rest ∧ step s = hostRead off (s.setHost rest)) ∨
          (∃ rest, s.host = .wait :: rest ∧ step s = hostWait rest s) ∨
          (∃ rest, s.host = .idle :: rest ∧ step s = engineMoves (s.setHost rest)) ∨
          (∃ a bytes rest, s.host = .mem a bytes :: rest ∧
            step s = hostStore a bytes (s.setHost rest)) ∨
          (∃ rest, s.host = .rst :: rest ∧ step s = .next (hardwareReset (s.setHost rest))) ∨
          s.host = [] ∧ step s = engineMoves s) := by
  unfold step stepBody fetch hostStep
  cases hb : s.bus with
  | some o => exact .inl ⟨o, rfl, rfl⟩
  | none =>
    refine .inr ⟨rfl, ?_⟩
    rcases hh : s.host with _ | ⟨a, rest⟩
    · simp
    · cases a <;> simp

end Sys2Proof.Machine
end

