-- ==== Sys2Proof/Laws/RankTables.lean ====
section
/-! SUPPORT. The laws of the tables of unit RM: read after write, and that a write keeps the
canonical form. -/

namespace Sys2Proof.Machine

theorem tableKey_inj {x y i j : Byte} : tableKey x i = tableKey y j ↔ x = y ∧ i = j := by
  constructor
  · intro h
    have hi := i.isLt
    have hj := j.isLt
    simp only [tableKey] at h
    exact ⟨BitVec.eq_of_toNat_eq (by omega), BitVec.eq_of_toNat_eq (by omega)⟩
  · rintro ⟨rfl, rfl⟩
    rfl

theorem tableKey_lt (x i : Byte) : tableKey x i < tableSize := by
  have hx := x.isLt
  have hi := i.isLt
  simp only [tableKey, tableSize]
  omega

/-- A key of one pair is not the key of another. -/
theorem tableKey_ne {x y i j : Byte} (h : ¬(y = x ∧ j = i)) : tableKey y j ≠ tableKey x i :=
  fun h' => h (tableKey_inj.1 h')

/-! ## One lemma per table per write -/

@[simp] theorem Rm.setFreq_base (m : Rm) (x i : Byte) (v : BitVec 32) :
    (m.setFreq x i v).base = m.base := rfl
@[simp] theorem Rm.setSym_base (m : Rm) (x i v : Byte) : (m.setSym x i v).base = m.base := rfl
@[simp] theorem Rm.setRank_base (m : Rm) (x i v : Byte) : (m.setRank x i v).base = m.base := rfl
@[simp] theorem Rm.setFreq_symAt (m : Rm) (x i y j : Byte) (v : BitVec 32) :
    (m.setFreq x i v).symAt y j = m.symAt y j := rfl
@[simp] theorem Rm.setFreq_rankOf (m : Rm) (x i y j : Byte) (v : BitVec 32) :
    (m.setFreq x i v).rankOf y j = m.rankOf y j := rfl
@[simp] theorem Rm.setSym_freqAt (m : Rm) (x i v y j : Byte) :
    (m.setSym x i v).freqAt y j = m.freqAt y j := rfl
@[simp] theorem Rm.setSym_rankOf (m : Rm) (x i v y j : Byte) :
    (m.setSym x i v).rankOf y j = m.rankOf y j := rfl
@[simp] theorem Rm.setRank_freqAt (m : Rm) (x i v y j : Byte) :
    (m.setRank x i v).freqAt y j = m.freqAt y j := rfl
@[simp] theorem Rm.setRank_symAt (m : Rm) (x i v y j : Byte) :
    (m.setRank x i v).symAt y j = m.symAt y j := rfl

/-- What a write of one frequency does to every frequency. -/
theorem Rm.freqAt_setFreq (m : Rm) (x i y j : Byte) (v : BitVec 32) :
    (m.setFreq x i v).freqAt y j = if y = x ∧ j = i then v else m.freqAt y j := by
  split
  · next h => rw [h.1, h.2]; exact lookupCell_writeCell_same _ v _ m.freq
  · next h => exact lookupCell_writeCell_other v _ _ m.freq (tableKey_ne h)

/-- What a write of one entry of `rm.r2s` does to every entry. -/
theorem Rm.symAt_setSym (m : Rm) (x i v y j : Byte) :
    (m.setSym x i v).symAt y j = if y = x ∧ j = i then v else m.symAt y j := by
  split
  · next h => rw [h.1, h.2]; exact lookupCell_writeCell_same _ v _ m.r2s
  · next h => exact lookupCell_writeCell_other v _ _ m.r2s (tableKey_ne h)

/-- What a write of one entry of `rm.s2r` does to every entry. -/
theorem Rm.rankOf_setRank (m : Rm) (x i v y j : Byte) :
    (m.setRank x i v).rankOf y j = if y = x ∧ j = i then v else m.rankOf y j := by
  split
  · next h => rw [h.1, h.2]; exact lookupCell_writeCell_same _ v _ m.s2r
  · next h => exact lookupCell_writeCell_other v _ _ m.s2r (tableKey_ne h)

/-! ## The exchange of two ranks -/

@[simp] theorem exchangeRanks_base (m : Rm) (x sym t r q : Byte) :
    (exchangeRanks m x sym t r q).base = m.base := rfl

@[simp] theorem exchangeRanks_freqAt (m : Rm) (x sym t r q y j : Byte) :
    (exchangeRanks m x sym t r q).freqAt y j = m.freqAt y j := rfl

theorem exchangeRanks_symAt (m : Rm) (x sym t r q y j : Byte) :
    (exchangeRanks m x sym t r q).symAt y j =
      if y = x ∧ j = r then t else if y = x ∧ j = q then sym else m.symAt y j := by
  simp only [exchangeRanks, Rm.setRank_symAt, Rm.symAt_setSym]

theorem exchangeRanks_rankOf (m : Rm) (x sym t r q y j : Byte) :
    (exchangeRanks m x sym t r q).rankOf y j =
      if y = x ∧ j = t then r else if y = x ∧ j = sym then q else m.rankOf y j := by
  simp only [exchangeRanks, Rm.rankOf_setRank, Rm.setSym_rankOf]

/-! ## The canonical form -/

theorem Rm.wf_iff (m : Rm) : m.wf = true ↔
    cellsCanonical tableSize (freqUnlisted m.base) m.freq = true ∧
      cellsCanonical tableSize (r2sUnlisted m.base) m.r2s = true ∧
      cellsCanonical tableSize (s2rUnlisted m.base) m.s2r = true := by
  simp [Rm.wf, and_assoc]

theorem Rm.wf_setFreq {m : Rm} (x i : Byte) (v : BitVec 32) (h : m.wf = true) :
    (m.setFreq x i v).wf = true :=
  let ⟨hf, hr, hs⟩ := m.wf_iff.1 h
  (Rm.wf_iff _).2 ⟨cellsCanonical_writeCell v (tableKey_lt x i) hf, hr, hs⟩

theorem Rm.wf_setSym {m : Rm} (x i v : Byte) (h : m.wf = true) : (m.setSym x i v).wf = true :=
  let ⟨hf, hr, hs⟩ := m.wf_iff.1 h
  (Rm.wf_iff _).2 ⟨hf, cellsCanonical_writeCell v (tableKey_lt x i) hr, hs⟩

theorem Rm.wf_setRank {m : Rm} (x i v : Byte) (h : m.wf = true) : (m.setRank x i v).wf = true :=
  let ⟨hf, hr, hs⟩ := m.wf_iff.1 h
  (Rm.wf_iff _).2 ⟨hf, hr, cellsCanonical_writeCell v (tableKey_lt x i) hs⟩

theorem wf_exchangeRanks {m : Rm} (x sym t r q : Byte) (h : m.wf = true) :
    (exchangeRanks m x sym t r q).wf = true :=
  Rm.wf_setRank x t r (Rm.wf_setRank x sym q (Rm.wf_setSym x r t (Rm.wf_setSym x q sym h)))

theorem wf_observed {m : Rm} (x sym : Byte) (h : m.wf = true) : (observed m x sym).wf = true := by
  unfold observed
  dsimp only
  split
  · exact Rm.wf_setFreq x sym _ h
  · exact wf_exchangeRanks _ _ _ _ _ (Rm.wf_setFreq x sym _ h)

theorem Rm.wf_reset (e : Nat) : (Rm.reset e).wf = true := rfl
theorem wf_rmInitialised : rmInitialised.wf = true := rfl

/-- The scan of `RM.OBSERVE` ends at a rank no larger than where it began, at 0 or right after an
entry whose frequency is at least `f`; every entry it passed is below `f`
(spec/41_rank_model.md R154). -/
theorem scanRank_spec (m : Rm) (x : Byte) (f r : Nat) :
    scanRank m x f r ≤ r ∧
      (∀ q, scanRank m x f r ≤ q → q < r →
        (m.freqAt x (m.symAt x (BitVec.ofNat 8 q))).toNat < f) ∧
      (0 < scanRank m x f r →
        f ≤ (m.freqAt x (m.symAt x (BitVec.ofNat 8 (scanRank m x f r - 1)))).toNat) := by
  induction r with
  | zero =>
    exact ⟨le_rfl, fun q _ h => absurd h (Nat.not_lt_zero q),
      fun h => absurd h (by simp [scanRank])⟩
  | succ r ih =>
    unfold scanRank
    split
    · next h =>
      refine ⟨ih.1.trans (Nat.le_succ r), fun q hq hqr => ?_, ih.2.2⟩
      rcases Nat.lt_succ_iff_lt_or_eq.1 hqr with hqr | rfl
      · exact ih.2.1 q hq hqr
      · exact h
    · next h => exact ⟨le_rfl, fun q h1 h2 => absurd h2 (by omega), fun _ => by simpa using h⟩

end Sys2Proof.Machine
end

