-- ==== Sys2Proof/Laws/Sessions.lean ====
section
/-! SUPPORT. Laws of what a session codes and learns: symbol by symbol, the first symbols apart from
the rest, and the stream as the symbols' code words with the marker's after them. -/

namespace Sys2Proof.Machine

@[simp] theorem rmAfter_nil (m : Rm) (x : Byte) : rmAfter m x [] = m := rfl
@[simp] theorem rmAfter_cons (m : Rm) (x c : Byte) (l : List Byte) :
    rmAfter m x (c :: l) = rmAfter (observed m x c) c l := rfl

@[simp] theorem estAfter_nil (m : Rm) (e : Est) (x : Byte) : estAfter m e x [] = e := rfl
@[simp] theorem estAfter_cons (m : Rm) (e : Est) (x c : Byte) (l : List Byte) :
    estAfter m e x (c :: l) =
      estAfter (observed m x c) (estUpdated e (m.rankOf x c).toNat) c l := rfl

@[simp] theorem symbolsBits_nil (m : Rm) (e : Est) (x : Byte) : symbolsBits m e x [] = [] := rfl
@[simp] theorem symbolsBits_cons (m : Rm) (e : Est) (x c : Byte) (l : List Byte) :
    symbolsBits m e x (c :: l) =
      codeWord e.k (m.rankOf x c).toNat ++
        symbolsBits (observed m x c) (estUpdated e (m.rankOf x c).toNat) c l := rfl

/-- The tables after two runs of symbols: those after the second, from where the first left them. -/
theorem rmAfter_append (m : Rm) (x : Byte) (l r : List Byte) :
    rmAfter m x (l ++ r) = rmAfter (rmAfter m x l) (l.getLastD x) r := by
  induction l generalizing m x with
  | nil => rfl
  | cons c l ih => simp only [List.cons_append, rmAfter_cons, List.getLastD_cons, ih]

/-- The estimator after two runs of symbols. -/
theorem estAfter_append (m : Rm) (e : Est) (x : Byte) (l r : List Byte) :
    estAfter m e x (l ++ r) =
      estAfter (rmAfter m x l) (estAfter m e x l) (l.getLastD x) r := by
  induction l generalizing m e x with
  | nil => rfl
  | cons c l ih => simp only [List.cons_append, rmAfter_cons, estAfter_cons, List.getLastD_cons, ih]

/-- The code words of two runs of symbols, one run's after the other's. -/
theorem symbolsBits_append (m : Rm) (e : Est) (x : Byte) (l r : List Byte) :
    symbolsBits m e x (l ++ r) =
      symbolsBits m e x l ++
        symbolsBits (rmAfter m x l) (estAfter m e x l) (l.getLastD x) r := by
  induction l generalizing m e x with
  | nil => rfl
  | cons c l ih =>
    simp only [List.cons_append, rmAfter_cons, estAfter_cons, symbolsBits_cons,
      List.append_assoc, List.getLastD_cons, ih]

/-- A session's stream is its symbols' code words and the marker's, under the `k` the symbols left
(spec/30_encoding.md R94). -/
theorem sessionBits_eq (m : Rm) (e : Est) (x : Byte) (l : List Byte) :
    sessionBits m e x l =
      symbolsBits m e x l ++ codeWord (estAfter m e x l).k Config.eosValue := by
  induction l generalizing m e x with
  | nil => rfl
  | cons c l ih => simp [sessionBits, ih]

end Sys2Proof.Machine
end

