-- ==== Sys2Proof/Tests/Slice0.lean ====
section
/-! SUPPORT. Tests on fixed values and the witnesses of the statements' hypotheses. Expected
values come from spec/95_test_vectors.md, named in each docstring, or from the rule cited; words of
the decode tests are written out from the tables of spec/30_encoding.md R104 and R108. -/

open Sys2Proof Sys2Proof.Machine

namespace Sys2Proof.Tests

-- One theorem after another: their kernel checks, all begun at once, would take a thread each.
set_option Elab.async false

/-! ## Helpers -/

/-- The next state of an outcome, when it has one. -/
def nextOf : Host.Outcome State Fault Refusal → Option State
  | .next s => some s
  | .fault _ => none
  | .refused _ => none

/-- The refusal of an outcome, when it has one. -/
def refusalOf : Host.Outcome State Fault Refusal → Option Refusal
  | .next _ => none
  | .fault _ => none
  | .refused r => some r

theorem next_of_isSome {o : Host.Outcome State Fault Refusal} (h : (nextOf o).isSome = true) :
    ∃ t, o = .next t := by
  cases o with
  | next s => exact ⟨s, rfl⟩
  | fault _ => cases h
  | refused _ => cases h

/-- The reset state with a list of words stored from an address. -/
def withWords (a : Nat) (ws : List Nat) : State :=
  State.reset.setMem ((ws.zipIdx).foldl
    (fun m w => m.setWord (a + 4 * w.2) (BitVec.ofNat 32 w.1)) State.reset.mem)

/-- A write channel of spec/95_test_vectors.md 2.1, with the accumulator and counter given. -/
def writing (cur lim : WideAddr) (acc : Word) (fill : BitVec 6) : State :=
  State.reset.setBc (Bc.setCursor ⟨.write, 0, 0, lim, acc, fill, 0⟩ cur)

/-- A read channel over the memory of `s`. -/
def reading (s : State) (cur stop : WideAddr) (acc : Word) (fill : BitVec 6) : State :=
  s.setBc (Bc.setCursor ⟨.read, 0, stop, 0, acc, fill, 0⟩ cur)

/-- A freshly initialised block with the registers given, over the memory of `s`. -/
def fresh (s : State) (inBase inLen outBase outCap : Word) : State :=
  { s with
    rm := rmInitialised, est := estInitialised
    pl := { s.pl with state := .done, op := .init, modelInit := true }
    regs := ⟨inBase, inLen, outBase, outCap, 0, 0⟩ }

/-- What is looked at in unit BC: mode, cursor, accumulator, counter. -/
def bcOf (s : State) : BcMode × Nat × Nat × Nat :=
  (s.bc.mode, s.bc.cursor.toNat, s.bc.acc.toNat, s.bc.fill.toNat)

/-- What the operation leaves in unit BC. -/
def bcAfter (i : Instr) (s : State) : Option (BcMode × Nat × Nat × Nat) :=
  (nextOf (exec i s)).map bcOf

/-- The words stored from an address after an operation. -/
def wordsAfter (i : Instr) (s : State) (a n : Nat) : Option (List Nat) :=
  (nextOf (exec i s)).map fun t => (List.range n).map fun j => (t.mem.wordAt (a + 4 * j)).toNat

/-- The result an operation latches. -/
def resultAfter (i : Instr) (s : State) : Option Nat := (nextOf (exec i s)).map (·.result)

/-! ## Well-formedness: each check refuses an ill-formed term -/

theorem test_wf_openR_misaligned : (Instr.bcOpenR 0x101 0x105).wf = false := by decide
theorem test_wf_openR_backwards : (Instr.bcOpenR 0x108 0x104).wf = false := by decide
theorem test_wf_openR_partial_word : (Instr.bcOpenR 0x100 0x106).wf = false := by decide
theorem test_wf_openW_misaligned : (Instr.bcOpenW 0x102 0x200).wf = false := by decide
theorem test_wf_openW_backwards : (Instr.bcOpenW 0x200 0x1FF).wf = false := by decide
theorem test_wf_wrfix_too_long : (Instr.bcWrfix 0 33).wf = false := by decide
theorem test_wf_rdfix_too_long : (Instr.bcRdfix 33).wf = false := by decide
theorem test_wf_update_marker : (Instr.estUpdate 256).wf = false := by decide
theorem test_wf_top_of_memory : (Instr.bcOpenR 0xFFFFFFFC 0x100000000).wf = true := by decide

/-! ## Decode: one word written out for every operation (spec/30_encoding.md R104, R108) -/

theorem test_decode_init : decode (.cmd 0x00000001) = .ok .init := by decide
theorem test_decode_compress : decode (.cmd 0x00000002) = .ok .compress := by decide
theorem test_decode_decompress : decode (.cmd 0x00000003) = .ok .decompress := by decide
theorem test_decode_openR :
    decode (.op ⟨0x10, 0x100, 0x100000000⟩) = .ok (.bcOpenR 0x100 0x100000000) := by decide
theorem test_decode_openW :
    decode (.op ⟨0x11, 0x2000, 0x2040⟩) = .ok (.bcOpenW 0x2000 0x2040) := by decide
theorem test_decode_put1 : decode (.op ⟨0x12, 0, 0⟩) = .ok .bcPut1 := by decide
theorem test_decode_wrfix :
    decode (.op ⟨0x13, 0xFFFFFFFF, 0x3⟩) = .ok (.bcWrfix 0xFFFFFFFF 3) := by decide
theorem test_decode_wrzero : decode (.op ⟨0x14, 0x46, 0⟩) = .ok (.bcWrzero 70) := by decide
theorem test_decode_flush : decode (.op ⟨0x15, 0, 0⟩) = .ok .bcFlush := by decide
theorem test_decode_rdfix : decode (.op ⟨0x16, 0x20, 0⟩) = .ok (.bcRdfix 32) := by decide
theorem test_decode_rdunary : decode (.op ⟨0x17, 0, 0⟩) = .ok .bcRdunary := by decide
theorem test_decode_reload : decode (.op ⟨0x18, 0, 0⟩) = .ok .bcReload := by decide
theorem test_decode_closeR : decode (.op ⟨0x19, 0, 0⟩) = .ok .bcCloseR := by decide
theorem test_decode_closeW : decode (.op ⟨0x1A, 0, 0⟩) = .ok .bcCloseW := by decide
theorem test_decode_encode :
    decode (.op ⟨0x20, 0x1F, 0xFFFFFFFF⟩) = .ok (.greEncode 31 0xFFFFFFFF) := by decide
theorem test_decode_decode : decode (.op ⟨0x30, 0x3, 0⟩) = .ok (.grdDecode 3) := by decide
theorem test_decode_rmInit : decode (.op ⟨0x40, 0, 0⟩) = .ok .rmInit := by decide
theorem test_decode_rankOf :
    decode (.op ⟨0x41, 0x12, 0x34⟩) = .ok (.rmRankOf 0x12 0x34) := by decide
theorem test_decode_symbolAt :
    decode (.op ⟨0x42, 0x12, 0x34⟩) = .ok (.rmSymbolAt 0x12 0x34) := by decide
theorem test_decode_observe :
    decode (.op ⟨0x43, 0x00, 0x05⟩) = .ok (.rmObserve 0 5) := by decide
theorem test_decode_estInit : decode (.op ⟨0x50, 0, 0⟩) = .ok .estInit := by decide
theorem test_decode_update : decode (.op ⟨0x51, 0x41, 0⟩) = .ok (.estUpdate 65) := by decide

/-- Vector A3, A4 of spec/95_test_vectors.md 2.5: reserved command words. -/
theorem test_decode_reserved_command :
    decode (.cmd 0x00000000) = .error (.reservedCommand 0) ∧
    decode (.cmd 0x00000011) = .error (.reservedCommand 0x11) ∧
    decode (.cmd 0x00000004) = .error (.reservedCommand 4) := by decide

/-- Reserved operation codes at the edges of each unit (spec/30_encoding.md R109). -/
theorem test_decode_reserved_operation :
    decode (.op ⟨0x00, 0, 0⟩) = .error (.reservedOperation 0x00) ∧
    decode (.op ⟨0x04, 0, 0⟩) = .error (.reservedOperation 0x04) ∧
    decode (.op ⟨0x1B, 0, 0⟩) = .error (.reservedOperation 0x1B) ∧
    decode (.op ⟨0x21, 0, 0⟩) = .error (.reservedOperation 0x21) ∧
    decode (.op ⟨0x31, 0, 0⟩) = .error (.reservedOperation 0x31) ∧
    decode (.op ⟨0x44, 0, 0⟩) = .error (.reservedOperation 0x44) ∧
    decode (.op ⟨0x52, 0, 0⟩) = .error (.reservedOperation 0x52) ∧
    decode (.op ⟨0x60, 0, 0⟩) = .error (.reservedOperation 0x60) := by decide

theorem test_decode_out_of_lane :
    decode (.op ⟨0x41, 0x100, 0⟩) = .error (.operandOutOfLane 0x41) ∧
    decode (.op ⟨0x12, 1, 0⟩) = .error (.operandOutOfLane 0x12) := by decide

theorem test_decodeTableWord :
    decodeTableWord 32 0x00000002 = some .compress ∧
    decodeTableWord 8 0x1A = some .bcCloseW ∧ decodeTableWord 8 0x1B = none := by decide

/-! ## Each operation on a small state -/

/-- BC-R1. -/
theorem test_openR : bcAfter (.bcOpenR 0x100 0x108) (withWords 0x100 [0xA5A5A5A5, 0xF]) =
    some (.read, 0x104, 0xA5A5A5A5, 0) := by decide +kernel
/-- BC-R10: an empty region. -/
theorem test_openR_empty : bcAfter (.bcOpenR 0x100 0x100) (withWords 0x100 [0xA5A5A5A5]) =
    some (.read, 0x100, 0x80000000, 0) := by decide +kernel
/-- The start of the write vectors of 2.1, over what a close left. -/
theorem test_openW :
    bcAfter (.bcOpenW 0x100 0x200) (State.reset.setBc ⟨.closed, 0x40, 0, 0x50, 7, 3, 0⟩) =
      some (.write, 0x100, 0, 0) := by decide
/-- V12: an open while open. -/
theorem test_open_while_open :
    refusalOf (exec (.bcOpenW 0x100 0x200) (writing 0x40 0x50 7 3)) = some (.wrongMode .write) ∧
    refusalOf (exec (.bcOpenR 0x100 0x108) (writing 0x40 0x50 7 3)) = some (.wrongMode .write) := by
  decide
/-- BC-W1. -/
theorem test_put1 : bcAfter .bcPut1 (writing 0x100 0x200 0 0) = some (.write, 0x100, 1, 1) := by
  decide
/-- BC-W9, second operation: the word fills and is flushed at once. -/
theorem test_put1_flushes : bcAfter .bcPut1 (writing 0x100 0x104 0 31) = some (.write, 0x104, 0, 0) ∧
    wordsAfter .bcPut1 (writing 0x100 0x104 0 31) 0x100 1 = some [0x80000000] := by decide +kernel
/-- BC-W2, second operation: the field is split across a word boundary. -/
theorem test_wrfix : bcAfter (.bcWrfix 5 3) (writing 0x100 0x200 0 30) = some (.write, 0x104, 1, 1) ∧
    wordsAfter (.bcWrfix 5 3) (writing 0x100 0x200 0 30) 0x100 1 = some [0x40000000] := by
  decide +kernel
/-- BC-W6, second operation. -/
theorem test_wrfix_32 :
    bcAfter (.bcWrfix 0x12345678 32) (writing 0x100 0x200 7 3) = some (.write, 0x104, 0, 3) ∧
    wordsAfter (.bcWrfix 0x12345678 32) (writing 0x100 0x200 7 3) 0x100 1 = some [0x91A2B3C7] := by
  decide +kernel
/-- BC-W4, second operation. -/
theorem test_wrzero :
    bcAfter (.bcWrzero 70) (writing 0x100 0x200 0x1F 5) = some (.write, 0x108, 0, 11) ∧
    wordsAfter (.bcWrzero 70) (writing 0x100 0x200 0x1F 5) 0x100 2 = some [0x1F, 0] := by
  decide +kernel
/-- BC-W9, last operation: out of room with the 32nd zero. -/
theorem test_wrzero_raises :
    bcAfter (.bcWrzero 40) (writing 0x104 0x104 0 0) = some (.write, 0x104, 0, 32) ∧
    (nextOf (exec (.bcWrzero 40) (writing 0x104 0x104 0 0))).map (·.pl.err) = some 4 := by
  decide +kernel
/-- R126: the accumulator is stored, the cursor moves on. -/
theorem test_flush : bcAfter .bcFlush (writing 0x100 0x200 0xABC 12) = some (.write, 0x104, 0, 0) ∧
    wordsAfter .bcFlush (writing 0x100 0x200 0xABC 12) 0x100 1 = some [0xABC] := by decide +kernel
/-- R71, R131: at the top of the address space the cursor does not wrap, and nothing goes to 0. -/
theorem test_flush_at_top :
    (nextOf (exec .bcFlush (writing 0xFFFFFFFC 0x100000000 5 3))).map
      (fun t => (t.bc.cur, t.bc.cursor, (nextOf (exec .bcFlush t)).map (·.pl.err))) =
      some (0, 0x100000000, some 4) := by decide +kernel
/-- BC-R4: the field spans two words. -/
theorem test_rdfix :
    bcAfter (.bcRdfix 4) (reading (withWords 0x104 [0xF]) 0x104 0x108 2 30) =
      some (.read, 0x108, 3, 2) ∧
    resultAfter (.bcRdfix 4) (reading (withWords 0x104 [0xF]) 0x104 0x108 2 30) = some 0xE := by
  decide +kernel
/-- BC-R9: the 32nd bit brings the sentinel. -/
theorem test_rdfix_32 :
    bcAfter (.bcRdfix 32) (reading State.reset 0x104 0x104 0x12345678 0) =
      some (.read, 0x104, 0x80000000, 0) ∧
    resultAfter (.bcRdfix 32) (reading State.reset 0x104 0x104 0x12345678 0) =
      some 0x12345678 := by decide +kernel
/-- BC-R6. -/
theorem test_rdunary :
    bcAfter .bcRdunary (reading State.reset 0x108 0x108 0 4) = some (.read, 0x108, 0x80000000, 0) ∧
    resultAfter .bcRdunary (reading State.reset 0x108 0x108 0 4) = some 59 := by decide +kernel
/-- BC-R13: a real word equal to the sentinel. -/
theorem test_rdunary_real_word :
    bcAfter .bcRdunary (reading (withWords 0x104 [7]) 0x104 0x108 0x80000000 0) =
      some (.read, 0x108, 7, 0) ∧
    resultAfter .bcRdunary (reading (withWords 0x104 [7]) 0x104 0x108 0x80000000 0) = some 31 := by
  decide +kernel
/-- R131: a valid word, and the sentinel past the end. -/
theorem test_reload :
    bcAfter .bcReload (reading (withWords 0x104 [0xF]) 0x104 0x108 0 32) =
      some (.read, 0x108, 0xF, 0) ∧
    bcAfter .bcReload (reading (withWords 0x104 [0xF]) 0x108 0x108 0 32) =
      some (.read, 0x108, 0x80000000, 0) := by decide +kernel
/-- R133: only the mode changes. -/
theorem test_closeR :
    bcAfter .bcCloseR (reading State.reset 0x108 0x108 3 2) = some (.closed, 0x108, 3, 2) := by decide
/-- BC-W4, the close. -/
theorem test_closeW :
    bcAfter .bcCloseW (writing 0x108 0x200 0x800 12) = some (.closed, 0x10C, 0, 0) ∧
    wordsAfter .bcCloseW (writing 0x108 0x200 0x800 12) 0x108 1 = some [0x800] := by decide +kernel
/-- BC-W7, the close: nothing buffered, nothing written. -/
theorem test_closeW_empty :
    bcAfter .bcCloseW (writing 0x104 0x200 0 0) = some (.closed, 0x104, 0, 0) := by decide
/-- 2.3, row (3, 65). -/
theorem test_encode :
    bcAfter (.greEncode 3 65) (writing 0x100 0x200 0 0) = some (.write, 0x100, 0x300, 12) := by
  decide +kernel
/-- 2.3, row (31, 0xFFFFFFFF), after `BC.OPEN_W`. -/
theorem test_encode_wide :
    bcAfter (.greEncode 31 0xFFFFFFFF) (writing 0x100 0x200 0 0) = some (.write, 0x104, 1, 1) ∧
    wordsAfter (.greEncode 31 0xFFFFFFFF) (writing 0x100 0x200 0 0) 0x100 1 =
      some [0xFFFFFFFE] := by decide +kernel
/-- 2.3, row (3, 255) read back. -/
theorem test_decode_value :
    resultAfter (.grdDecode 3) (reading (withWords 0x104 [7]) 0x104 0x108 0x80000000 0) = some 255 ∧
    bcAfter (.grdDecode 3) (reading (withWords 0x104 [7]) 0x104 0x108 0x80000000 0) =
      some (.read, 0x108, 0, 3) := by decide +kernel
/-- 2.3: the second `GRD.DECODE 3` in the padding. -/
theorem test_decode_padding :
    resultAfter (.grdDecode 3) (reading State.reset 0 0 0x10000000 3) = some 224 ∧
    bcAfter (.grdDecode 3) (reading State.reset 0 0 0x10000000 3) =
      some (.read, 0, 0x10000000, 3) := by decide +kernel
/-- 2.2. -/
theorem test_rankOf : resultAfter (.rmRankOf 0x12 0x34) (rmInit State.reset) = some 0x34 := by
  decide +kernel
/-- 2.2. -/
theorem test_symbolAt : resultAfter (.rmSymbolAt 0x12 0x34) (rmInit State.reset) = some 0x34 := by
  decide +kernel
/-- 2.2, step 1: the scan runs off the top and passes symbols 1 to 4. -/
theorem test_observe :
    (nextOf (exec (.rmObserve 0 5) (rmInit State.reset))).map (fun t =>
      ((List.range 9).map fun r => (t.rm.symAt 0 (BitVec.ofNat 8 r)).toNat,
        (t.rm.freqAt 0 5).toNat)) = some ([5, 1, 2, 3, 4, 0, 6, 7, 8], 1) := by decide +kernel
/-- 2.2, step 2: the later arrival stays below on a tie. -/
theorem test_observe_tie :
    (nextOf (exec (.rmObserve 0 7) ((rmInit State.reset).setRm (observed rmInitialised 0 5)))).map
      (fun t => (List.range 9).map fun r => (t.rm.symAt 0 (BitVec.ofNat 8 r)).toNat) =
      some [5, 7, 2, 3, 4, 0, 6, 1, 8] := by decide +kernel
/-- R151: whatever the tables held. -/
theorem test_rmInit :
    (nextOf (exec .rmInit (State.reset.setRm (observed rmInitialised 3 9)))).map
      (fun t => (t.rm.rankOf 3 9, t.rm.freqAt 3 9)) = some (9, 0) := by decide +kernel
/-- 2.4. -/
theorem test_estInit :
    (nextOf (exec .estInit (State.reset.setEst ⟨9, 7, 1⟩))).map (·.est) = some ⟨0, 0, 3⟩ := by decide
/-- 2.4. -/
theorem test_update :
    (nextOf (exec (.estUpdate 65) State.reset)).map (·.est) = some ⟨65, 1, 3⟩ := by decide
/-- 2.4: the boundary sum 65,280 gives 7; 511 gives 0 and 512 gives 1. -/
theorem test_update_boundary :
    (nextOf (exec (.estUpdate 255) (State.reset.setEst ⟨65025, 255, 3⟩))).map (·.est) =
      some ⟨0, 0, 7⟩ ∧
    (boundaryK 511, boundaryK 512) = (0, 1) := by decide +kernel
/-- A5's start: `STATUS` after INIT is 0x00000106. -/
theorem test_init :
    (nextOf (exec .init State.reset)).map (fun t => (statusWord t, t.est, t.rm.rankOf 1 2)) =
      some (0x00000106, ⟨0, 0, 3⟩, 2) := by decide +kernel

/-- The start of program P1. -/
def programP1 : State := fresh (State.reset.setMem (State.reset.mem.setByte 0x1000 0x41))
  0x1000 1 0x2000 0x40

/-- Program P1: the stored stream and the registers. -/
theorem test_compress :
    wordsAfter .compress programP1 0x2000 3 = some [0x300, 0x1000, 0] ∧
    (nextOf (exec .compress programP1)).map (fun t =>
      (statusWord t, t.regs.outEnd, t.regs.inCur, t.est, t.pl.ctx)) =
      some (0x206, 0x2008, 0x1001, ⟨0x41, 1, 3⟩, 0x41) := by decide +kernel

/-- The start of program P2. -/
def programP2 : State := fresh (withWords 0x2000 [0x300, 0x1000]) 0x2000 8 0x3000 0x10

/-- Program P2: the byte comes back; the cursor and the 16 padding bits of T5. -/
theorem test_decompress :
    (nextOf (exec .decompress programP2)).map (fun t =>
      (statusWord t, t.mem.byteAt 0x3000, t.mem.byteAt 0x3001, t.regs.outEnd, t.regs.inCur,
        t.bc.fill)) = some (0x306, 0x41, 0, 0x3001, 0x2008, 16) := by decide +kernel

/-- A1: a session before any INIT. -/
theorem test_compress_before_init :
    (nextOf (exec .compress State.reset)).map statusWord = some 0x22 := by decide +kernel

/-! ## The step and the placing of an instruction -/

theorem test_step_runs_table_word :
    (nextOf (step (State.reset.withFetchWord 32 1))).map statusWord = some 0x106 ∧
    (nextOf (step (State.reset.withFetchWord 8 0x11))).map (·.bc.mode) = some .write := by
  decide +kernel

/-- R52 and the read of `STATUS` after a write that the script makes. -/
theorem test_step_host_access :
    (nextOf (step (State.reset.setHost [.wr 0x08 5, .idle]))).map (fun t => (t.regs.inBase, t.host)) =
      some (5, [.idle]) ∧
    (nextOf (step (State.reset.setHost [.rd 0x20]))).map (·.rdata) = some 3 := by decide +kernel

/-- R257: a `WAIT` lasts until `DONE = 1`, so before any command it goes on. -/
theorem test_step_wait :
    (nextOf (step (State.reset.setHost [.wait]))).map (·.host) = some [.wait] ∧
    (nextOf (step ((fresh State.reset 0 0 0 0).setHost [.wait]))).map
      (fun t => (t.host, t.rdata)) = some ([], 0x106) := by decide +kernel

/-! ## Witnesses: a concrete state for the hypotheses of each statement -/

theorem witness_DecodedPacketIsTheEncoding :
    decode (.op ⟨0x02, 0, 0⟩) = .ok .compress := by decide

theorem witness_CodeIsReserved :
    (State.reset.setBus (some ⟨0x1B, 0, 0⟩)).bus = some ⟨0x1B, 0, 0⟩ ∧
      ∀ i : Instr, opCode i ≠ (0x1B : BitVec 8) :=
  ⟨rfl, fun i => by cases i <;> simp [opCode]⟩

theorem witness_ReservedCommandWordIsRejected :
    (State.reset.setHost [.cmd 0x11]).bus = none ∧
    (State.reset.setHost [.cmd 0x11]).pl.state ≠ .running ∧
    (0x11 : Word) ≠ 1 ∧ (0x11 : Word) ≠ 2 ∧ (0x11 : Word) ≠ 3 ∧
    (State.reset.setHost [.cmd 0x11]).host = [.cmd 0x11] ∧
    (State.reset.setHost [.wr 0x00 0]).host = [.wr 0x00 0] := by decide

theorem witness_StepPerformsTheDecodedOperation :
    fetch (State.reset.setBus (some ⟨0x50, 0, 0⟩)) = some (.op ⟨0x50, 0, 0⟩, State.reset) ∧
    decode (.op ⟨0x50, 0, 0⟩) = .ok .estInit := by decide

/-- A1, A6 and A8: each clause's hypotheses. -/
theorem witness_SessionsFailingTheChecksAreRejected :
    State.reset.pl.state ≠ .running ∧ State.reset.pl.modelInit = false ∧
    (fresh State.reset 0x1000 4 0x2002 64).pl.state ≠ .running ∧
    (fresh State.reset 0x1000 4 0x2002 64).pl.modelInit = true ∧
    ¬(SessionAccepted (fresh State.reset 0x1000 4 0x2002 64) ∧
      (fresh State.reset 0x1000 4 0x2002 64).regs.outBase.toNat % 4 = 0) ∧
    ¬(SessionAccepted (fresh State.reset 0x2002 8 0x3001 64) ∧
      (fresh State.reset 0x2002 8 0x3001 64).regs.inBase.toNat % 4 = 0) := by
  unfold SessionAccepted; decide +kernel

/-- The three clauses, at A12's adjacent regions. -/
theorem witness_AcceptedCommandStartsRunning :
    let s := fresh State.reset 0x1000 0x100 0x1100 0x2024
    s.bus = none ∧ s.pl.state ≠ .running ∧ SessionAccepted s ∧ s.regs.outBase.toNat % 4 = 0 ∧
      s.regs.inBase.toNat % 4 = 0 ∧
      (s.setHost [.wr 0x00 1]).host = [.wr 0x00 1] ∧
      (s.setHost [.wr 0x00 2]).host = [.wr 0x00 2] ∧
      (s.setHost [.wr 0x00 3]).host = [.wr 0x00 3] := by
  unfold SessionAccepted; decide +kernel

/-- A block that runs, with each clause's script. -/
theorem witness_BusyBlockIgnoresWritesAndShowsStatus :
    let s := State.reset.setPl { State.reset.pl with state := .running, op := .compress }
    (s.setHost [.wr 0xFC 7]).bus = none ∧ (s.setHost [.wr 0xFC 7]).pl.state = .running ∧
      0xFC % 4 = 0 ∧ 0xFC ≤ 0xFC ∧ (s.setHost [.wr 0xFC 7]).host = [.wr 0xFC 7] ∧
      (s.setHost [.rd 0x04]).host = [.rd 0x04] ∧
      0xFC ≠ 0x04 ∧ (s.setHost [.rd 0xFC]).host = [.rd 0xFC] := by decide

theorem witness_ConfigurationRegisterReadsBack :
    ∀ off ∈ [0x08, 0x0C, 0x10, 0x14],
      (State.reset.setHost [.wr off 0xFFFFFFFF, .rd off]).bus = none ∧
      (State.reset.setHost [.wr off 0xFFFFFFFF, .rd off]).pl.state ≠ .running ∧
      (off = 0x08 ∨ off = 0x0C ∨ off = 0x10 ∨ off = 0x14) := by decide

theorem witness_ReadOnlyRegistersShowTheUnits :
    ∀ off ∈ [0x00, 0x04, 0x18, 0x1C, 0x20, 0x24, 0x28, 0x2C, 0x30, 0x34, 0x38, 0xFC],
      (State.reset.setHost [.rd off]).bus = none ∧
      (State.reset.setHost [.rd off]).pl.state ≠ .running ∧
      (State.reset.setHost [.rd off]).host = [.rd off] := by decide

/-- The offsets at both ends of each clause on writes. -/
theorem witness_ReadOnlyRegistersIgnoreWrites :
    ∀ off ∈ [0x04, 0x18, 0x34, 0x38, 0xFC],
      (State.reset.setHost [.wr off 7]).bus = none ∧
      (State.reset.setHost [.wr off 7]).pl.state ≠ .running ∧
      (State.reset.setHost [.wr off 7]).host = [.wr off 7] ∧ off % 4 = 0 ∧ off ≤ 0xFC ∧
      (off = 0x04 ∨ 0x18 ≤ off) := by decide

theorem witness_HardwareResetTakesTheResetState :
    let s := State.reset.setPl { State.reset.pl with state := .running, op := .init }
    (s.setHost [.rst]).bus = none ∧ (s.setHost [.rst]).host = [.rst] ∧
      ¬(s.pl.state = .running ∧ (s.pl.op = .compress ∨ s.pl.op = .decompress)) := by decide

theorem witness_OpenWriteBindsAnEmptyChannel :
    State.reset.bc.mode = .closed ∧ (0xFFFFFFFC : Word).toNat % 4 = 0 ∧
      (0xFFFFFFFC : Word).toNat ≤ (0xFFFFFFFC : WideAddr).toNat := by decide

/-- Room and no room, at the boundary of BC-W9, for `BC.PUT1`, `BC.WRFIX`, `BC.WRZERO` and
`GRE.ENCODE`. -/
theorem witness_WriteReady :
    WriteReady (writing 0x100 0x104 0 31) ∧ HasRoom (writing 0x100 0x104 0 31) 1 ∧
    HasRoom (writing 0x100 0x104 0 31) 32 ∧ ¬HasRoom (writing 0x100 0x104 0 31) 33 ∧
    WriteReady (writing 0x104 0x104 0 31) ∧ ¬HasRoom (writing 0x104 0x104 0 31) 1 ∧
    HasRoom (writing 0x104 0x104 0 31) 0 ∧
    HasRoom (writing 0x100 0x104 0 31) ((65 : Word).toNat / 2 ^ (3 : BitVec 5).toNat + 1 + 3) ∧
    ¬HasRoom (writing 0x104 0x104 0 31)
      ((65 : Word).toNat / 2 ^ (3 : BitVec 5).toNat + 1 + 3) := by
  unfold WriteReady HasRoom wordsFilled; decide +kernel

theorem witness_WordAtATime :
    (writing 0x100 0x104 7 31).bc.mode = .write ∧ (writing 0x100 0x104 7 31).bc.fill.toNat ≤ 31 ∧
    (writing 0x100 0x104 7 31).bc.acc.toNat < 2 ^ (writing 0x100 0x104 7 31).bc.fill.toNat := by
  decide

theorem witness_FlushStoresTheAccumulatorOrKeepsIt :
    (writing 0xFFFFFFFC 0x100000000 5 3).bc.mode = .write ∧
    (writing 0xFFFFFFFC 0x100000000 5 3).bc.cur.toNat % 4 = 0 ∧
    (writing 0xFFFFFFFC 0x100000000 5 3).bc.cursor.toNat + 4 ≤
      (writing 0xFFFFFFFC 0x100000000 5 3).bc.lim.toNat ∧
    (writing 0xFFFFFFFC 0x100000000 5 3).bc.lim.toNat ≤ Config.addressSpace ∧
    (writing 0xFFFFFFFC 0xFFFFFFFF 5 3).bc.lim.toNat <
      (writing 0xFFFFFFFC 0xFFFFFFFF 5 3).bc.cursor.toNat + 4 := by decide +kernel

theorem witness_CloseWriteStoresThePartialWord :
    WriteReady (writing 0x104 0x104 0 0) ∧ WriteReady (writing 0x100 0x104 1 1) ∧
    0 < (writing 0x100 0x104 1 1).bc.fill.toNat ∧
    (writing 0x100 0x104 1 1).bc.cursor.toNat + 4 ≤ (writing 0x100 0x104 1 1).bc.lim.toNat ∧
    WriteReady (writing 0x104 0x107 1 1) ∧
    (writing 0x104 0x107 1 1).bc.lim.toNat < (writing 0x104 0x107 1 1).bc.cursor.toNat + 4 := by
  unfold WriteReady; decide +kernel

theorem witness_WriteSessionLeavesTheBitsInMemory :
    (0x100 : Word).toNat % 4 = 0 ∧ (0x100 : Word).toNat ≤ (0x104 : WideAddr).toNat ∧
    (0x104 : WideAddr).toNat ≤ Config.addressSpace ∧
    (0x100 : Word).toNat + 4 * streamWords (List.replicate 32 true).length ≤
      (0x104 : WideAddr).toNat ∧
    (0x104 : WideAddr).toNat <
      (0x100 : Word).toNat + 4 * streamWords (List.replicate 33 true).length := by decide +kernel

theorem witness_OpenReadLoadsTheFirstWord :
    State.reset.bc.mode = .closed ∧ (0x100 : Word).toNat % 4 = 0 ∧ (0x100 : Word).toNat ≤ (0x104 : WideAddr).toNat ∧
    ((0x104 : WideAddr).toNat - (0x100 : Word).toNat) % 4 = 0 ∧
    (0x100 : WideAddr).toNat = (0x100 : Word).toNat := by decide

theorem witness_ReloadBringsTheNextWordOrTheSentinel :
    (reading State.reset 0x100 0x104 0 0).bc.mode = .read ∧
    (reading State.reset 0x100 0x104 0 0).bc.cur.toNat % 4 = 0 ∧
    (reading State.reset 0x100 0x104 0 0).bc.cursor.toNat + 4 ≤
      (reading State.reset 0x100 0x104 0 0).bc.stop.toNat ∧
    (reading State.reset 0x100 0x104 0 0).bc.stop.toNat ≤ Config.addressSpace ∧
    (reading State.reset 0x104 0x107 0 0).bc.stop.toNat <
      (reading State.reset 0x104 0x107 0 0).bc.cursor.toNat + 4 := by decide +kernel

/-- For `BC.RDFIX`, `BC.RDUNARY`, `BC.CLOSE_R` and `GRD.DECODE`. -/
theorem witness_ReadReady :
    ReadReady (reading (withWords 0x104 [0xF]) 0x104 0x108 2 31) ∧ (32 : BitVec 6).toNat ≤ 32 := by
  unfold ReadReady; decide +kernel

theorem witness_ReadSession :
    (0xFFFFFFF8 : Word).toNat % 4 = 0 ∧
    (0xFFFFFFF8 : Word).toNat ≤ (0x100000000 : WideAddr).toNat ∧
    ((0x100000000 : WideAddr).toNat - (0xFFFFFFF8 : Word).toNat) % 4 = 0 ∧
    (0x100000000 : WideAddr).toNat ≤ Config.addressSpace := by decide

theorem witness_WhatHasNoMeaningIsRefused_mode :
    State.reset.bc.mode ≠ .write ∧ State.reset.bc.mode ≠ .read ∧
      (writing 0 0 0 0).bc.mode ≠ .closed ∧ (reading State.reset 0 0 0 0).bc.mode ≠ .closed := by
  decide

/-- The first offset past the block, and one that is no multiple of 4, for both accesses. -/
theorem witness_WhatHasNoMeaningIsRefused_register :
    (0x100 % 4 ≠ 0 ∨ 0xFC < 0x100) ∧ (0x06 % 4 ≠ 0 ∨ 0xFC < 0x06) ∧
      (State.reset.setHost [.wr 0x100 0]).bus = none ∧
      (State.reset.setHost [.wr 0x100 0]).host = [.wr 0x100 0] ∧
      (State.reset.setHost [.rd 0x06]).host = [.rd 0x06] := by decide

/-- What a helper leaves, when it completes. -/
def okOf (r : Res Unit) : State :=
  match r with
  | .ok _ s => s
  | .raised s => s
  | .fault _ => State.reset
  | .refused _ => State.reset

/-- A helper that completes. -/
def isOk (r : Res Unit) : Bool :=
  match r with
  | .ok _ _ => true
  | .raised _ => false
  | .fault _ => false
  | .refused _ => false

theorem ok_of_isOk {r : Res Unit} (h : isOk r = true) : ∃ t, r = .ok () t := by
  cases r with
  | ok v s => exact ⟨s, rfl⟩
  | raised _ => cases h
  | fault _ => cases h
  | refused _ => cases h

/-- The session: 2 bits, the value 256 under `k = 3`, 1 bit: 39 bits in two words. -/
def session : Res Unit :=
  (openWrite 0x100 0x200 State.reset).bind fun _ a =>
    (putBits [true, false] a).bind fun _ b => (greEncode 3 (256 : Word).toNat b).bind fun _ c =>
      (putBits [true] c).bind fun _ d => closeWrite d

theorem session_ok : isOk session = true ∧ (okOf session).bc.cursor.toNat = 0x108 := by
  decide +kernel

theorem bind_ok {r : Res Unit} {f : Unit → State → Res Unit} {t : State}
    (h : r.bind f = .ok () t) : ∃ s, r = .ok () s ∧ f () s = .ok () t := by
  cases r with
  | ok v s => exact ⟨s, rfl, h⟩
  | raised _ => cases h
  | fault _ => cases h
  | refused _ => cases h

/-- A write session with bits before and after the value 256 under `k = 3`, read back up to the
word after it. -/
theorem witness_GolombRiceRoundTrip :
    ∃ t1 t2 t3 t4 t5 : State, (0x200 : WideAddr).toNat ≤ Config.addressSpace ∧
      (0x10C : WideAddr).toNat ≤ Config.addressSpace ∧ (0x10C : WideAddr).toNat % 4 = 0 ∧
      openWrite 0x100 0x200 State.reset = .ok () t1 ∧ putBits [true, false] t1 = .ok () t2 ∧
      greEncode 3 (256 : Word).toNat t2 = .ok () t3 ∧ putBits [true] t3 = .ok () t4 ∧
      closeWrite t4 = .ok () t5 ∧ t5.bc.cursor.toNat ≤ (0x10C : WideAddr).toNat := by
  obtain ⟨t5, h⟩ := ok_of_isOk session_ok.1
  have hcur := session_ok.2
  rw [h] at hcur
  obtain ⟨t1, h1, h⟩ := bind_ok h
  obtain ⟨t2, h2, h⟩ := bind_ok h
  obtain ⟨t3, h3, h⟩ := bind_ok h
  obtain ⟨t4, h4, h⟩ := bind_ok h
  exact ⟨t1, t2, t3, t4, t5, by decide, by decide, by decide, h1, h2, h3, h4, h,
    by rw [show t5.bc.cursor.toNat = 0x108 from hcur]; decide⟩

theorem witness_DecodeInThePadding :
    (reading State.reset 0 0 0x10000000 3).bc.mode = .read ∧
    (reading State.reset 0 0 0x10000000 3).bc.fill.toNat ≤ 31 ∧
    (reading State.reset 0 0 0x10000000 3).bc.stop.toNat <
      (reading State.reset 0 0 0x10000000 3).bc.cursor.toNat + 4 ∧
    (reading State.reset 0 0 0x10000000 3).bc.acc =
      0x80000000 >>> (reading State.reset 0 0 0x10000000 3).bc.fill.toNat := by decide

/-! ### The tables of `RM.INIT` -/

theorem initialised_symAt (x i : Byte) : rmInitialised.symAt x i = i := by
  have hi := i.isLt
  show BitVec.ofNat 8 ((x.toNat * 256 + i.toNat) % 256) = i
  rw [show (x.toNat * 256 + i.toNat) % 256 = i.toNat by omega]
  exact BitVec.eq_of_toNat_eq (by simp)

theorem initialised_rankOf (x i : Byte) : rmInitialised.rankOf x i = i := initialised_symAt x i

theorem initialised_rankModelOk : RankModelOk rmInitialised := by
  refine ⟨⟨fun x sym => ?_, fun x r => ?_⟩, fun x r1 r2 _ => le_rfl⟩
  · rw [initialised_symAt, initialised_rankOf]
  · rw [initialised_rankOf, initialised_symAt]

theorem initialised_counts {n : Nat} (h : n ≤ 4294967295) : CountsHaveRoom rmInitialised n :=
  fun x sym => by
    show (0 : BitVec 32).toNat + n ≤ 4294967295
    simpa using h

theorem witness_Observe :
    RankModelOk (rmInit State.reset).rm ∧
    ((rmInit State.reset).rm.freqAt 0 5).toNat < 4294967295 ∧
    ∃ t, exec (.rmObserve 0 5) (rmInit State.reset) = .next t :=
  ⟨initialised_rankModelOk, by decide +kernel, next_of_isSome (by decide +kernel)⟩

theorem witness_WhatHasNoMeaningIsRefused_operands :
    State.reset.bc.mode = .closed ∧
    ((0x100 : Word).toNat % 4 ≠ 0 ∨ (0x106 : WideAddr).toNat < (0x100 : Word).toNat ∨
      ((0x106 : WideAddr).toNat - (0x100 : Word).toNat) % 4 ≠ 0) ∧
    ((0x104 : Word).toNat % 4 ≠ 0 ∨ (0x103 : WideAddr).toNat < (0x104 : Word).toNat) ∧
    (writing 0x100 0x104 0 0).bc.mode = .write ∧ 32 < (33 : BitVec 6).toNat ∧
    (reading State.reset 0 0 0 0).bc.mode = .read ∧
    (State.reset.setRm (rmInitialised.setFreq 1 2 0xFFFFFFFF)).rm.freqAt 1 2 = 0xFFFFFFFF ∧
    255 < (256 : BitVec 9).toNat := by decide +kernel

theorem witness_EstUpdate :
    EstimatorOk ⟨65025, 255, 3⟩ ∧ EstimatorOk ⟨64770, 254, 7⟩ ∧ (255 : BitVec 9).toNat ≤ 255 := by
  unfold EstimatorOk; decide

theorem witness_InitGivesAFreshModel : State.reset.pl.state ≠ .running := by decide

/-! ### Sessions -/

/-- Program P1, with the smallest sufficient room. -/
theorem witness_CompressWritesTheSessionStream :
    let s := fresh (State.reset.setMem (State.reset.mem.setByte 0x1000 0x41)) 0x1000 1 0x2000 8
    s.pl.state ≠ .running ∧ SessionAccepted s ∧ s.regs.outBase.toNat % 4 = 0 ∧
      CountsHaveRoom s.rm s.regs.inLen.toNat ∧
      4 * streamWords (sessionBits s.rm s.est 0 (inputSymbols s)).length ≤
        s.regs.outCap.toNat := by
  refine ⟨by decide, ?_, by decide, initialised_counts (by decide), by decide +kernel⟩
  unfold SessionAccepted; decide +kernel

/-- Program P7: one byte too little. -/
theorem witness_CompressWithoutRoomFaults :
    let s := fresh (State.reset.setMem (State.reset.mem.setByte 0x1000 0x41)) 0x1000 1 0x2000 7
    s.pl.state ≠ .running ∧ SessionAccepted s ∧ s.regs.outBase.toNat % 4 = 0 ∧
      CountsHaveRoom s.rm s.regs.inLen.toNat ∧
      s.regs.outCap.toNat <
        4 * streamWords (sessionBits s.rm s.est 0 (inputSymbols s)).length := by
  refine ⟨by decide, ?_, by decide, initialised_counts (by decide), by decide +kernel⟩
  unfold SessionAccepted; decide +kernel

theorem witness_CompressWithTheSafeCapacityCompletes :
    let s := fresh State.reset 0x1000 1 0x2000 68
    s.pl.state ≠ .running ∧ SessionAccepted s ∧ s.regs.outBase.toNat % 4 = 0 ∧
      CountsHaveRoom s.rm s.regs.inLen.toNat ∧
      32 * s.regs.inLen.toNat + 36 ≤ s.regs.outCap.toNat := by
  refine ⟨by decide, ?_, by decide, initialised_counts (by decide), by decide⟩
  unfold SessionAccepted; decide +kernel

/-- Program P2, with room for exactly its one byte. -/
theorem witness_DecompressStoresTheSymbolsOfAStream :
    let s := fresh (withWords 0x2000 [0x300, 0x1000]) 0x2000 8 0x3000 1
    let bits := sessionBits s.rm s.est 0 [0x41]
    s.pl.state ≠ .running ∧ SessionAccepted s ∧ s.regs.inBase.toNat % 4 = 0 ∧
      MutualInverses s.rm ∧ CountsHaveRoom s.rm [(0x41 : Byte)].length ∧
      [(0x41 : Byte)].length ≤ s.regs.outCap.toNat ∧
      ∀ j, j < bits.length →
        sessionBit s.mem s.regs.inBase.toNat
          (s.regs.inBase.toNat + 4 * (s.regs.inLen.toNat / 4)) j = bits.getD j false := by
  refine ⟨by decide, ?_, by decide, initialised_rankModelOk.1, initialised_counts (by decide),
    by decide, by decide +kernel⟩
  unfold SessionAccepted; decide +kernel

/-- An empty input, which decodes from the sentinel alone (program P5), the tables those of INIT. -/
theorem witness_DecompressEndsOnEveryInput :
    let s := fresh State.reset 0x2000 0 0x3000 0x10
    s.pl.state ≠ .running ∧ SessionAccepted s ∧ s.regs.inBase.toNat % 4 = 0 ∧
      CountsHaveRoom s.rm s.regs.outCap.toNat ∧ MutualInverses s.rm := by
  refine ⟨by decide, ?_, by decide, initialised_counts (by decide), initialised_rankModelOk.1⟩
  unfold SessionAccepted; decide +kernel

/-- The state a command leaves, when it leaves one. -/
def afterOr (i : Instr) (s : State) : State := (nextOf (exec i s)).getD s

theorem exec_afterOr {i : Instr} {s : State} (h : (nextOf (exec i s)).isSome = true) :
    exec i s = .next (afterOr i s) := by
  obtain ⟨t, ht⟩ := next_of_isSome h
  unfold afterOr
  rw [ht]
  rfl

/-- P1 completed. -/
def doneP1 : State := afterOr .compress programP1

/-- P2 over the memory P1 left but for a byte elsewhere, with room for exactly its one byte. -/
def startP2 : State := fresh (doneP1.setMem (doneP1.mem.setByte 0x5000 9)) 0x2000 8 0x3000 1

theorem fresh_freshModel (s : State) (a b c d : Word) : FreshModel (fresh s a b c d) :=
  ⟨rfl, rfl, rfl⟩

theorem startP2_mem {a : Nat} (h : a ≠ 0x5000) : startP2.mem.byteAt a = doneP1.mem.byteAt a :=
  Memory.byteAt_setByte_other doneP1.mem 9 h

theorem startP2_accepted : SessionAccepted startP2 ∧ startP2.regs.inBase = programP1.regs.outBase ∧
    doneP1.bc.cursor.toNat ≤ startP2.regs.inBase.toNat + startP2.regs.inLen.toNat ∧
    programP1.regs.inLen.toNat ≤ startP2.regs.outCap.toNat := by
  unfold SessionAccepted; decide +kernel

/-- Programs P1 and P2 in a row. -/
theorem witness_DecompressAfterCompressRestoresTheInput :
    FreshModel programP1 ∧ exec .compress programP1 = .next doneP1 ∧
      doneP1.pl.state = .done ∧ programP1.pl.state ≠ .running ∧ FreshModel startP2 ∧
      startP2.pl.state ≠ .running ∧
      (∀ a, programP1.regs.outBase.toNat ≤ a → a < doneP1.bc.cursor.toNat →
        startP2.mem.byteAt a = doneP1.mem.byteAt a) ∧ SessionAccepted startP2 ∧
      startP2.regs.inBase = programP1.regs.outBase ∧
      doneP1.bc.cursor.toNat ≤ startP2.regs.inBase.toNat + startP2.regs.inLen.toNat ∧
      programP1.regs.inLen.toNat ≤ startP2.regs.outCap.toNat := by
  refine ⟨fresh_freshModel _ _ _ _ _, exec_afterOr ?_, ?_, ?_, fresh_freshModel _ _ _ _ _,
    ?_, fun a _ h => startP2_mem ?_, startP2_accepted⟩
  case refine_5 =>
    have hcur : doneP1.bc.cursor.toNat = 0x2008 := by decide +kernel
    omega
  all_goals decide +kernel

/-- For `SessionWritesOnlyItsOutputRegion` and `CommandsEndInDoneOrFaulted`: P1 and P2 complete;
`0x1FFF` is below and `0x2040` past P1's output region. -/
theorem witness_SessionFrames :
    (∃ t, exec .compress programP1 = .next t) ∧ (∃ t, exec .decompress programP2 = .next t) ∧
    (∃ t, exec .init programP1 = .next t) ∧ programP1.pl.state ≠ .running ∧
    0x1FFF < programP1.regs.outBase.toNat ∧
    programP1.regs.outBase.toNat + programP1.regs.outCap.toNat ≤ 0x2040 :=
  ⟨next_of_isSome (by decide +kernel), next_of_isSome (by decide +kernel),
    next_of_isSome (by decide +kernel), by decide, by decide, by decide⟩

/-- A memory that differs from that of P1 and P2 at `0x5000` agrees on their input regions, and both
are accepted. -/
theorem witness_SessionDependsOnItsInputRegionOnly :
    (∀ s ∈ [programP1, programP2], ∀ a, s.regs.inBase.toNat ≤ a →
      a < s.regs.inBase.toNat + s.regs.inLen.toNat →
      (s.mem.setByte 0x5000 9).byteAt a = s.mem.byteAt a) ∧
    (SessionAccepted programP1 ∧ programP1.regs.outBase.toNat % 4 = 0 ∧
      ∃ t, exec .compress programP1 = .next t) ∧
    SessionAccepted programP2 ∧ programP2.regs.inBase.toNat % 4 = 0 ∧
      programP2.pl.state ≠ .running ∧ ∃ t, exec .decompress programP2 = .next t := by
  refine ⟨fun s hs a _ h => Memory.byteAt_setByte_other s.mem 9 ?_,
    ⟨?_, by decide, next_of_isSome (by decide +kernel)⟩, ?_, by decide, by decide,
    next_of_isSome (by decide +kernel)⟩
  · have hend : ∀ s ∈ [programP1, programP2],
        s.regs.inBase.toNat + s.regs.inLen.toNat ≤ 0x5000 := by
      intro s hs
      rcases List.mem_pair.1 hs with rfl | rfl <;> decide
    have := hend s hs
    omega
  all_goals unfold SessionAccepted; decide +kernel

theorem witness_SmallStepsReachTheBigStep :
    let s := programP1.setHost [.wr 0x00 2, .wait]
    s.bus = none ∧ s.pl.state ≠ .running ∧ s.host = [.wr 0x00 2, .wait] ∧
      decode (.cmd 2) = .ok .compress ∧ ∃ t, exec .compress { s with host := [] } = .next t :=
  ⟨rfl, by decide, rfl, by decide, next_of_isSome (by decide +kernel)⟩

/-! ### Invariants -/

/-- The initialised block of P1 meets the five invariants, and a step of it answers a next
state. -/
theorem witness_Invariants :
    let s := (fresh State.reset 0x1000 1 0x2000 0x40).setHost [.cmd 2]
    CanonicalForm s ∧ ChannelOk s.bc ∧ EstimatorOk s.est ∧ ModelOk s ∧ StatusOk s.pl ∧
      ∃ t, step s = .next t := by
  refine ⟨⟨rfl, rfl⟩, ?_, ?_, ⟨fun _ => rfl, fun _ => initialised_rankModelOk⟩, ?_,
    next_of_isSome (by decide +kernel)⟩
  · unfold ChannelOk; decide
  · unfold EstimatorOk; decide
  · unfold StatusOk; decide

theorem witness_OnlyHardwareResetClearsModelInit :
    let s := (fresh State.reset 0 0 0 0).setHost [.rst]
    s.pl.modelInit = true ∧ step s = .next (hardwareReset (s.setHost [])) ∧
      (hardwareReset (s.setHost [])).pl.modelInit = false := ⟨rfl, rfl, rfl⟩

/-- The block right after P1's `CMD` write: running, a step answers a next state. -/
theorem witness_ConfigurationHoldsWhileRunning :
    let s := acceptCommand .compress programP1
    s.pl.state = .running ∧ ∃ t, step s = .next t :=
  ⟨rfl, next_of_isSome (by decide +kernel)⟩

/-- A COMPRESS at its 256th symbol, whose sum takes `k` from 3 to 0. -/
def atBoundary : State :=
  { writing 0x2000 0x2040 0 0 with
    rm := rmInitialised, est := ⟨0, 255, 3⟩
    pl := ⟨.running, .compress, 0, 0x1000, 0, 0, true⟩
    regs := ⟨0x1000, 1, 0x2000, 0x40, 0, 0⟩, prog := .looping }

/-- The estimator one value before a boundary, `k = 3`. -/
def beforeBoundary : Est := ⟨0, 255, 3⟩

/-- Each way `k` can change: an engine step, `EST.UPDATE`, a command in one step, a reset. -/
theorem witness_KChangesOnlyAtABoundary :
    (atBoundary.pl.op = .compress ∨ atBoundary.pl.op = .decompress) ∧
    (nextOf (engineStep atBoundary)).map (·.est) = some ⟨0, 0, 0⟩ ∧
    (nextOf (exec (.estUpdate 0) (State.reset.setEst beforeBoundary))).map (·.est) =
      some ⟨0, 0, 0⟩ ∧
    EstimatorOk atBoundary.est ∧ (nextOf (step atBoundary)).map (·.est) = some ⟨0, 0, 0⟩ ∧
    (nextOf (step ((programP1.setEst ⟨0, 255, 5⟩).setHost [.cmd 2]))).map (·.est.k) = some 0 ∧
    (nextOf (step ((programP2.setEst beforeBoundary).setHost [.cmd 3]))).map (·.est.k) = some 0 ∧
    (nextOf (step ((State.reset.setEst ⟨0, 0, 5⟩).setHost [.rst]))).map (·.est.k) = some 3 := by
  unfold EstimatorOk; decide +kernel

end Sys2Proof.Tests
end

section
/-! PROOFS. `STATUS` (spec/10_state.md R42): each field of the word by its place, the read of it,
and the state after hardware reset (R55). -/

namespace Sys2Proof.Machine

/-! ## The fields of `STATUS`, each at its place

The word is a chain of appended fields; a field is reached by passing over the fields below it. -/

theorem statusWord_busy (s : State) :
    (statusWord s).getLsbD 0 = decide (s.pl.state = .running) := by
  simp only [statusWord, BitVec.getLsbD_append]
  simp [flagBusy]

theorem statusWord_done (s : State) :
    (statusWord s).getLsbD 1 = decide (s.pl.state = .done ∨ s.pl.state = .faulted) := by
  simp only [statusWord, BitVec.getLsbD_append]
  simp [flagDone]

theorem statusWord_modelInit (s : State) : (statusWord s).getLsbD 2 = s.pl.modelInit := by
  simp only [statusWord, BitVec.getLsbD_append]
  simp [flagModelInit]

theorem statusWord_bit3 (s : State) : (statusWord s).getLsbD 3 = false := by
  simp only [statusWord, BitVec.getLsbD_append]
  simp

/-- From bit 4 up the word is `ERR`, `LAST_OP` and the reserved zeros. -/
theorem statusWord_above_flags (s : State) {start : Nat} (len : Nat) (h : 4 ≤ start) :
    (statusWord s).extractLsb' start len =
      ((0 : BitVec 22) ++ fieldLastOp s ++ fieldErr s).extractLsb' (start - 4) len := by
  unfold statusWord
  rw [BitVec.extractLsb'_append_eq_of_le (by omega), BitVec.extractLsb'_append_eq_of_le (by omega),
    BitVec.extractLsb'_append_eq_of_le (by omega), BitVec.extractLsb'_append_eq_of_le (by omega)]
  rfl

theorem statusWord_err (s : State) : (statusWord s).extractLsb' 4 4 = s.pl.err := by
  rw [statusWord_above_flags s 4 le_rfl]
  exact BitVec.extractLsb'_append_eq_right

theorem statusWord_lastOp (s : State) : (statusWord s).extractLsb' 8 2 = fieldLastOp s := by
  rw [statusWord_above_flags s 2 (by decide), BitVec.extractLsb'_append_eq_of_le (by decide)]
  exact BitVec.extractLsb'_append_eq_right

theorem statusWord_high (s : State) : (statusWord s).extractLsb' 10 22 = 0 := by
  rw [statusWord_above_flags s 22 (by decide), BitVec.extractLsb'_append_eq_of_le (by decide)]
  exact BitVec.extractLsb'_append_eq_left

/-- The numbers of `LAST_OP` (spec/10_state.md R42). -/
theorem fieldLastOp_toNat (s : State) :
    (fieldLastOp s).toNat =
      (match s.pl.op with | .none => 0 | .init => 1 | .compress => 2 | .decompress => 3) := by
  unfold fieldLastOp
  cases s.pl.op <;> rfl

/-- `BUSY` asks for `Running`, `DONE` for another state. -/
theorem statusWord_not_busy_and_done (s : State) :
    ¬((statusWord s).getLsbD 0 = true ∧ (statusWord s).getLsbD 1 = true) := by
  rw [statusWord_busy, statusWord_done]
  rintro ⟨isBusy, isDone⟩
  have running : s.pl.state = .running := of_decide_eq_true isBusy
  simp [running] at isDone

/-! ## Reading `STATUS` -/

/-- A register read at the head of the script, nothing on the bus, is what the step performs. -/
theorem step_eq_hostRead {s : State} {off : Nat} {rest : List HostAction} (hbus : s.bus = none)
    (hhost : s.host = .rd off :: rest) : step s = hostRead off (s.setHost rest) := by
  simpa [hbus, hhost] using step_cases s

/-- `STATUS` is read whether the block runs or not (spec/10_state.md R53). -/
theorem hostRead_status (s : State) : hostRead 0x04 s = .next (s.setRdata (statusWord s)) :=
  hostRead_eq_next.2 ⟨rfl, .inr ⟨fun h => h.2 rfl, rfl⟩⟩

/-- Reading `STATUS` at the head of the script takes the read away and shows the word of the state
before it: the script is no part of unit PIPE. -/
theorem step_read_status {s : State} {rest : List HostAction} (hbus : s.bus = none)
    (hhost : s.host = .rd 0x04 :: rest) :
    step s = .next { s with host := rest, rdata := statusWord s } := by
  rw [step_eq_hostRead hbus hhost, hostRead_status]
  rfl

/-! ## After hardware reset -/

theorem statusWord_reset : statusWord State.reset = 0 := by decide

/-! ## The obligations -/

/-- Settles O12: each field by its place in the word, the read by the host's side of the step. -/
theorem statusFieldsAreThePlState : Obligations.StatusFieldsAreThePlState := by
  refine ⟨statusWord_reset, fun s => ⟨fun rest => step_read_status, statusWord_busy s,
    statusWord_done s, statusWord_modelInit s, statusWord_bit3 s, statusWord_err s, ?lastOp,
    statusWord_high s, statusWord_not_busy_and_done s, ?err⟩⟩
  case lastOp =>
    rw [statusWord_lastOp]
    exact fieldLastOp_toNat s
  case err =>
    rintro ⟨nonzero_iff_faulted, -⟩
    rw [statusWord_err]
    exact nonzero_iff_faulted

/-- Settles O13: each unit's reset value is the record of spec/10_state.md R55, and `STATUS` is read
off unit PIPE's. -/
theorem resetGivesTheListedValues : Obligations.ResetGivesTheListedValues := by
  have bc : State.reset.bc = ⟨.closed, 0, 0, 0, 0, 0, 0⟩ := rfl
  have est : State.reset.est = ⟨0, 0, 3⟩ := rfl
  have pl : State.reset.pl = ⟨.idle, .none, 0, 0, 0, 0, false⟩ := rfl
  have regs : State.reset.regs = ⟨0, 0, 0, 0, 0, 0⟩ := rfl
  simp [Obligations.ResetGivesTheListedValues, bc, est, pl, regs, statusWord_reset, Bc.cursor]

end Sys2Proof.Machine
end

section
/-! PROOFS. Command words (spec/30_encoding.md R101 to R105): which words are reserved, and what a
block that does not run does with one. -/

namespace Sys2Proof.Machine

/-! ## The word and its two fields -/

/-- A command word is its reserved field above its `OPCODE` (spec/30_encoding.md R101). -/
theorem cmdReserved_append_cmdOpcode (w : Word) : cmdReserved w ++ cmdOpcode w = w := by
  unfold cmdReserved cmdOpcode
  rw [BitVec.extractLsb'_append_extractLsb'_eq_extractLsb' (by rfl)]
  exact BitVec.extractLsb'_eq_self

/-- The words outside the command table are the reserved ones (spec/30_encoding.md R104, R105): with
the reserved field zero, a word is its `OPCODE`. -/
theorem decodeCmd_reserved {w : Word} (not_init : w ≠ 1) (not_compress : w ≠ 2)
    (not_decompress : w ≠ 3) : decodeCmd w = .error (.reservedCommand w) := by
  unfold decodeCmd
  split
  · next reserved_zero =>
    have word_eq : w = (0 : BitVec 28) ++ cmdOpcode w := by
      rw [← reserved_zero, cmdReserved_append_cmdOpcode]
    have opcode_ne {c : BitVec 4} (h : w ≠ (0 : BitVec 28) ++ c) : cmdOpcode w ≠ c :=
      fun opcode_eq => h (opcode_eq ▸ word_eq)
    rw [if_neg (opcode_ne not_init), if_neg (opcode_ne not_compress),
      if_neg (opcode_ne not_decompress)]
  · rfl

/-! ## What is done with a reserved word -/

/-- Rejection at acceptance: code 1 and `Faulted`, nothing else (spec/60_exceptions.md R216,
R221). -/
theorem submitReserved_not_running {s : State} (h : s.pl.state ≠ .running) :
    submitReserved s = s.setPl { s.pl with err := 1, state := .faulted } := by
  unfold submitReserved
  rw [if_neg h, takeFault_rejected (by decide)]
  rfl

theorem runPacket_cmd_reserved {w : Word} {s : State}
    (reserved : decodeCmd w = .error (.reservedCommand w)) :
    runPacket (.cmd w) s = .next (submitReserved s) := by
  have decoded : decode (.cmd w) = .error (.reservedCommand w) := reserved
  unfold runPacket
  rw [decoded]

/-- A write to `CMD` submits the word (spec/10_state.md R41). -/
theorem hostWrite_cmd_reserved {w : Word} {s : State} (h : s.pl.state ≠ .running)
    (reserved : decodeCmd w = .error (.reservedCommand w)) :
    hostWrite 0x00 w s = .next (submitReserved s) := by
  have submitted : submitWord w s = submitReserved s := by
    unfold submitWord
    rw [reserved]
  exact hostWrite_eq_next.2 ⟨rfl, .inr (.inl ⟨h, rfl, submitted.symm⟩)⟩

/-! ## The two forms of a `CMD` write as steps -/

/-- A command at the head of the script, nothing on the bus, is what the step performs. -/
theorem step_eq_runPacket_cmd {s : State} {w : Word} {rest : List HostAction}
    (hbus : s.bus = none) (hhost : s.host = .cmd w :: rest) :
    step s = runPacket (.cmd w) (s.setHost rest) := by
  simpa [hbus, hhost] using step_cases s

/-- A register write at the head of the script, nothing on the bus, is what the step performs. -/
theorem step_eq_hostWrite {s : State} {off : Nat} {v : Word} {rest : List HostAction}
    (hbus : s.bus = none) (hhost : s.host = .wr off v :: rest) :
    step s = hostWrite off v (s.setHost rest) := by
  simpa [hbus, hhost] using step_cases s

/-! ## The obligation -/

/-- Settles O5: with or without waiting for the end, the step submits the word, which decodes to no
command and is rejected at acceptance. -/
theorem reservedCommandWordIsRejected : Obligations.ReservedCommandWordIsRejected := by
  intro s w rest hbus not_running not_init not_compress not_decompress written
  have reserved := decodeCmd_reserved not_init not_compress not_decompress
  have submitted : step s = .next (submitReserved (s.setHost rest)) := by
    rcases written with waiting | not_waiting
    · rw [step_eq_runPacket_cmd hbus waiting, runPacket_cmd_reserved reserved]
    · rw [step_eq_hostWrite hbus not_waiting]
      exact hostWrite_cmd_reserved not_running reserved
  rw [submitted, submitReserved_not_running (s := s.setHost rest) not_running]
  rfl

end Sys2Proof.Machine
end

section
/-! PROOFS. Unit BC, the cursor, the opens, the reload and the read close
(spec/40_bit_channel.md R121, R122, R131, R133): each as the record it leaves. -/

namespace Sys2Proof.Machine

/-! ## Unit BC by its cursor

The rules speak of the cursor, the record holds `cur` and `carry`. -/

/-- Two channels are equal when their cursors and their other fields are. -/
theorem Bc.ext_cursor {a b : Bc} (mode : a.mode = b.mode) (cursor : a.cursor = b.cursor)
    (stop : a.stop = b.stop) (lim : a.lim = b.lim) (acc : a.acc = b.acc) (fill : a.fill = b.fill) :
    a = b := by
  have cur : a.cur = b.cur := by rw [← a.cursor_setWidth, cursor, b.cursor_setWidth]
  have carry : a.carry = b.carry := by
    apply BitVec.eq_of_toNat_eq
    have h := congrArg BitVec.toNat cursor
    rw [Bc.cursor_toNat, Bc.cursor_toNat, cur] at h
    omega
  cases a
  cases b
  simp_all

/-- A cursor below the top of the address space sets `bc.cur` and clears the carry. -/
theorem Bc.setCursor_setWidth (b : Bc) (base : Word) :
    b.setCursor (base.setWidth 33) = { b with cur := base, carry := 0 } := by
  have cursor : (b.setCursor (base.setWidth 33)).cursor =
      ({ b with cur := base, carry := 0 } : Bc).cursor := by
    rw [Bc.cursor_setCursor, Bc.cursor_of_carry rfl]
  exact Bc.ext_cursor rfl cursor rfl rfl rfl rfl

/-! ## What the operations on the bus perform -/

theorem exec_bcOpenR (base : Word) (stop : WideAddr) (s : State) :
    exec (.bcOpenR base stop) s = settle (inMode .closed s (openRead base stop s)) := rfl

theorem exec_bcOpenW (base : Word) (lim : WideAddr) (s : State) :
    exec (.bcOpenW base lim) s = settle (inMode .closed s (openWrite base lim s)) := rfl

theorem exec_bcReload (s : State) : exec .bcReload s = settle (reload s) := rfl

theorem exec_bcCloseR (s : State) : exec .bcCloseR s = settle (closeRead s) := rfl

/-! ## The reload -/

/-- With a word left in the region, the reload brings it (spec/40_bit_channel.md R131). -/
theorem reload_word {s : State} (mode : s.bc.mode = .read)
    (left : s.bc.cursor.toNat + 4 ≤ s.bc.stop.toNat) (aligned : s.bc.cursor.toNat % 4 = 0)
    (inside : s.bc.cursor.toNat < Config.addressSpace) :
    reload s = .ok () (s.setBc (bcLoaded (s.mem.wordAt s.bc.cursor.toNat) s.bc)) :=
  reload_eq_ok.2 ⟨mode, .inl ⟨left, aligned, inside, rfl⟩⟩

/-- With no word left in the region, the reload brings the sentinel
(spec/40_bit_channel.md R131). -/
theorem reload_sentinel {s : State} (mode : s.bc.mode = .read)
    (exhausted : s.bc.stop.toNat < s.bc.cursor.toNat + 4) :
    reload s = .ok () (s.setBc (bcPadded s.bc)) :=
  reload_eq_ok.2 ⟨mode, .inr ⟨exhausted, rfl⟩⟩

/-! ## The open of a read region -/

theorem readRegionOk_iff {base : Word} {stop : WideAddr} :
    readRegionOk base stop = true ↔
      base.toNat % 4 = 0 ∧ base.toNat ≤ stop.toNat ∧ (stop.toNat - base.toNat) % 4 = 0 := by
  simp [readRegionOk, and_assoc]

theorem bcOpenedRead_cursor_toNat (base : Word) (stop : WideAddr) (b : Bc) :
    (bcOpenedRead base stop b).cursor.toNat = base.toNat := by
  rw [bcOpenedRead_cursor, BitVec.toNat_setWidth_of_le (by decide)]

/-- The open of an empty region brings the sentinel at once (spec/40_bit_channel.md R121). -/
theorem openRead_empty {s : State} {base : Word} {stop : WideAddr}
    (valid : readRegionOk base stop = true) (empty : stop.toNat = base.toNat) :
    openRead base stop s = .ok () (s.setBc (bcPadded (bcOpenedRead base stop s.bc))) := by
  have exhausted : stop.toNat < (bcOpenedRead base stop s.bc).cursor.toNat + 4 := by
    rw [bcOpenedRead_cursor_toNat]
    omega
  exact openRead_eq_ok.2 ⟨valid, reload_sentinel rfl exhausted⟩

/-- The open of any other region brings its first word (spec/40_bit_channel.md R121). -/
theorem openRead_nonempty {s : State} {base : Word} {stop : WideAddr}
    (valid : readRegionOk base stop = true) (nonempty : base.toNat < stop.toNat) :
    openRead base stop s =
      .ok () (s.setBc (bcLoaded (s.mem.wordAt base.toNat) (bcOpenedRead base stop s.bc))) := by
  obtain ⟨aligned, -, whole⟩ := readRegionOk_iff.1 valid
  have cursor := bcOpenedRead_cursor_toNat base stop s.bc
  have loaded := reload_word (s := s.setBc (bcOpenedRead base stop s.bc)) rfl
    (show (bcOpenedRead base stop s.bc).cursor.toNat + 4 ≤ stop.toNat by omega)
    (show (bcOpenedRead base stop s.bc).cursor.toNat % 4 = 0 by omega)
    (cursor.trans_lt base.isLt)
  rw [State.setBc_bc, cursor] at loaded
  exact openRead_eq_ok.2 ⟨valid, loaded⟩

/-! ## The obligations -/

/-- Settles O27: in mode `Read` the close answers the channel with its mode replaced. -/
theorem closeReadOnlyCloses : Obligations.CloseReadOnlyCloses := by
  refine ⟨rfl, fun s mode => ?_⟩
  rw [exec_bcCloseR, closeRead, inMode_pos _ mode]
  rfl

/-- Settles O15: the region passes the check, and the open is one replacement of unit BC. -/
theorem openWriteBindsAnEmptyChannel : Obligations.OpenWriteBindsAnEmptyChannel := by
  refine fun s base lim mode aligned ordered => ⟨rfl, ?_⟩
  have opened : openWrite base lim s = .ok () (s.setBc (bcOpenedWrite base lim s.bc)) :=
    openWrite_eq_ok.2 ⟨aligned, ordered, rfl⟩
  rw [exec_bcOpenW, inMode_pos _ mode, opened, Bc.setCursor_setWidth]
  rfl

/-- Settles O24: the two branches of the reload, each with the record it leaves. -/
theorem reloadBringsTheNextWordOrTheSentinel :
    Obligations.ReloadBringsTheNextWordOrTheSentinel := by
  refine ⟨rfl, fun s mode aligned => ⟨fun left inside => ?word, fun exhausted => ?sentinel⟩⟩
  case word =>
    rw [exec_bcReload,
      reload_word mode left (s.bc.cursor_mod_four.trans aligned) (by omega)]
    rfl
  case sentinel =>
    rw [exec_bcReload, reload_sentinel mode exhausted]
    rfl

/-- Settles O23: a region whose end is its base holds no word, any other one a first word, and the
cursor is set from the base in both. -/
theorem openReadLoadsTheFirstWord : Obligations.OpenReadLoadsTheFirstWord := by
  intro s base stop mode aligned ordered whole
  have valid := readRegionOk_iff.2 ⟨aligned, ordered, whole⟩
  refine ⟨rfl, fun empty => ?empty, fun nonempty => ?nonempty⟩
  case empty =>
    rw [exec_bcOpenR, inMode_pos _ mode, openRead_empty valid empty, Bc.setCursor_setWidth]
    rfl
  case nonempty =>
    rw [exec_bcOpenR, inMode_pos _ mode, openRead_nonempty valid nonempty, bcLoaded,
      bcOpenedRead_cursor]
    rfl

end Sys2Proof.Machine
end

section
/-! PROOFS. Unit BC, reading (spec/40_bit_channel.md R128 to R131, R136): the channel after `n` bits
is the closed form `consumedBc`, and each read operation is that many single bits. -/

namespace Sys2Proof.Machine

theorem bitsValue_lt (bits : List Bool) : bitsValue bits < 2 ^ bits.length := by
  induction bits with
  | nil => decide
  | cons b rest ih =>
    have bit_le := b.toNat_le
    rw [bitsValue, List.length_cons, Nat.pow_succ]
    omega

/-- The state after `n` bits of a read channel were consumed: unit BC is `consumedBc`. -/
def State.consumed (s : State) (n : Nat) : State := s.setBc (consumedBc s n)

/-! ## The closed form, field by field -/

section
variable (s : State) (n : Nat)

/-- What is left in the accumulator, whichever word it came from. -/
def consumedAcc : Word :=
  if wordsReloaded s n = 0 then s.bc.acc >>> n
  else reloadWord s (wordsReloaded s n - 1) >>> ((s.bc.fill.toNat + n) % 32)

/-- The valid words among those reloaded: the cursor moves over these only. -/
def wordsLoaded : Nat := min (wordsReloaded s n) ((s.bc.stop.toNat - s.bc.cursor.toNat) / 4)

@[simp] theorem consumedBc_mode : (consumedBc s n).mode = s.bc.mode := by
  unfold consumedBc
  split <;> rfl

@[simp] theorem consumedBc_stop : (consumedBc s n).stop = s.bc.stop := by
  unfold consumedBc
  split <;> rfl

@[simp] theorem consumedBc_lim : (consumedBc s n).lim = s.bc.lim := by
  unfold consumedBc
  split <;> rfl

@[simp] theorem consumedBc_acc : (consumedBc s n).acc = consumedAcc s n := by
  unfold consumedBc consumedAcc
  split <;> rfl

@[simp] theorem consumedBc_cursor :
    (consumedBc s n).cursor = BitVec.ofNat 33 (s.bc.cursor.toNat + 4 * wordsLoaded s n) := by
  unfold consumedBc
  split
  · next none => simp [wordsLoaded, none, Bc.cursor]
  · exact Bc.cursor_setCursor s.bc _

/-- The cursor stays representable: it passes no word beyond the end. -/
theorem consumedBc_cursor_toNat :
    (consumedBc s n).cursor.toNat = s.bc.cursor.toNat + 4 * wordsLoaded s n := by
  have cursor_lt := s.bc.cursor.isLt
  have stop_lt := s.bc.stop.isLt
  rw [consumedBc_cursor, BitVec.toNat_ofNat, Nat.mod_eq_of_lt (by unfold wordsLoaded; omega)]

@[simp] theorem consumedBc_fill :
    (consumedBc s n).fill = BitVec.ofNat 6 ((s.bc.fill.toNat + n) % 32) := by
  unfold consumedBc
  split
  · next none =>
    rw [Nat.mod_eq_of_lt (show s.bc.fill.toNat + n < 32 by unfold wordsReloaded at none; omega)]
  · rfl

theorem consumedBc_fill_toNat : (consumedBc s n).fill.toNat = (s.bc.fill.toNat + n) % 32 := by
  rw [consumedBc_fill, BitVec.toNat_ofNat]
  omega

/-- Before any bit is consumed the closed form is the channel as it is. -/
theorem consumedBc_zero (fill_le : s.bc.fill.toNat ≤ 31) : consumedBc s 0 = s.bc := by
  have none : wordsReloaded s 0 = 0 := by unfold wordsReloaded; omega
  unfold consumedBc
  rw [if_pos none]
  simp

end

/-! ## One more bit -/

section
variable {s : State} {n : Nat}

/-- Position 0 of the accumulator is the bit to be consumed next (spec/40_bit_channel.md R128). -/
theorem consumedAcc_getLsbD_zero (fill_le : s.bc.fill.toNat ≤ 31) :
    (consumedAcc s n).getLsbD 0 = upcomingBit s n := by
  unfold consumedAcc upcomingBit wordsReloaded
  split
  · rw [if_pos (by omega), BitVec.getLsbD_ushiftRight, Nat.add_zero]
  · rw [if_neg (by omega), BitVec.getLsbD_ushiftRight, Nat.add_zero,
      show (n - (32 - s.bc.fill.toNat)) / 32 = (s.bc.fill.toNat + n) / 32 - 1 by omega,
      show (n - (32 - s.bc.fill.toNat)) % 32 = (s.bc.fill.toNat + n) % 32 by omega]

/-- Within a word the next bit moves the accumulator down by one. -/
theorem consumedAcc_succ (within : (s.bc.fill.toNat + n) % 32 < 31) :
    consumedAcc s (n + 1) = consumedAcc s n >>> 1 := by
  have words : wordsReloaded s (n + 1) = wordsReloaded s n := by unfold wordsReloaded; omega
  have fill : (s.bc.fill.toNat + (n + 1)) % 32 = (s.bc.fill.toNat + n) % 32 + 1 := by omega
  unfold consumedAcc
  rw [words, fill]
  split <;> rw [BitVec.shiftRight_add]

/-- The last bit of a word leaves the next word, whole. -/
theorem consumedAcc_succ_reload (last : (s.bc.fill.toNat + n) % 32 = 31) :
    consumedAcc s (n + 1) = reloadWord s (wordsReloaded s n) := by
  have words : wordsReloaded s (n + 1) = wordsReloaded s n + 1 := by unfold wordsReloaded; omega
  have fill : (s.bc.fill.toNat + (n + 1)) % 32 = 0 := by omega
  unfold consumedAcc
  rw [words, fill, if_neg (Nat.succ_ne_zero _)]
  rfl

/-- Within a word one more bit reloads nothing (spec/40_bit_channel.md R128). -/
theorem consumedBc_succ (within : (s.bc.fill.toNat + n) % 32 < 31) :
    consumedBc s (n + 1) = bcConsumed (consumedBc s n) := by
  have loaded : wordsLoaded s (n + 1) = wordsLoaded s n := by
    unfold wordsLoaded wordsReloaded
    omega
  have fill : (s.bc.fill.toNat + (n + 1)) % 32 = (s.bc.fill.toNat + n) % 32 + 1 := by omega
  apply Bc.ext_cursor
  case cursor => simp [loaded]
  case acc => simp [bcConsumed, consumedAcc_succ within]
  case fill => simp [bcConsumed, fill, BitVec.ofNat_add]
  all_goals simp [bcConsumed]

/-- A word is left in the region exactly when fewer were reloaded than it held. -/
theorem consumedBc_left_iff :
    (consumedBc s n).cursor.toNat + 4 ≤ s.bc.stop.toNat ↔
      wordsReloaded s n < (s.bc.stop.toNat - s.bc.cursor.toNat) / 4 := by
  rw [consumedBc_cursor_toNat, wordsLoaded]
  omega

/-- The last bit of a word, with a word left in the region, loads it
(spec/40_bit_channel.md R131). -/
theorem consumedBc_succ_word (last : (s.bc.fill.toNat + n) % 32 = 31)
    (left : (consumedBc s n).cursor.toNat + 4 ≤ s.bc.stop.toNat) :
    consumedBc s (n + 1) =
      bcLoaded (s.mem.wordAt (consumedBc s n).cursor.toNat) (bcConsumed (consumedBc s n)) := by
  have fewer := consumedBc_left_iff.1 left
  have all_loaded : wordsLoaded s n = wordsReloaded s n := Nat.min_eq_left fewer.le
  have one_more : wordsLoaded s (n + 1) = wordsLoaded s n + 1 := by
    unfold wordsLoaded wordsReloaded at *
    omega
  have word : reloadWord s (wordsReloaded s n) = s.mem.wordAt (consumedBc s n).cursor.toNat := by
    rw [consumedBc_cursor_toNat, all_loaded, reloadWord, if_pos (by omega)]
  have fill : (s.bc.fill.toNat + (n + 1)) % 32 = 0 := by omega
  apply Bc.ext_cursor
  case cursor =>
    rw [bcLoaded_cursor, bcConsumed_cursor, consumedBc_cursor, consumedBc_cursor, one_more,
      Nat.mul_succ, ← Nat.add_assoc, BitVec.ofNat_add]
    rfl
  case acc => rw [consumedBc_acc, consumedAcc_succ_reload last, word]; rfl
  case fill => rw [consumedBc_fill, fill]; rfl
  all_goals simp [bcLoaded, bcConsumed]

/-- The last bit of a word, with no word left in the region, brings the sentinel and leaves the
cursor (spec/40_bit_channel.md R131). -/
theorem consumedBc_succ_sentinel (last : (s.bc.fill.toNat + n) % 32 = 31)
    (exhausted : s.bc.stop.toNat < (consumedBc s n).cursor.toNat + 4) :
    consumedBc s (n + 1) = bcPadded (bcConsumed (consumedBc s n)) := by
  have no_fewer := (not_congr consumedBc_left_iff).1 exhausted.not_ge
  have no_more : wordsLoaded s (n + 1) = wordsLoaded s n := by
    unfold wordsLoaded wordsReloaded at *
    omega
  have word : reloadWord s (wordsReloaded s n) = Config.sentinelWord := by
    rw [reloadWord, if_neg (by omega)]
  have fill : (s.bc.fill.toNat + (n + 1)) % 32 = 0 := by omega
  apply Bc.ext_cursor
  case cursor => simp [no_more]
  case acc => rw [consumedBc_acc, consumedAcc_succ_reload last, word]; rfl
  case fill => rw [consumedBc_fill, fill]; rfl
  all_goals simp [bcPadded, bcConsumed]

end

/-! ## The read operations over the closed form -/

section
variable {s : State}

theorem consumed_zero (ready : ReadReady s) : s.consumed 0 = s := by
  obtain ⟨-, fill_le, -, -⟩ := ready
  rw [State.consumed, consumedBc_zero s fill_le, State.setBc_self]

/-- The reload after the last bit of a word, which a ready channel always completes
(spec/40_bit_channel.md R131). -/
theorem reload_consumed (ready : ReadReady s) {n : Nat}
    (last : (s.bc.fill.toNat + n) % 32 = 31) :
    reload (s.setBc (bcConsumed (consumedBc s n))) = .ok () (s.consumed (n + 1)) := by
  obtain ⟨mode, -, aligned, stop_le⟩ := ready
  have read : (consumedBc s n).mode = .read := (consumedBc_mode s n).trans mode
  by_cases left : (consumedBc s n).cursor.toNat + 4 ≤ s.bc.stop.toNat
  case pos =>
    have cursor_aligned : (consumedBc s n).cursor.toNat % 4 = 0 := by
      have start_aligned := s.bc.cursor_mod_four
      rw [consumedBc_cursor_toNat]
      omega
    have inside : (consumedBc s n).cursor.toNat < Config.addressSpace := by omega
    rw [State.consumed, consumedBc_succ_word last left]
    rw [← consumedBc_stop s n] at left
    exact reload_word read left cursor_aligned inside
  case neg =>
    have exhausted : s.bc.stop.toNat < (consumedBc s n).cursor.toNat + 4 := by omega
    rw [State.consumed, consumedBc_succ_sentinel last exhausted]
    rw [← consumedBc_stop s n] at exhausted
    exact reload_sentinel read exhausted

/-- On a ready channel one `getbit` consumes the bit that comes next, reloading when it was the last
of its word (spec/40_bit_channel.md R128). -/
theorem getBit_consumed (ready : ReadReady s) (n : Nat) :
    getBit (s.consumed n) = .ok (upcomingBit s n) (s.consumed (n + 1)) := by
  have ⟨mode, fill_le, _, _⟩ := ready
  have read : (consumedBc s n).mode = .read := (consumedBc_mode s n).trans mode
  have fill := consumedBc_fill_toNat s n
  have bit : upcomingBit s n = (consumedBc s n).acc.getLsbD 0 := by
    rw [consumedBc_acc, consumedAcc_getLsbD_zero fill_le]
  refine getBit_eq_ok.2 ⟨read, bit, ?_⟩
  by_cases last : (s.bc.fill.toNat + n) % 32 = 31
  case pos => exact .inr ⟨fill.trans last, reload_consumed ready last⟩
  case neg =>
    have within : (s.bc.fill.toNat + n) % 32 < 31 := by omega
    refine .inl ⟨fill.trans_lt within, ?_⟩
    rw [State.consumed, consumedBc_succ within]
    rfl

/-- `m` calls of `getbit` return the next `m` bits, first bit least significant
(spec/40_bit_channel.md R129, R136). -/
theorem getField_consumed (ready : ReadReady s) (n m : Nat) :
    getField m (s.consumed n) = .ok (bitsValue (upcomingBits s n m)) (s.consumed (n + m)) := by
  induction m generalizing n with
  | zero => rfl
  | succ m ih =>
    have bits : upcomingBits s n (m + 1) = upcomingBit s n :: upcomingBits s (n + 1) m := by
      simp [upcomingBits, List.range_succ_eq_map, Function.comp_def, Nat.add_assoc, Nat.add_comm 1]
    rw [getField, getBit_consumed ready, Res.bind_ok, ih, Res.bind_ok, bits, bitsValue,
      Nat.add_right_comm, Nat.add_assoc]

/-- A scan with fuel to spare stops at the first 1 bit and consumes it (spec/40_bit_channel.md
R130). -/
theorem scanUnary_consumed (ready : ReadReady s) {n q fuel : Nat}
    (zeros : ∀ j, j < q → upcomingBit s (n + j) = false) (one : upcomingBit s (n + q) = true)
    (enough : q < fuel) : scanUnary fuel (s.consumed n) = .ok q (s.consumed (n + q + 1)) := by
  induction q generalizing n fuel with
  | zero =>
    obtain ⟨fuel, rfl⟩ := Nat.exists_eq_add_one.2 enough
    rw [scanUnary, getBit_consumed ready, Res.bind_ok]
    exact if_pos one
  | succ q ih =>
    obtain ⟨fuel, rfl⟩ := Nat.exists_eq_add_one.2 (Nat.zero_lt_of_lt enough)
    have zero : ¬upcomingBit s n = true := by simpa using zeros 0 q.succ_pos
    have shift (j : Nat) : n + 1 + j = n + (j + 1) := by omega
    have rest := ih (n := n + 1) (fuel := fuel)
      (fun j before => by rw [shift]; exact zeros (j + 1) (by omega)) (by rwa [shift]) (by omega)
    rw [scanUnary, getBit_consumed ready, Res.bind_ok, if_neg zero, rest, Res.bind_ok, shift]

end

/-! ## The first 1 bit -/

/-- Bit 31 of the first sentinel word is a 1 (spec/40_bit_channel.md R130, termination). -/
theorem upcomingBit_sentinel (s : State) :
    upcomingBit s (32 * ((s.bc.stop.toNat - s.bc.cursor.toNat) / 4) + (32 - s.bc.fill.toNat) + 31) =
      true := by
  unfold upcomingBit reloadWord
  rw [if_neg (by omega), if_neg (by omega),
    show ∀ m f : Nat, (32 * m + f + 31 - f) % 32 = 31 by omega]
  decide

/-- There is a first 1 bit, no later than that one (spec/40_bit_channel.md R130). -/
theorem exists_first_one (s : State) :
    ∃ q, (∀ j, j < q → upcomingBit s j = false) ∧ upcomingBit s q = true ∧
      q ≤ 32 * ((s.bc.stop.toNat - s.bc.cursor.toNat) / 4) + (32 - s.bc.fill.toNat) + 31 := by
  have some_one : ∃ q, upcomingBit s q = true := ⟨_, upcomingBit_sentinel s⟩
  exact ⟨Nat.find some_one, fun j before => Bool.eq_false_iff.2 (Nat.find_min some_one before),
    Nat.find_spec some_one, Nat.find_min' some_one (upcomingBit_sentinel s)⟩

/-! ## The obligations -/

theorem exec_bcRdfix (n : BitVec 6) (s : State) :
    exec (.bcRdfix n) s = settleValue (rdfix n.toNat s) := rfl

theorem exec_bcRdunary (s : State) : exec .bcRdunary s = settleValue (rdunary s) := rfl

/-- Settles O25: the field is the next `n` bits, read one by one from the channel as it is. -/
theorem rdfixReturnsTheNextBits : Obligations.RdfixReturnsTheNextBits := by
  intro s n ready n_le
  have ⟨mode, _⟩ := ready
  have field := getField_consumed ready 0 n.toNat
  rw [consumed_zero ready, Nat.zero_add] at field
  refine ⟨rfl, ?bound, ?answer⟩
  case bound => simpa [upcomingBits] using bitsValue_lt (upcomingBits s 0 n.toNat)
  case answer =>
    rw [exec_bcRdfix, rdfix, inMode_pos _ mode, if_neg (by omega), field]
    rfl

/-- Settles O26: the sentinel bounds the first 1 bit, and the scan has more fuel than that bound. -/
theorem rdunaryCountsTheZeros : Obligations.RdunaryCountsTheZeros := by
  refine ⟨rfl, fun s ready => ?_⟩
  have ⟨mode, _⟩ := ready
  obtain ⟨q, zeros, one, bound⟩ := exists_first_one s
  have enough : q < scanBound s := by
    unfold scanBound
    omega
  have scan := scanUnary_consumed ready (n := 0) (by simpa using zeros) (by simpa using one) enough
  rw [consumed_zero ready, Nat.zero_add] at scan
  refine ⟨q, zeros, one, bound, ?_⟩
  rw [exec_bcRdunary, rdunary, inMode_pos _ mode, scan]
  rfl

end Sys2Proof.Machine
end

section
/-! PROOFS. Unit BC, writing a word at a time (spec/40_bit_channel.md R138): bits that stay within
the accumulator are placed in one step, the ones that fill it end in one flush, and the two
word-at-a-time forms are instances of that cut. -/

namespace Sys2Proof.Machine

/-! ## Sequencing -/

theorem Res.bind_congr {α β : Type} {r : Res α} {f g : α → State → Res β}
    (h : ∀ a t, r = .ok a t → f a t = g a t) : r.bind f = r.bind g := by
  cases r with
  | ok a t => exact h a t rfl
  | raised | fault | refused => rfl

theorem Res.bind_ok_unit (r : Res Unit) : (r.bind fun _ t => .ok () t) = r := by
  cases r <;> rfl

/-! ## The bits of a field and of a run -/

@[simp] theorem length_fieldBits (value n : Nat) : (fieldBits value n).length = n := by
  induction n generalizing value with
  | zero => rfl
  | succ n ih => rw [fieldBits, List.length_cons, ih]

/-- A field holds its value's low bits. -/
theorem bitsValue_fieldBits (value n : Nat) : bitsValue (fieldBits value n) = value % 2 ^ n := by
  induction n generalizing value with
  | zero => rw [Nat.pow_zero, Nat.mod_one]; rfl
  | succ n ih =>
    have low : (value % 2 == 1).toNat = value % 2 := by
      rcases Nat.mod_two_eq_zero_or_one value with h | h <;> rw [h] <;> rfl
    rw [fieldBits, bitsValue, ih, low, Nat.pow_succ', Nat.mod_mul]

/-- The first `m` bits of a field are the field of that length. -/
theorem take_fieldBits (value : Nat) {m n : Nat} (h : m ≤ n) :
    (fieldBits value n).take m = fieldBits value m := by
  induction m generalizing value n with
  | zero => rfl
  | succ m ih =>
    obtain ⟨n, rfl⟩ := Nat.exists_eq_add_one.2 (Nat.zero_lt_of_lt h)
    rw [fieldBits, List.take_succ_cons, ih _ (Nat.le_of_succ_le_succ h), fieldBits]

/-- The bits of a field after the first `m` are those of the value without them. -/
theorem drop_fieldBits (value m n : Nat) :
    (fieldBits value n).drop m = fieldBits (value / 2 ^ m) (n - m) := by
  induction m generalizing value n with
  | zero => rw [Nat.pow_zero, Nat.div_one]; rfl
  | succ m ih =>
    cases n with
    | zero => rw [Nat.zero_sub]; rfl
    | succ n =>
      rw [fieldBits, List.drop_succ_cons, ih, Nat.div_div_eq_div_mul, ← Nat.pow_succ',
        Nat.succ_sub_succ]

@[simp] theorem length_zeroBits (n : Nat) : (zeroBits n).length = n := List.length_replicate

theorem bitsValue_zeroBits (n : Nat) : bitsValue (zeroBits n) = 0 := by
  induction n with
  | zero => rfl
  | succ n ih => rw [zeroBits, List.replicate_succ, bitsValue, ← zeroBits, ih]; rfl

theorem take_zeroBits {m n : Nat} (h : m ≤ n) : (zeroBits n).take m = zeroBits m := by
  rw [zeroBits, List.take_replicate, Nat.min_eq_left h, zeroBits]

theorem drop_zeroBits (m n : Nat) : (zeroBits n).drop m = zeroBits (n - m) :=
  List.drop_replicate

/-! ## Bits placed in the accumulator -/

/-- Unit BC with bits placed from position `bc.fill` up, in one step. -/
def bcFilled (bits : List Bool) (b : Bc) : Bc :=
  { b with
    acc := b.acc ||| BitVec.ofNat 32 (bitsValue bits * 2 ^ b.fill.toNat)
    fill := BitVec.ofNat 6 (b.fill.toNat + bits.length) }

@[simp] theorem bcFilled_nil (b : Bc) : bcFilled [] b = b := by
  simp [bcFilled, bitsValue]

/-- Zeros leave the accumulator as it is. -/
theorem bcFilled_zeroBits (n : Nat) (b : Bc) :
    bcFilled (zeroBits n) b = { b with fill := BitVec.ofNat 6 (b.fill.toNat + n) } := by
  simp [bcFilled, bitsValue_zeroBits]

/-- `putbit`'s shifted bit as a number. -/
theorem ofBool_shiftLeft (bit : Bool) (f : Nat) :
    (BitVec.ofBool bit).setWidth 32 <<< f = BitVec.ofNat 32 (bit.toNat * 2 ^ f) := by
  apply BitVec.eq_of_toNat_eq
  cases bit <;> simp [Nat.shiftLeft_eq]

/-- A bit, then the others above it, are one number: they share no place. -/
theorem or_bits_cons (bit : Bool) (rest : List Bool) (f : Nat) :
    BitVec.ofNat 32 (bit.toNat * 2 ^ f) ||| BitVec.ofNat 32 (bitsValue rest * 2 ^ (f + 1)) =
      BitVec.ofNat 32 (bitsValue (bit :: rest) * 2 ^ f) := by
  have low : bit.toNat * 2 ^ f < 2 ^ (f + 1) := by
    rw [Nat.pow_succ']
    exact Nat.mul_lt_mul_of_pos_right (Nat.lt_succ_of_le bit.toNat_le) (Nat.two_pow_pos f)
  have value : 2 ^ (f + 1) * bitsValue rest + bit.toNat * 2 ^ f =
      bitsValue (bit :: rest) * 2 ^ f := by
    rw [bitsValue, Nat.pow_succ]
    ring
  rw [← BitVec.ofNat_or, Nat.or_comm, Nat.mul_comm (bitsValue rest),
    ← Nat.two_pow_add_eq_or_of_lt low, value]

/-- Placing a bit counts it (spec/40_bit_channel.md R127). -/
theorem bcPlaced_fill_toNat {b : Bc} (bit : Bool) (free : b.fill.toNat ≤ 31) :
    (bcPlaced bit b).fill.toNat = b.fill.toNat + 1 := by
  have one : (1 : BitVec 6).toNat = 1 := rfl
  rw [bcPlaced, BitVec.toNat_add, one, Nat.mod_eq_of_lt (by omega)]

/-- The first bit is placed as `putbit` does, the others after it. -/
theorem bcFilled_cons {b : Bc} (bit : Bool) (rest : List Bool) (free : b.fill.toNat ≤ 31) :
    bcFilled (bit :: rest) b = bcFilled rest (bcPlaced bit b) := by
  have length : b.fill.toNat + (bit :: rest).length = b.fill.toNat + 1 + rest.length := by
    rw [List.length_cons]
    omega
  rw [bcFilled, bcFilled, bcPlaced_fill_toNat bit free, length, ← or_bits_cons,
    ← ofBool_shiftLeft, ← BitVec.or_assoc]
  rfl

/-! ## Writing a list of bits -/

section
variable {s : State} {bits : List Bool}

/-- A bit that leaves a place free is placed, nothing is stored (spec/40_bit_channel.md R127). -/
theorem putBit_within (mode : s.bc.mode = .write) (within : s.bc.fill.toNat < 31) (bit : Bool) :
    putBit bit s = .ok () (s.setBc (bcPlaced bit s.bc)) :=
  putBit_eq_ok.2 ⟨mode, .inl ⟨within, rfl⟩⟩

/-- A bit at the last place is placed and the word is flushed (spec/40_bit_channel.md R127). -/
theorem putBit_last (mode : s.bc.mode = .write) (last : s.bc.fill.toNat = 31) (bit : Bool) :
    putBit bit s = flush (s.setBc (bcPlaced bit s.bc)) := by
  rw [putBit, inMode_pos _ mode, if_neg (by omega), if_pos last]

/-- Bits that leave a place free are placed, nothing is stored (spec/40_bit_channel.md R138). -/
theorem putBits_within (mode : s.bc.mode = .write) (within : s.bc.fill.toNat + bits.length ≤ 31) :
    putBits bits s = .ok () (s.setBc (bcFilled bits s.bc)) := by
  induction bits generalizing s with
  | nil => rw [bcFilled_nil, State.setBc_self]; rfl
  | cons bit rest ih =>
    rw [List.length_cons] at within
    have within' : (bcPlaced bit s.bc).fill.toNat + rest.length ≤ 31 := by
      rw [bcPlaced_fill_toNat bit (by omega)]
      omega
    rw [putBits, putBit_within mode (by omega), Res.bind_ok,
      ih (s := s.setBc (bcPlaced bit s.bc)) mode within', bcFilled_cons bit rest (by omega)]
    rfl

/-- Bits that fill the accumulator exactly are placed and the word is flushed
(spec/40_bit_channel.md R138). -/
theorem putBits_fill (mode : s.bc.mode = .write) (free : s.bc.fill.toNat ≤ 31)
    (fits : s.bc.fill.toNat + bits.length = 32) :
    putBits bits s = flush (s.setBc (bcFilled bits s.bc)) := by
  induction bits generalizing s with
  | nil =>
    rw [List.length_nil] at fits
    omega
  | cons bit rest ih =>
    rw [List.length_cons] at fits
    by_cases last : s.bc.fill.toNat = 31
    case pos =>
      obtain rfl : rest = [] := List.eq_nil_of_length_eq_zero (by omega)
      rw [putBits, putBit_last mode last, bcFilled_cons bit [] free, bcFilled_nil]
      exact Res.bind_ok_unit _
    case neg =>
      have fill := bcPlaced_fill_toNat (b := s.bc) bit free
      have placed := ih (s := s.setBc (bcPlaced bit s.bc)) mode
        (by rw [State.setBc_bc]; omega) (by rw [State.setBc_bc]; omega)
      rw [putBits, putBit_within mode (by omega), Res.bind_ok, placed, bcFilled_cons bit rest free]
      rfl

/-- Bits that fill the accumulator or more: those up to its end, one flush, then the others
(spec/40_bit_channel.md R138). -/
theorem putBits_across (mode : s.bc.mode = .write) (free : s.bc.fill.toNat ≤ 31)
    (across : 32 - s.bc.fill.toNat ≤ bits.length) :
    putBits bits s =
      (flush (s.setBc (bcFilled (bits.take (32 - s.bc.fill.toNat)) s.bc))).bind fun _ t =>
        putBits (bits.drop (32 - s.bc.fill.toNat)) t := by
  have fits : s.bc.fill.toNat + (bits.take (32 - s.bc.fill.toNat)).length = 32 := by
    rw [List.length_take]
    omega
  rw [← putBits_fill mode free fits, ← putBits_append, List.take_append_drop]

/-- A write channel at the start of a word. -/
def WordStart (s : State) : Prop := s.bc.mode = .write ∧ s.bc.acc = 0 ∧ s.bc.fill = 0

/-- A completed flush leaves the channel at the start of a word (spec/40_bit_channel.md R126). -/
theorem flush_wordStart {t : State} {u : Unit} (flushed : flush s = .ok u t) : WordStart t := by
  obtain ⟨mode, -, -, -, rfl⟩ := flush_eq_ok.1 flushed
  exact ⟨mode, rfl, rfl⟩

/-- At the start of a word fewer than 32 bits are the accumulator. -/
theorem putBits_wordStart (start : WordStart s) (within : bits.length < 32) :
    putBits bits s = .ok () (s.setBc { s.bc with
      acc := BitVec.ofNat 32 (bitsValue bits), fill := BitVec.ofNat 6 bits.length }) := by
  obtain ⟨mode, acc, fill⟩ := start
  have fill_zero : s.bc.fill.toNat = 0 := congrArg BitVec.toNat fill
  rw [putBits_within mode (by omega), bcFilled, acc, fill_zero]
  simp

end

/-! ## The word-at-a-time forms -/

/-- `BC.WRFIX` a word at a time (spec/40_bit_channel.md R138): the field's low bits fill the room,
the others start the next word. -/
theorem wrfix_eq_wrfixByWords {s : State} (mode : s.bc.mode = .write)
    (free : s.bc.fill.toNat ≤ 31) (value : Nat) {n : Nat} (n_le : n ≤ 32) :
    wrfix value n s = wrfixByWords value n s := by
  rw [wrfix, inMode_pos _ mode, if_neg (by omega), wrfixByWords]
  split
  case isTrue within =>
    rw [putBits_within mode (by rw [length_fieldBits]; omega), bcFilled, bitsValue_fieldBits,
      length_fieldBits]
  case isFalse across =>
    have room_le : 32 - s.bc.fill.toNat ≤ n := by omega
    have low : bcFilled (fieldBits value (32 - s.bc.fill.toNat)) s.bc =
        { s.bc with
          acc := s.bc.acc ||| BitVec.ofNat 32
            (value % 2 ^ n % 2 ^ (32 - s.bc.fill.toNat) * 2 ^ s.bc.fill.toNat)
          fill := 32 } := by
      rw [bcFilled, bitsValue_fieldBits, length_fieldBits,
        Nat.mod_mod_of_dvd _ (Nat.pow_dvd_pow 2 room_le), Nat.add_sub_of_le (by omega)]
      rfl
    have high : value / 2 ^ (32 - s.bc.fill.toNat) % 2 ^ (n - (32 - s.bc.fill.toNat)) =
        value % 2 ^ n / 2 ^ (32 - s.bc.fill.toNat) := by
      rw [← Nat.mod_mul_right_div_self, ← Nat.pow_add, Nat.add_sub_of_le room_le]
    rw [putBits_across mode free (by rwa [length_fieldBits]), take_fieldBits _ room_le,
      drop_fieldBits, low]
    refine Res.bind_congr fun _ t flushed => ?_
    rw [putBits_wordStart (flush_wordStart flushed) (by rw [length_fieldBits]; omega),
      bitsValue_fieldBits, length_fieldBits, high]

/-- A run from the start of a word is its whole zero words, then the rest of it
(spec/40_bit_channel.md R138). -/
theorem putBits_zeros_eq_zeroWords {t : State} (start : WordStart t) (words : Nat) {rest : Nat}
    (rest_lt : rest < 32) : putBits (zeroBits (32 * words + rest)) t = zeroWords words rest t := by
  induction words generalizing t with
  | zero =>
    obtain ⟨mode, -, fill⟩ := start
    have fill_zero : t.bc.fill.toNat = 0 := congrArg BitVec.toNat fill
    rw [Nat.mul_zero, Nat.zero_add, putBits_within mode (by rw [length_zeroBits]; omega),
      bcFilled_zeroBits, fill_zero, Nat.zero_add]
    rfl
  | succ words ih =>
    obtain ⟨mode, -, fill⟩ := start
    have room : 32 - t.bc.fill.toNat = 32 := by rw [fill]; rfl
    have zero_word : bcFilled (zeroBits 32) t.bc = { t.bc with fill := 32 } := by
      rw [bcFilled_zeroBits, fill]
      rfl
    rw [putBits_across mode (by omega) (by rw [room, length_zeroBits]; omega), room,
      take_zeroBits (by omega), drop_zeroBits, zero_word, zeroWords,
      show 32 * (words + 1) + rest - 32 = 32 * words + rest by omega]
    exact Res.bind_congr fun _ u flushed => ih (flush_wordStart flushed)

/-- `BC.WRZERO` a word at a time (spec/40_bit_channel.md R138): zeros fill the room, the others are
whole words and a rest. -/
theorem wrzero_eq_wrzeroByWords {s : State} (mode : s.bc.mode = .write)
    (free : s.bc.fill.toNat ≤ 31) (n : Nat) : wrzero n s = wrzeroByWords n s := by
  rw [wrzero, inMode_pos _ mode, wrzeroByWords]
  split
  case isTrue within =>
    rw [putBits_within mode (by rw [length_zeroBits]; omega), bcFilled_zeroBits]
  case isFalse across =>
    have room_le : 32 - s.bc.fill.toNat ≤ n := by omega
    have zeros : bcFilled (zeroBits (32 - s.bc.fill.toNat)) s.bc = { s.bc with fill := 32 } := by
      rw [bcFilled_zeroBits, Nat.add_sub_of_le (by omega)]
      rfl
    rw [putBits_across mode free (by rwa [length_zeroBits]), take_zeroBits room_le, drop_zeroBits,
      zeros]
    refine Res.bind_congr fun _ t flushed => ?_
    rw [← putBits_zeros_eq_zeroWords (flush_wordStart flushed) _ (Nat.mod_lt _ (by decide)),
      Nat.div_add_mod]

/-- Settles O19: the two forms cut the same bits at the same flushes; what the accumulator holds
from `bc.fill` up plays no part. -/
theorem wordAtATimeWritesEqualBitSerialOnes :
    Obligations.WordAtATimeWritesEqualBitSerialOnes := by
  intro s mode free _
  exact ⟨fun value n n_le => wrfix_eq_wrfixByWords mode free value n_le,
    wrzero_eq_wrzeroByWords mode free⟩

end Sys2Proof.Machine
end

section
/-! PROOFS. Unit RM (spec/41_rank_model.md R151 to R157). `RM.OBSERVE` counts one occurrence and, on
tables that are mutual inverses, permutes the ranks of its context by one transposition. Along the
ranks the frequencies then change at one place only: the rank after the stop point holds the counted
frequency (R157), which is why the order survives. -/

namespace Sys2Proof.Machine

/-! ## What the operations perform -/

theorem exec_rmInit (s : State) : exec .rmInit s = .next (s.setRm rmInitialised) := rfl

theorem exec_rmRankOf (x sym : Byte) (s : State) :
    exec (.rmRankOf x sym) s = .next (s.setResult (s.rm.rankOf x sym).toNat) := rfl

theorem exec_rmSymbolAt (x r : Byte) (s : State) :
    exec (.rmSymbolAt x r) s = .next (s.setResult (s.rm.symAt x r).toNat) := rfl

theorem exec_rmObserve (x sym : Byte) (s : State) :
    exec (.rmObserve x sym) s = settle (observe x sym s) := rfl

/-- `RM.OBSERVE` completes exactly on an entry that is not full (spec/41_rank_model.md R158). -/
theorem exec_rmObserve_eq_next {x sym : Byte} {s t : State} :
    exec (.rmObserve x sym) s = .next t ↔
      (s.rm.freqAt x sym).toNat < 4294967295 ∧ t = s.setRm (observed s.rm x sym) := by
  have freq_lt := (s.rm.freqAt x sym).isLt
  rw [exec_rmObserve, observe]
  split
  case isTrue full => simp [settle, full]
  case isFalse room =>
    have room_lt : (s.rm.freqAt x sym).toNat < 4294967295 := by omega
    simp [settle, room_lt, eq_comm]

/-- A count that is not full grows by one without wrapping. -/
theorem toNat_add_one_of_room {f : BitVec 32} (room : f.toNat < 4294967295) :
    (f + 1).toNat = f.toNat + 1 := by bv_omega

/-! ## The tables after `RM.INIT` -/

/-- A context's entry number is the low byte of its key. -/
theorem ofNat_tableKey_mod (x i : Byte) : BitVec.ofNat 8 (tableKey x i % 256) = i := by
  have entry : tableKey x i % 256 = i.toNat := by
    have hi := i.isLt
    rw [tableKey]
    omega
  rw [entry, BitVec.ofNat_toNat, BitVec.setWidth_eq]

theorem rmInitialised_freqAt (x sym : Byte) : rmInitialised.freqAt x sym = 0 := rfl

theorem rmInitialised_symAt (x r : Byte) : rmInitialised.symAt x r = r := ofNat_tableKey_mod x r

theorem rmInitialised_rankOf (x sym : Byte) : rmInitialised.rankOf x sym = sym :=
  ofNat_tableKey_mod x sym

/-! ## The scan and the exchange, whatever the tables hold -/

/-- The tables with the occurrence counted and nothing moved. -/
def counted (m : Rm) (x sym : Byte) : Rm := m.setFreq x sym (m.freqAt x sym + 1)

@[simp] theorem counted_symAt (m : Rm) (x sym y j : Byte) :
    (counted m x sym).symAt y j = m.symAt y j := rfl
@[simp] theorem counted_rankOf (m : Rm) (x sym y u : Byte) :
    (counted m x sym).rankOf y u = m.rankOf y u := rfl

/-- The rank one after the stop point of the scan of `RM.OBSERVE`. -/
def targetRank (m : Rm) (x sym : Byte) : Byte :=
  BitVec.ofNat 8 (scanRank (counted m x sym) x ((counted m x sym).freqAt x sym).toNat
    (m.rankOf x sym).toNat)

section
variable (m : Rm) (x sym : Byte)

theorem observed_eq_ite : observed m x sym =
    if m.symAt x (targetRank m x sym) = sym then counted m x sym
    else exchangeRanks (counted m x sym) x sym (m.symAt x (targetRank m x sym)) (m.rankOf x sym)
      (targetRank m x sym) := rfl

theorem observed_of_eq (same : m.symAt x (targetRank m x sym) = sym) :
    observed m x sym = counted m x sym := by
  rw [observed_eq_ite, if_pos same]

theorem observed_of_ne (moved : m.symAt x (targetRank m x sym) ≠ sym) :
    observed m x sym = exchangeRanks (counted m x sym) x sym (m.symAt x (targetRank m x sym))
      (m.rankOf x sym) (targetRank m x sym) := by
  rw [observed_eq_ite, if_neg moved]

/-- The exchange moves no count. -/
theorem observed_freqAt_eq_counted (y u : Byte) :
    (observed m x sym).freqAt y u = (counted m x sym).freqAt y u := by
  rw [observed_eq_ite]
  split
  · rfl
  · exact exchangeRanks_freqAt ..

theorem observed_freqAt (y u : Byte) : (observed m x sym).freqAt y u =
    if y = x ∧ u = sym then m.freqAt x sym + 1 else m.freqAt y u := by
  rw [observed_freqAt_eq_counted, counted, Rm.freqAt_setFreq]

theorem observed_freqAt_self : (observed m x sym).freqAt x sym = m.freqAt x sym + 1 := by
  rw [observed_freqAt, if_pos ⟨rfl, rfl⟩]

theorem observed_freqAt_of_ne {y u : Byte} (h : ¬(y = x ∧ u = sym)) :
    (observed m x sym).freqAt y u = m.freqAt y u := by
  rw [observed_freqAt, if_neg h]

/-- The scan ends at a rank, so the byte loses nothing. -/
theorem targetRank_toNat : (targetRank m x sym).toNat =
    scanRank (counted m x sym) x ((observed m x sym).freqAt x sym).toNat
      (m.rankOf x sym).toNat := by
  have rank_lt := (m.rankOf x sym).isLt
  have scan_le := (scanRank_spec (counted m x sym) x ((counted m x sym).freqAt x sym).toNat
    (m.rankOf x sym).toNat).1
  rw [observed_freqAt_eq_counted, targetRank, BitVec.toNat_ofNat, Nat.mod_eq_of_lt (by omega)]

theorem targetRank_le : (targetRank m x sym).toNat ≤ (m.rankOf x sym).toNat := by
  rw [targetRank_toNat]
  exact (scanRank_spec ..).1

variable {m x sym}

/-- Every rank the scan passed holds a frequency below the counted one. -/
theorem observed_freqAt_lt_of_passed {j : Byte}
    (from_target : (targetRank m x sym).toNat ≤ j.toNat)
    (above : j.toNat < (m.rankOf x sym).toNat) :
    ((observed m x sym).freqAt x (m.symAt x j)).toNat <
      ((observed m x sym).freqAt x sym).toNat := by
  rw [targetRank_toNat] at from_target
  obtain ⟨-, passed, -⟩ := scanRank_spec (counted m x sym) x
    ((observed m x sym).freqAt x sym).toNat (m.rankOf x sym).toNat
  simpa [observed_freqAt_eq_counted] using passed j.toNat from_target above

/-- The stop point holds at least the counted frequency. -/
theorem le_observed_freqAt_of_stop {p : Byte} (stop : p.toNat + 1 = (targetRank m x sym).toNat) :
    ((observed m x sym).freqAt x sym).toNat ≤
      ((observed m x sym).freqAt x (m.symAt x p)).toNat := by
  rw [targetRank_toNat] at stop
  obtain ⟨-, -, stopped⟩ := scanRank_spec (counted m x sym) x
    ((observed m x sym).freqAt x sym).toNat (m.rankOf x sym).toNat
  rw [← stop] at stopped
  simpa [observed_freqAt_eq_counted] using stopped (Nat.succ_pos p.toNat)

end

/-! ## On mutual inverses: one transposition of ranks -/

theorem MutualInverses.symAt_rankOf {m : Rm} (inverses : MutualInverses m) (x u : Byte) :
    m.symAt x (m.rankOf x u) = u := inverses.left x u

theorem MutualInverses.rankOf_symAt {m : Rm} (inverses : MutualInverses m) (x j : Byte) :
    m.rankOf x (m.symAt x j) = j := inverses.right x j

/-- A symbol's rank and a rank's symbol are one relation. -/
theorem MutualInverses.rankOf_eq_iff {m : Rm} (inverses : MutualInverses m) {x u j : Byte} :
    m.rankOf x u = j ↔ u = m.symAt x j := by
  constructor
  · rintro rfl
    exact (inverses.symAt_rankOf x u).symm
  · rintro rfl
    exact inverses.rankOf_symAt x j

/-- What `RM.OBSERVE` does to the ranks of context `y`. -/
def rankExchange (m : Rm) (x sym y : Byte) : Equiv.Perm Byte :=
  if y = x then Equiv.swap (targetRank m x sym) (m.rankOf x sym) else 1

theorem rankExchange_same (m : Rm) (x sym : Byte) :
    rankExchange m x sym x = Equiv.swap (targetRank m x sym) (m.rankOf x sym) := if_pos rfl

theorem rankExchange_other {m : Rm} {x sym y : Byte} (other : y ≠ x) :
    rankExchange m x sym y = 1 := if_neg other

theorem rankExchange_rankExchange (m : Rm) (x sym y j : Byte) :
    rankExchange m x sym y (rankExchange m x sym y j) = j := by
  unfold rankExchange
  split
  · exact Equiv.swap_apply_self _ _ j
  · rfl

section
variable {m : Rm} (inverses : MutualInverses m) (x sym : Byte)
include inverses

/-- When the scan ends at the symbol's own rank, no rank changes. -/
theorem rankExchange_of_eq (same : m.symAt x (targetRank m x sym) = sym) (y : Byte) :
    rankExchange m x sym y = 1 := by
  have own_rank : m.rankOf x sym = targetRank m x sym := inverses.rankOf_eq_iff.2 same.symm
  rw [rankExchange, own_rank, Equiv.swap_self]
  exact ite_self _

/-- The symbols along the exchanged ranks. -/
theorem symAt_rankExchange (y j : Byte) : m.symAt y (rankExchange m x sym y j) =
    if y = x ∧ j = m.rankOf x sym then m.symAt x (targetRank m x sym)
    else if y = x ∧ j = targetRank m x sym then sym else m.symAt y j := by
  by_cases hy : y = x
  case pos =>
    subst hy
    rw [rankExchange_same, Equiv.swap_comm, Equiv.swap_apply_def]
    simp only [true_and, apply_ite (m.symAt y), inverses.symAt_rankOf y sym]
  case neg => simp [rankExchange_other hy, hy]

/-- The exchanged ranks of the symbols. -/
theorem rankExchange_rankOf (y u : Byte) : rankExchange m x sym y (m.rankOf y u) =
    if y = x ∧ u = m.symAt x (targetRank m x sym) then m.rankOf x sym
    else if y = x ∧ u = sym then targetRank m x sym else m.rankOf y u := by
  by_cases hy : y = x
  case pos =>
    subst hy
    rw [rankExchange_same, Equiv.swap_apply_def]
    simp only [true_and, inverses.rankOf_eq_iff, inverses.symAt_rankOf y sym]
  case neg => simp [rankExchange_other hy, hy]

/-- `rm.r2s` after `RM.OBSERVE` (spec/41_rank_model.md R157). -/
theorem observed_symAt (y j : Byte) :
    (observed m x sym).symAt y j = m.symAt y (rankExchange m x sym y j) := by
  by_cases same : m.symAt x (targetRank m x sym) = sym
  case pos =>
    rw [observed_of_eq m x sym same, rankExchange_of_eq inverses x sym same]
    rfl
  case neg =>
    rw [observed_of_ne m x sym same, exchangeRanks_symAt, symAt_rankExchange inverses,
      counted_symAt]

/-- `rm.s2r` after `RM.OBSERVE` (spec/41_rank_model.md R157). -/
theorem observed_rankOf (y u : Byte) :
    (observed m x sym).rankOf y u = rankExchange m x sym y (m.rankOf y u) := by
  by_cases same : m.symAt x (targetRank m x sym) = sym
  case pos =>
    rw [observed_of_eq m x sym same, rankExchange_of_eq inverses x sym same]
    rfl
  case neg =>
    rw [observed_of_ne m x sym same, exchangeRanks_rankOf, rankExchange_rankOf inverses,
      counted_rankOf]

theorem observed_rankOf_self : (observed m x sym).rankOf x sym = targetRank m x sym := by
  rw [observed_rankOf inverses, rankExchange_same, Equiv.swap_apply_right]

variable {x sym} in
/-- A symbol of another rank is another symbol, so its count stays. -/
theorem observed_freqAt_symAt_of_ne {j : Byte} (ne : j ≠ m.rankOf x sym) :
    (observed m x sym).freqAt x (m.symAt x j) = m.freqAt x (m.symAt x j) :=
  observed_freqAt_of_ne m x sym fun h => ne (inverses.rankOf_eq_iff.2 h.2.symm).symm

/-- Part (a) of spec/41_rank_model.md R157: a transposition undoes itself. -/
theorem observed_mutualInverses : MutualInverses (observed m x sym) := by
  constructor
  · intro y u
    rw [observed_symAt inverses, observed_rankOf inverses, rankExchange_rankExchange,
      inverses.symAt_rankOf]
  · intro y j
    rw [observed_rankOf inverses, observed_symAt inverses, inverses.rankOf_symAt,
      rankExchange_rankExchange]

end

/-! ## On ordered tables: where the scan stops, and the order after it -/

section
variable {m : Rm} {x sym : Byte} (ok : RankModelOk m)
include ok

theorem RankModelOk.inverses : MutualInverses m := ok.left

/-- The frequencies do not increase along the ranks, a rank and itself included. -/
theorem RankModelOk.freqAt_symAt_le {y i j : Byte} (le : i.toNat ≤ j.toNat) :
    (m.freqAt y (m.symAt y j)).toNat ≤ (m.freqAt y (m.symAt y i)).toNat := by
  rcases Nat.lt_or_eq_of_le le with lt | eq
  · exact ok.right y i j lt
  · rw [BitVec.eq_of_toNat_eq eq]

variable (room : (m.freqAt x sym).toNat < 4294967295)
include room

/-- The ranks above the target are those of at least the counted frequency
(spec/41_rank_model.md R156). -/
theorem lt_targetRank_iff {j : Byte} : j.toNat < (targetRank m x sym).toNat ↔
    j ≠ m.rankOf x sym ∧ (m.freqAt x sym).toNat + 1 ≤ (m.freqAt x (m.symAt x j)).toNat := by
  have counted_toNat : ((observed m x sym).freqAt x sym).toNat = (m.freqAt x sym).toNat + 1 := by
    rw [observed_freqAt_self, toNat_add_one_of_room room]
  have target_le := targetRank_le m x sym
  constructor
  case mp =>
    intro lt
    have target_lt := (targetRank m x sym).isLt
    obtain ⟨p, stop⟩ : ∃ p : Byte, p.toNat + 1 = (targetRank m x sym).toNat :=
      ⟨BitVec.ofNat 8 ((targetRank m x sym).toNat - 1), by rw [BitVec.toNat_ofNat]; omega⟩
    have stop_ge := le_observed_freqAt_of_stop stop
    rw [counted_toNat, observed_freqAt_symAt_of_ne ok.inverses (by rintro rfl; omega)] at stop_ge
    exact ⟨by rintro rfl; omega, stop_ge.trans (ok.freqAt_symAt_le (by omega))⟩
  case mpr =>
    rintro ⟨ne, ge⟩
    by_contra not_lt
    have ne_toNat : j.toNat ≠ (m.rankOf x sym).toNat := fun h => ne (BitVec.eq_of_toNat_eq h)
    rcases Nat.lt_or_gt_of_ne ne_toNat with above | below
    · have passed := observed_freqAt_lt_of_passed (Nat.le_of_not_lt not_lt) above
      rw [counted_toNat, observed_freqAt_symAt_of_ne ok.inverses ne] at passed
      omega
    · have ordered := ok.freqAt_symAt_le (y := x) below.le
      rw [ok.inverses.symAt_rankOf x sym] at ordered
      omega

/-- The symbol at the target has the counted symbol's old frequency: it is at least as frequent by
the order, and no more by where the scan stops (spec/41_rank_model.md R157). -/
theorem freqAt_symAt_targetRank :
    (m.freqAt x (m.symAt x (targetRank m x sym))).toNat = (m.freqAt x sym).toNat := by
  have own_le := ok.freqAt_symAt_le (y := x) (targetRank_le m x sym)
  rw [ok.inverses.symAt_rankOf x sym] at own_le
  by_cases own : targetRank m x sym = m.rankOf x sym
  · rw [own, ok.inverses.symAt_rankOf]
  · have not_above := mt (lt_targetRank_iff ok room).2 (lt_irrefl (targetRank m x sym).toNat)
    have le_own := Nat.lt_succ_iff.1 (not_le.1 fun ge => not_above ⟨own, ge⟩)
    exact le_antisymm le_own own_le

/-- Along the ranks the frequencies change at the target only, which holds the counted one. -/
theorem observed_freqAt_observed_symAt (y j : Byte) :
    ((observed m x sym).freqAt y ((observed m x sym).symAt y j)).toNat =
      if y = x ∧ j = targetRank m x sym then (m.freqAt x sym).toNat + 1
      else (m.freqAt y (m.symAt y j)).toNat := by
  rw [observed_symAt ok.inverses]
  by_cases hy : y = x
  case neg =>
    rw [rankExchange_other hy, observed_freqAt_of_ne m x sym fun h => hy h.1,
      if_neg fun h => hy h.1]
    rfl
  case pos =>
    subst hy
    rw [rankExchange_same]
    by_cases at_target : j = targetRank m y sym
    · rw [at_target, Equiv.swap_apply_left, ok.inverses.symAt_rankOf, observed_freqAt_self,
        toNat_add_one_of_room room, if_pos ⟨rfl, rfl⟩]
    · rw [if_neg fun h => at_target h.2]
      by_cases at_own : j = m.rankOf y sym
      · rw [at_own, Equiv.swap_apply_right, ok.inverses.symAt_rankOf,
          observed_freqAt_symAt_of_ne ok.inverses fun h => at_target (at_own.trans h.symm),
          freqAt_symAt_targetRank ok room]
      · rw [Equiv.swap_apply_of_ne_of_ne at_target at_own,
          observed_freqAt_symAt_of_ne ok.inverses at_own]

/-- Part (b) of spec/41_rank_model.md R157. -/
theorem observed_frequencyOrdered : FrequencyOrdered (observed m x sym) := by
  intro y i j lt
  rw [observed_freqAt_observed_symAt ok room, observed_freqAt_observed_symAt ok room]
  have ordered := ok.freqAt_symAt_le (y := y) lt.le
  split
  case isTrue at_target =>
    obtain ⟨rfl, rfl⟩ := at_target
    have ge := ((lt_targetRank_iff ok room).1 lt).2
    split
    · exact le_rfl
    · exact ge
  case isFalse =>
    split
    case isTrue at_target =>
      obtain ⟨rfl, rfl⟩ := at_target
      rw [freqAt_symAt_targetRank ok room] at ordered
      omega
    case isFalse => exact ordered

theorem observed_rankModelOk : RankModelOk (observed m x sym) :=
  ⟨observed_mutualInverses ok.inverses x sym, observed_frequencyOrdered ok room⟩

end

/-! ## The closed form of the new rank -/

/-- As many symbols hold the ranks below `q` as there are such ranks. -/
theorem length_filter_rankOf_lt {m : Rm} (inverses : MutualInverses m) (x : Byte) {q : Nat}
    (q_le : q ≤ 256) :
    ((List.range 256).filter fun u => decide ((m.rankOf x (BitVec.ofNat 8 u)).toNat < q)).length =
      q := by
  rw [← List.toFinset_card_of_nodup (List.nodup_range.filter _), List.toFinset_filter,
    List.toFinset_range]
  refine (Finset.card_nbij' (t := Finset.range q)
    (fun u => (m.rankOf x (BitVec.ofNat 8 u)).toNat)
    (fun j => (m.symAt x (BitVec.ofNat 8 j)).toNat) ?rank_mem ?sym_mem ?left ?right).trans
    (Finset.card_range q)
  case rank_mem =>
    intro u hu
    have rank_lt := (Finset.mem_filter.1 hu).2
    simpa using rank_lt
  case sym_mem =>
    intro j hj
    have j_lt : j < q := Finset.mem_range.1 hj
    have sym_lt := (m.symAt x (BitVec.ofNat 8 j)).isLt
    simpa [inverses.rankOf_symAt, Nat.mod_eq_of_lt (j_lt.trans_le q_le), j_lt] using sym_lt
  case left =>
    intro u hu
    have u_lt : u < 256 := Finset.mem_range.1 (Finset.mem_filter.1 hu).1
    simpa [inverses.symAt_rankOf] using u_lt
  case right =>
    intro j hj
    have j_lt : j < q := Finset.mem_range.1 hj
    simpa [inverses.rankOf_symAt] using j_lt.trans_le q_le

/-- The new rank counts the other symbols of at least the counted frequency
(spec/41_rank_model.md R156). -/
theorem targetRank_eq_count {m : Rm} (ok : RankModelOk m) {x sym : Byte}
    (room : (m.freqAt x sym).toNat < 4294967295) :
    (targetRank m x sym).toNat =
      ((List.range 256).filter fun u =>
        decide (BitVec.ofNat 8 u ≠ sym) &&
          decide ((m.freqAt x sym).toNat + 1 ≤ (m.freqAt x (BitVec.ofNat 8 u)).toNat)).length := by
  have above_iff (u : Byte) : (m.rankOf x u).toNat < (targetRank m x sym).toNat ↔
      u ≠ sym ∧ (m.freqAt x sym).toNat + 1 ≤ (m.freqAt x u).toNat := by
    rw [lt_targetRank_iff ok room, ok.inverses.symAt_rankOf, Ne, ok.inverses.rankOf_eq_iff,
      ok.inverses.symAt_rankOf]
  rw [← length_filter_rankOf_lt ok.inverses x (targetRank m x sym).isLt.le]
  simp only [above_iff, Bool.decide_and]

/-! ## The obligations -/

/-- Settles O34: the look-ups are the reads of the two tables, latched. -/
theorem rankLookupsReadTheTables : Obligations.RankLookupsReadTheTables := by
  intro s x y
  exact ⟨rfl, rfl, exec_rmRankOf x y s, exec_rmSymbolAt x y s⟩

/-- Settles O33: the tables of `RM.INIT` are one constant, whatever stood there before. -/
theorem rmInitGivesTheIdentity : Obligations.RmInitGivesTheIdentity := by
  refine ⟨rfl, fun s => ⟨_, exec_rmInit s, rfl, fun x i => ?_⟩⟩
  exact ⟨rmInitialised_freqAt x i, rmInitialised_symAt x i, rmInitialised_rankOf x i⟩

/-- Settles O35: the rank after the stop point is `targetRank`, and the tables are those of one
exchange or of none. -/
theorem observeExchangesWithTheSymbolAfterTheStopPoint :
    Obligations.ObserveExchangesWithTheSymbolAfterTheStopPoint := by
  intro s x sym room
  refine ⟨rfl, _, targetRank s.rm x sym, exec_rmObserve_eq_next.2 ⟨room, rfl⟩, rfl,
    observed_freqAt s.rm x sym, targetRank_le s.rm x sym,
    fun _ => observed_freqAt_lt_of_passed, fun _ => le_observed_freqAt_of_stop, ?same, ?moved⟩
  case same =>
    intro same y j
    rw [State.setRm_rm, observed_of_eq s.rm x sym same]
    exact ⟨counted_symAt .., counted_rankOf ..⟩
  case moved =>
    intro moved y j
    rw [State.setRm_rm, observed_of_ne s.rm x sym moved]
    exact ⟨exchangeRanks_symAt .., exchangeRanks_rankOf ..⟩

/-- Settles O37: a transposition keeps the tables mutual inverses, and the frequencies along the
ranks stay ordered. -/
theorem observeKeepsTheRankModel : Obligations.ObserveKeepsTheRankModel := by
  intro s t x sym ok next
  obtain ⟨room, rfl⟩ := exec_rmObserve_eq_next.1 next
  exact observed_rankModelOk ok room

/-- Settles O36: the new rank is `targetRank`, which counts the symbols above it; every rank
moves by the transposition. -/
theorem observeMovesTheSymbolToItsClosedFormRank :
    Obligations.ObserveMovesTheSymbolToItsClosedFormRank := by
  intro s x sym ok room
  refine ⟨_, exec_rmObserve_eq_next.2 ⟨room, rfl⟩, rfl, ?_⟩
  simp only [State.setRm_rm, observed_rankOf_self ok.inverses]
  refine ⟨targetRank_eq_count ok room, ?displaced, ?others, ?count, ?counts, ?contexts⟩
  case displaced =>
    rintro u rfl -
    rw [observed_rankOf ok.inverses, ok.inverses.rankOf_symAt, rankExchange_same,
      Equiv.swap_apply_left]
  case others =>
    intro u ne_sym ne_target
    rw [observed_rankOf ok.inverses, rankExchange_rankOf ok.inverses, if_neg fun h => ne_target h.2,
      if_neg fun h => ne_sym h.2]
  case count => rw [observed_freqAt_self, toNat_add_one_of_room room]
  case counts => exact fun u ne => observed_freqAt_of_ne s.rm x sym fun h => ne h.2
  case contexts =>
    intro y u other
    rw [observed_symAt ok.inverses, observed_rankOf ok.inverses, rankExchange_other other]
    exact ⟨observed_freqAt_of_ne s.rm x sym fun h => other h.1, rfl, rfl⟩

end Sys2Proof.Machine
end

section
/-! PROOFS. Unit BC, a whole write session (spec/40_bit_channel.md R135): what it has stored and what
it holds after each bit, and what its close leaves in memory. -/

namespace Sys2Proof.Machine

/-! ## The bits a word holds and the bits memory holds -/

/-- The word holds word number `w` of the stream, zeros after the stream's end. -/
def HoldsWord (word : Word) (bits : List Bool) (w : Nat) : Prop :=
  ∀ i, i < 32 → word.getLsbD i = bits.getD (32 * w + i) false

/-- Memory from `base` up holds the first `words` words of the stream (spec/40_bit_channel.md
R135). -/
def StoredWords (m : Memory) (base : Nat) (bits : List Bool) (words : Nat) : Prop :=
  ∀ j, j < words → HoldsWord (m.wordAt (base + 4 * j)) bits j

section
variable {bits : List Bool} {w : Nat}

/-- A bit after the end of the stream is placed where the word so far holds zeros. -/
theorem HoldsWord.placed {b : Bc} (holds : HoldsWord b.acc bits w)
    (fill : bits.length = 32 * w + b.fill.toNat) (bit : Bool) :
    HoldsWord (bcPlaced bit b).acc (bits ++ [bit]) w := by
  intro i i_lt
  have placed : (bcPlaced bit b).acc.getLsbD i =
      (b.acc.getLsbD i ||
        (decide (b.fill.toNat ≤ i) && (BitVec.ofBool bit).getLsbD (i - b.fill.toNat))) := by
    rw [bcPlaced, BitVec.getLsbD_or, BitVec.getLsbD_shiftLeft, BitVec.getLsbD_setWidth]
    by_cases free : b.fill.toNat ≤ i
    · simp [i_lt, free, free.not_gt, show i - b.fill.toNat < 32 by omega]
    · simp [free, Nat.lt_of_not_le free]
  rw [placed, holds i i_lt]
  rcases Nat.lt_trichotomy i b.fill.toNat with before | here | after
  · rw [List.getD_append _ _ _ _ (by omega)]
    simp [before]
  · rw [List.getD_append_right _ _ _ _ (by omega), List.getD_eq_default _ _ (by omega), ← here]
    simp [fill, here]
  · rw [List.getD_eq_default _ _ (by omega), List.getD_eq_default _ _ (by simp; omega)]
    simp only [Bool.false_or, Bool.and_eq_false_imp]
    intro
    exact BitVec.getLsbD_of_ge _ _ (by omega)

/-- A word that ends with the stream or before it holds the same in a longer stream. -/
theorem HoldsWord.append {word : Word} (holds : HoldsWord word bits w)
    (inside : 32 * (w + 1) ≤ bits.length) (more : List Bool) :
    HoldsWord word (bits ++ more) w := by
  intro i i_lt
  rw [holds i i_lt, List.getD_append _ _ _ _ (by omega)]

theorem StoredWords.append {m : Memory} {base words : Nat} (stored : StoredWords m base bits words)
    (inside : 32 * words ≤ bits.length) (more : List Bool) :
    StoredWords m base (bits ++ more) words :=
  fun j j_lt => (stored j j_lt).append (by omega) more

/-- The next word of the stream stored after the others. -/
theorem StoredWords.setWord {m : Memory} {base words : Nat}
    (stored : StoredWords m base bits words) {word : Word} (holds : HoldsWord word bits words) :
    StoredWords (m.setWord (base + 4 * words) word) base bits (words + 1) := by
  intro j j_lt
  by_cases last : j = words
  case pos => rwa [last, Memory.wordAt_setWord_same]
  case neg =>
    rw [Memory.wordAt_setWord_other m word (by omega)]
    exact stored j (by omega)

end

/-! ## A write session bit by bit -/

/-- A write session at `base` that has produced `bits`: the full words are stored, the others are in
the accumulator (spec/10_state.md R25, spec/40_bit_channel.md R135). -/
structure WriteSession (base : Nat) (bits : List Bool) (s : State) : Prop where
  mode : s.bc.mode = .write
  fill : s.bc.fill.toNat = bits.length % 32
  cursor : s.bc.cursor.toNat = base + 4 * (bits.length / 32)
  acc : HoldsWord s.bc.acc bits (bits.length / 32)
  stored : StoredWords s.mem base bits (bits.length / 32)

/-- The open starts a session without a bit (spec/40_bit_channel.md R122). -/
theorem WriteSession.of_openWrite {base : Word} {lim : WideAddr} {s t : State} {u : Unit}
    (opened : openWrite base lim s = .ok u t) : WriteSession base.toNat [] t := by
  obtain ⟨-, -, rfl⟩ := openWrite_eq_ok.1 opened
  exact {
    mode := rfl
    fill := rfl
    cursor := by
      rw [State.setBc_bc, bcOpenedWrite_cursor, BitVec.toNat_setWidth_of_le (by decide)]
      rfl
    acc := fun i _ => by simp [bcOpenedWrite]
    stored := fun j j_lt => by simp at j_lt }

/-- A completed flush stores the word the accumulator holds after the others. -/
theorem flush_storedWords {base words : Nat} {bits : List Bool} {s t : State} {u : Unit}
    (cursor : s.bc.cursor.toNat = base + 4 * words) (acc : HoldsWord s.bc.acc bits words)
    (stored : StoredWords s.mem base bits words) (flushed : flush s = .ok u t) :
    t.bc.cursor.toNat = base + 4 * (words + 1) ∧ StoredWords t.mem base bits (words + 1) := by
  obtain ⟨-, room, -, -, rfl⟩ := flush_eq_ok.1 flushed
  constructor
  · have lim_lt := s.bc.lim.isLt
    have four : (4 : WideAddr).toNat = 4 := rfl
    rw [State.setBc_bc, bcFlushed_cursor, BitVec.toNat_add, four, Nat.mod_eq_of_lt (by omega),
      cursor, Nat.mul_succ, Nat.add_assoc]
  · rw [State.setBc_mem, State.setMem_mem, cursor]
    exact stored.setWord acc

section
variable {base : Nat} {bits : List Bool} {s t : State} {u : Unit}

/-- One more bit, whether it fills its word or not (spec/40_bit_channel.md R127). -/
theorem WriteSession.after_putBit (session : WriteSession base bits s) {bit : Bool}
    (put : putBit bit s = .ok u t) : WriteSession base (bits ++ [bit]) t := by
  obtain ⟨mode, fill, cursor, acc, stored⟩ := session
  have placed := acc.placed (by omega) bit
  have stored := stored.append (by omega) [bit]
  have length : (bits ++ [bit]).length = bits.length + 1 := by simp
  obtain ⟨-, ⟨within, rfl⟩ | ⟨last, flushed⟩⟩ := putBit_eq_ok.1 put
  · have words : (bits ++ [bit]).length / 32 = bits.length / 32 := by omega
    refine ⟨mode, ?_, by rwa [words], by rwa [words], by rwa [words]⟩
    rw [State.setBc_bc, bcPlaced_fill_toNat bit (by omega)]
    omega
  · have words : (bits ++ [bit]).length / 32 = bits.length / 32 + 1 := by omega
    obtain ⟨start_mode, start_acc, start_fill⟩ := flush_wordStart flushed
    obtain ⟨cursor, stored⟩ :=
      flush_storedWords (s := s.setBc (bcPlaced bit s.bc)) cursor placed stored flushed
    refine ⟨start_mode, ?_, by rwa [words], fun i _ => ?_, by rwa [words]⟩
    · rw [start_fill, length]
      show 0 = _
      omega
    · rw [start_acc, List.getD_eq_default _ _ (by omega)]
      simp

/-- More bits, one after another. -/
theorem WriteSession.after_putBits (session : WriteSession base bits s) {more : List Bool}
    (put : putBits more s = .ok u t) : WriteSession base (bits ++ more) t := by
  induction more generalizing bits s with
  | nil =>
    cases put
    rwa [List.append_nil]
  | cons bit rest ih =>
    obtain ⟨_, r, one, others⟩ := Res.bind_eq_ok.1 put
    rw [List.append_cons]
    exact ih (session.after_putBit one) others

/-- The close leaves the whole stream in memory, zeros up to the end of its last word
(spec/40_bit_channel.md R134, R135). -/
theorem WriteSession.after_close (session : WriteSession base bits s)
    (closed : closeWrite s = .ok u t) :
    t.bc.cursor.toNat = base + 4 * streamWords bits.length ∧
      StoredWords t.mem base bits (streamWords bits.length) := by
  obtain ⟨-, fill, cursor, acc, stored⟩ := session
  obtain ⟨-, ⟨empty, rfl⟩ | ⟨partly, r, flushed, rfl⟩⟩ := closeWrite_eq_ok.1 closed
  · have words : streamWords bits.length = bits.length / 32 := by unfold streamWords; omega
    rw [words]
    exact ⟨cursor, stored⟩
  · have words : streamWords bits.length = bits.length / 32 + 1 := by unfold streamWords; omega
    rw [words]
    exact flush_storedWords (t := r) cursor acc stored flushed

end

end Sys2Proof.Machine
end

section
/-! PROOFS. Unit BC, a whole read session (spec/40_bit_channel.md R136, R137): reading goes on where
it stopped, and over the words of a stream it sees the stream. -/

namespace Sys2Proof.Machine

/-! ## A read session bit by bit -/

section
variable {s : State}

/-- Every read operation leaves a channel that is ready for the next one. -/
theorem ReadReady.consumed (ready : ReadReady s) (n : Nat) : ReadReady (s.consumed n) := by
  obtain ⟨mode, -, aligned, stop_le⟩ := ready
  have start_aligned := s.bc.cursor_mod_four
  have fill := consumedBc_fill_toNat s n
  refine ⟨(consumedBc_mode s n).trans mode, show (consumedBc s n).fill.toNat ≤ 31 by omega, ?_,
    (congrArg BitVec.toNat (consumedBc_stop s n)).trans_le stop_le⟩
  rw [← Bc.cursor_mod_four, State.consumed, State.setBc_bc, consumedBc_cursor_toNat]
  omega

/-- Consuming bits in two parts is consuming them at once. -/
theorem consumed_consumed (ready : ReadReady s) (n m : Nat) :
    (s.consumed n).consumed m = s.consumed (n + m) := by
  induction m with
  | zero => exact consumed_zero (ready.consumed n)
  | succ m ih =>
    have bit := getBit_consumed (ready.consumed n) m
    rw [ih, getBit_consumed ready] at bit
    exact (Res.ok.inj bit).2.symm

/-- What comes next after `n` bits is what came `n` bits later before them. -/
theorem upcomingBit_consumed (ready : ReadReady s) (n m : Nat) :
    upcomingBit (s.consumed n) m = upcomingBit s (n + m) := by
  have bit := getBit_consumed (ready.consumed n) m
  rw [consumed_consumed ready, getBit_consumed ready] at bit
  exact (Res.ok.inj bit).1.symm

theorem upcomingBits_consumed (ready : ReadReady s) (n len : Nat) :
    upcomingBits (s.consumed n) 0 len = upcomingBits s n len := by
  simp only [upcomingBits, upcomingBit_consumed ready, Nat.zero_add]

@[simp] theorem length_upcomingBits (s : State) (skip len : Nat) :
    (upcomingBits s skip len).length = len := by
  simp [upcomingBits]

theorem upcomingBits_append (s : State) (skip m n : Nat) :
    upcomingBits s skip (m + n) = upcomingBits s skip m ++ upcomingBits s (skip + m) n := by
  simp [upcomingBits, List.range_add, Function.comp_def, Nat.add_assoc]

/-- A stream that comes next in two parts. -/
theorem upcomingBits_eq_append_iff {skip : Nat} {l m : List Bool} :
    upcomingBits s skip (l ++ m).length = l ++ m ↔
      upcomingBits s skip l.length = l ∧ upcomingBits s (skip + l.length) m.length = m := by
  rw [List.length_append, upcomingBits_append]
  have lengths := length_upcomingBits s skip l.length
  exact ⟨fun same => List.append_inj same lengths, fun ⟨left, right⟩ => by rw [left, right]⟩

/-- The scan of `BC.RDUNARY` looks at more bits than the zeros that come next: a sentinel ends them
(spec/40_bit_channel.md R130). -/
theorem lt_scanBound {q : Nat} (zeros : ∀ j, j < q → upcomingBit s j = false) :
    q < scanBound s := by
  by_contra beyond
  have before : 32 * ((s.bc.stop.toNat - s.bc.cursor.toNat) / 4) + (32 - s.bc.fill.toNat) + 31 <
      q := by
    unfold scanBound at beyond
    omega
  exact Bool.false_ne_true ((zeros _ before).symm.trans (upcomingBit_sentinel s))

/-- `BC.RDUNARY` consumes the zeros that come next and the 1 after them
(spec/40_bit_channel.md R130). -/
theorem rdunary_ready (ready : ReadReady s) {q : Nat}
    (zeros : ∀ j, j < q → upcomingBit s j = false) (one : upcomingBit s q = true) :
    rdunary s = .ok q (s.consumed (q + 1)) := by
  have scan := scanUnary_consumed ready (n := 0) (by simpa using zeros) (by simpa using one)
    (lt_scanBound zeros)
  rw [consumed_zero ready, Nat.zero_add] at scan
  rw [rdunary, inMode_pos _ ready.left, scan]

/-- `BC.RDFIX` after `n` bits (spec/40_bit_channel.md R129). -/
theorem rdfix_consumed (ready : ReadReady s) (n : Nat) {m : Nat} (m_le : m ≤ 32) :
    rdfix m (s.consumed n) = .ok (bitsValue (upcomingBits s n m)) (s.consumed (n + m)) := by
  rw [rdfix, inMode_pos _ (ready.consumed n).left, if_neg (by omega), getField_consumed ready]

end

/-! ## The open of a read session -/

/-- A read session over `[base, stop)` of memory `m` as its open leaves it: the first word, if there
is one, is in the accumulator (spec/40_bit_channel.md R121). -/
structure ReadSessionStart (m : Memory) (base stop : Nat) (s : State) : Prop where
  ready : ReadReady s
  mem : s.mem = m
  stop_eq : s.bc.stop.toNat = stop
  fill : s.bc.fill.toNat = 0
  cursor : s.bc.cursor.toNat = base + 4 * min 1 ((stop - base) / 4)
  acc : s.bc.acc = if base + 4 ≤ stop then m.wordAt base else Config.sentinelWord

/-- The open of a valid region completes (spec/40_bit_channel.md R121). -/
theorem openRead_sessionStart {s : State} {base : Word} {stop : WideAddr}
    (valid : readRegionOk base stop = true) (stop_le : stop.toNat ≤ Config.addressSpace) :
    ∃ u, openRead base stop s = .ok () u ∧ ReadSessionStart s.mem base.toNat stop.toNat u := by
  obtain ⟨aligned, ordered, whole⟩ := readRegionOk_iff.1 valid
  have opened := bcOpenedRead_cursor_toNat base stop s.bc
  rcases Nat.eq_or_lt_of_le ordered with empty | nonempty
  · refine ⟨_, openRead_empty valid empty.symm, ⟨rfl, Nat.zero_le 31, aligned, stop_le⟩, rfl, rfl,
      rfl, ?_, ?_⟩
    · rw [State.setBc_bc, bcPadded_cursor, opened]
      omega
    · rw [if_neg (by omega)]
      rfl
  · have cursor : (bcLoaded (s.mem.wordAt base.toNat) (bcOpenedRead base stop s.bc)).cursor.toNat =
        base.toNat + 4 := by
      have four : (4 : WideAddr).toNat = 4 := rfl
      rw [bcLoaded_cursor, BitVec.toNat_add, opened, four, Nat.mod_eq_of_lt (by omega)]
    refine ⟨_, openRead_nonempty valid nonempty, ⟨rfl, Nat.zero_le 31, ?_, stop_le⟩, rfl, rfl,
      rfl, ?_, ?_⟩
    · rw [← Bc.cursor_mod_four, State.setBc_bc, cursor]
      omega
    · rw [State.setBc_bc, cursor]
      omega
    · rw [if_pos (by omega)]
      rfl

theorem sentinelWord_getLsbD {i : Nat} (i_lt : i < 32) :
    Config.sentinelWord.getLsbD i = decide (i = 31) := by
  revert i
  decide

section
variable {m : Memory} {base stop : Nat} {s : State}

/-- What a read session sees: the bits of the region, then the sentinel's
(spec/40_bit_channel.md R136). -/
theorem ReadSessionStart.upcomingBit_eq (start : ReadSessionStart m base stop s) (j : Nat) :
    upcomingBit s j = sessionBit m base stop j := by
  obtain ⟨-, mem, stop_eq, fill, cursor, acc⟩ := start
  have place : upcomingBit s j = (if base + 4 * (j / 32 + 1) ≤ stop then
      m.wordAt (base + 4 * (j / 32)) else Config.sentinelWord).getLsbD (j % 32) := by
    unfold upcomingBit reloadWord
    rw [fill, acc, cursor, stop_eq, mem]
    split
    · next first =>
      rw [Nat.div_eq_of_lt (by omega), Nat.mod_eq_of_lt (by omega)]
      rfl
    · next later =>
      have bit : (j - (32 - 0)) % 32 = j % 32 := by omega
      rw [bit]
      by_cases inside : base + 4 * (j / 32 + 1) ≤ stop
      · have address : base + 4 * min 1 ((stop - base) / 4) + 4 * ((j - (32 - 0)) / 32) =
            base + 4 * (j / 32) := by omega
        rw [if_pos inside, if_pos (by omega), address]
      · rw [if_neg inside, if_neg (by omega)]
  rw [place, sessionBit]
  by_cases inside : base + 4 * (j / 32 + 1) ≤ stop
  · rw [if_pos inside, if_pos (by omega)]
  · rw [if_neg inside, if_neg (by omega), sentinelWord_getLsbD (by omega)]

/-- After `n` bits the cursor is past the words loaded (spec/40_bit_channel.md R136). -/
theorem ReadSessionStart.consumed_cursor (start : ReadSessionStart m base stop s) (n : Nat) :
    (s.consumed n).bc.cursor.toNat = base + 4 * min ((stop - base) / 4) (n / 32 + 1) := by
  obtain ⟨-, -, stop_eq, fill, cursor, -⟩ := start
  rw [State.consumed, State.setBc_bc, consumedBc_cursor_toNat, wordsLoaded, wordsReloaded, cursor,
    fill, stop_eq]
  omega

theorem ReadSessionStart.consumed_fill (start : ReadSessionStart m base stop s) (n : Nat) :
    (s.consumed n).bc.fill.toNat = n % 32 := by
  rw [State.consumed, State.setBc_bc, consumedBc_fill_toNat, start.fill, Nat.zero_add]

/-- A read session over the words of a stream sees the stream (spec/40_bit_channel.md R137). -/
theorem ReadSessionStart.upcomingBits_eq (start : ReadSessionStart m base stop s)
    {bits : List Bool} (stored : StoredWords m base bits (streamWords bits.length))
    (inside : base + 4 * streamWords bits.length ≤ stop) :
    upcomingBits s 0 bits.length = bits := by
  apply List.ext_getElem (length_upcomingBits s 0 bits.length)
  intro j _ j_lt
  have word_lt : j / 32 < streamWords bits.length := by unfold streamWords; omega
  have bit : (upcomingBits s 0 bits.length)[j] = sessionBit m base stop j := by
    simp [upcomingBits, start.upcomingBit_eq]
  rw [bit, sessionBit, if_pos (by omega), stored _ word_lt _ (by omega), Nat.div_add_mod,
    List.getD_eq_getElem _ _ j_lt]

end

end Sys2Proof.Machine
end

section
/-! PROOFS. Units GRE and GRD (spec/42_golomb_rice.md R171 to R177): the encoder puts the bits of
one code word, the decoder consumes one code word, and a session in between keeps them. -/

namespace Sys2Proof.Machine

theorem exec_grdDecode (k : BitVec 5) (s : State) :
    exec (.grdDecode k) s = settleValue (grdDecode k s) := rfl

/-! ## The encoder -/

theorem putBits_singleton (bit : Bool) (s : State) : putBits [bit] s = putBit bit s :=
  Res.bind_ok_unit _

theorem putBits_mode {bits : List Bool} {s t : State} {u : Unit} (put : putBits bits s = .ok u t) :
    t.bc.mode = s.bc.mode :=
  congrArg (·.bc.mode) (putBits_frame (.inl put))

/-- The three writes of `GRE.ENCODE` are the bits of the code word in stream order
(spec/42_golomb_rice.md R171, spec/30_encoding.md R91). -/
theorem greEncode_eq_putBits {s : State} (mode : s.bc.mode = .write) (k : BitVec 5) (value : Nat) :
    greEncode k value s = putBits (codeWord k value) s := by
  rw [greEncode, inMode_pos _ mode, wrzero, inMode_pos _ mode, codeWord, putBits_append]
  refine Res.bind_congr fun _ t zeros => ?_
  have mode_t : t.bc.mode = .write := (putBits_mode zeros).trans mode
  refine Res.bind_congr fun _ u one => ?_
  rw [put1, ← putBits_singleton] at one
  have mode_u : u.bc.mode = .write := (putBits_mode one).trans mode_t
  rw [wrfix, inMode_pos _ mode_u, if_neg (by omega)]

theorem length_codeWord (k : BitVec 5) (value : Nat) :
    (codeWord k value).length = value / 2 ^ k.toNat + 1 + k.toNat := by
  rw [codeWord, List.length_append, List.length_cons, length_zeroBits, length_fieldBits,
    riceQuotient]
  omega

/-! ## The decoder -/

section
variable {s : State} {k : BitVec 5}

/-- `GRD.DECODE` consumes the zeros that come next, the 1 after them and `k` bits more
(spec/42_golomb_rice.md R175, R176). -/
theorem grdDecode_ready (ready : ReadReady s) {q : Nat}
    (zeros : ∀ j, j < q → upcomingBit s j = false) (one : upcomingBit s q = true) :
    grdDecode k s = .ok (q * 2 ^ k.toNat + bitsValue (upcomingBits s (q + 1) k.toNat))
      (s.consumed (q + 1 + k.toNat)) := by
  rw [grdDecode, inMode_pos _ ready.left, rdunary_ready ready zeros one, Res.bind_ok,
    rdfix_consumed ready (q + 1) (by omega), Res.bind_ok]

/-- `GRD.DECODE` of a code word that comes next returns its value and consumes it, no more
(spec/42_golomb_rice.md R177). -/
theorem grdDecode_codeWord (ready : ReadReady s) {value : Nat}
    (upcoming : upcomingBits s 0 (codeWord k value).length = codeWord k value) :
    grdDecode k s = .ok value (s.consumed (codeWord k value).length) := by
  have word : codeWord k value = zeroBits (riceQuotient k value) ++
    ([true] ++ fieldBits (riceRemainder k value) k.toNat) := rfl
  have length := length_codeWord k value
  rw [word, upcomingBits_eq_append_iff, upcomingBits_eq_append_iff, length_zeroBits, Nat.zero_add,
    List.length_singleton, length_fieldBits] at upcoming
  obtain ⟨quotient, one, remainder⟩ := upcoming
  have zeros (j : Nat) (before : j < riceQuotient k value) : upcomingBit s j = false := by
    simpa [upcomingBits, zeroBits, before] using congrArg (·[j]?) quotient
  have one : upcomingBit s (riceQuotient k value) = true := by simpa [upcomingBits] using one
  rw [grdDecode_ready ready zeros one, remainder, bitsValue_fieldBits, length, riceRemainder,
    Nat.mod_mod, riceQuotient, Nat.div_add_mod']

end

/-! ## The obligations -/

/-- Settles O30: the sentinel bounds the first 1 bit, which ends the quotient. -/
theorem decodeConsumesOneCodeWord : Obligations.DecodeConsumesOneCodeWord := by
  intro s k ready
  obtain ⟨q, zeros, one, -⟩ := exists_first_one s
  refine ⟨rfl, q, zeros, one, ?_⟩
  rw [exec_grdDecode, grdDecode_ready ready zeros one]
  rfl

/-- Settles O31: the write session is one run of bits with the code word in it, memory holds the run,
and the read session over it sees the same run. -/
theorem golombRiceRoundTrip : Obligations.GolombRiceRoundTrip := by
  intro s base lim stop before after k value t1 t2 t3 t4 t5 _ stop_le stop_aligned opened
    put_before encoded put_after closed inside
  have start := WriteSession.of_openWrite opened
  have written := start.after_putBits put_before
  rw [greEncode_eq_putBits written.mode] at encoded
  have complete := (written.after_putBits encoded).after_putBits put_after
  obtain ⟨end_eq, stored⟩ := complete.after_close closed
  obtain ⟨aligned, -, -⟩ := openWrite_eq_ok.1 opened
  have valid : readRegionOk base stop = true := readRegionOk_iff.2 ⟨aligned, by omega, by omega⟩
  obtain ⟨u, opened_read, session⟩ := openRead_sessionStart (s := t5) valid stop_le
  have ready := session.ready
  have seen := session.upcomingBits_eq stored (by omega)
  rw [List.nil_append, List.append_assoc, upcomingBits_eq_append_iff, upcomingBits_eq_append_iff]
    at seen
  obtain ⟨-, next, -⟩ := seen
  have field := getField_consumed ready 0 before.length
  rw [consumed_zero ready, Nat.zero_add] at field
  rw [Nat.zero_add, ← upcomingBits_consumed ready] at next
  have decoded := grdDecode_codeWord (ready.consumed before.length) next
  rw [consumed_consumed ready, length_codeWord, ← Nat.add_assoc, ← Nat.add_assoc] at decoded
  exact ⟨u, _, _, _, opened_read, field, decoded, session.consumed_fill _,
    session.consumed_cursor _⟩

end Sys2Proof.Machine
end

section
/-! PROOFS. What has no meaning is refused by name (spec/93_implementation_defined.md U13, V9, V12 to
V14): the mode check comes first, then the operands. -/

namespace Sys2Proof.Machine

/-! ## The mode check on the operation bus -/

section
variable {m : BcMode} {s : State}

/-- An operation with a mode check in front is refused outside its mode (spec/40_bit_channel.md R120,
V12). -/
theorem settle_wrongMode (r : Res Unit) (mode : s.bc.mode ≠ m) :
    settle (inMode m s r) = .refused (.wrongMode s.bc.mode) := by
  rw [inMode_neg r mode]
  rfl

theorem settleValue_wrongMode (r : Res Nat) (mode : s.bc.mode ≠ m) :
    settleValue (inMode m s r) = .refused (.wrongMode s.bc.mode) := by
  rw [inMode_neg r mode]
  rfl

end

theorem exec_bcWrfix (value : Word) (n : BitVec 6) (s : State) :
    exec (.bcWrfix value n) s = settle (wrfix value.toNat n.toNat s) := rfl

theorem exec_estUpdate (d : BitVec 9) (s : State) :
    exec (.estUpdate d) s = settle (estUpdate d.toNat s) := rfl

theorem writeRegionOk_iff {base : Word} {lim : WideAddr} :
    writeRegionOk base lim = true ↔ base.toNat % 4 = 0 ∧ base.toNat ≤ lim.toNat := by
  simp [writeRegionOk]

theorem registerAccessOk_iff {off : Nat} :
    registerAccessOk off = true ↔ off % 4 = 0 ∧ off ≤ 0xFC := by
  simp [registerAccessOk]

/-! ## The obligation -/

/-- Settles O40: each operation checks its mode first, then its operands. -/
theorem whatHasNoMeaningIsRefused : Obligations.WhatHasNoMeaningIsRefused := by
  intro s
  refine ⟨fun mode => ?not_write, fun mode => ?not_read, fun mode => ?open_while_open,
    fun base stop mode broken => ?read_region, fun base lim mode broken => ?write_region,
    fun v n mode long => ?write_field, fun n mode long => ?read_field, fun x sym full => ?full_count,
    fun d large => ?rank_value, fun off v rest no_bus outside access => ?register⟩
  case not_write =>
    exact ⟨settle_wrongMode _ mode, fun _ _ => settle_wrongMode _ mode,
      fun _ => settle_wrongMode _ mode, settle_wrongMode _ mode, settle_wrongMode _ mode,
      fun _ _ => settle_wrongMode _ mode⟩
  case not_read =>
    exact ⟨fun _ => settleValue_wrongMode _ mode, settleValue_wrongMode _ mode,
      settle_wrongMode _ mode, settle_wrongMode _ mode, fun _ => settleValue_wrongMode _ mode⟩
  case open_while_open =>
    exact ⟨fun _ _ => settle_wrongMode _ mode, fun _ _ => settle_wrongMode _ mode⟩
  case read_region =>
    have invalid : ¬readRegionOk base stop = true := by
      rw [readRegionOk_iff]
      omega
    rw [exec_bcOpenR, inMode_pos _ mode, openRead, if_neg invalid]
    rfl
  case write_region =>
    have invalid : ¬writeRegionOk base lim = true := by
      rw [writeRegionOk_iff]
      omega
    rw [exec_bcOpenW, inMode_pos _ mode, openWrite, if_neg invalid]
    rfl
  case write_field =>
    rw [exec_bcWrfix, wrfix, inMode_pos _ mode, if_pos long]
    rfl
  case read_field =>
    rw [exec_bcRdfix, rdfix, inMode_pos _ mode, if_pos long]
    rfl
  case full_count =>
    have full : (s.rm.freqAt x sym).toNat = 4294967295 := by rw [full]; rfl
    rw [exec_rmObserve, observe, if_pos full]
    rfl
  case rank_value =>
    rw [exec_estUpdate, estUpdate, if_pos large]
    rfl
  case register =>
    have refused : ¬registerAccessOk off = true := by
      rw [registerAccessOk_iff]
      omega
    rcases access with written | read
    · rw [step_eq_hostWrite no_bus written, hostWrite, if_neg refused]
    · rw [step_eq_hostRead no_bus read, hostRead, if_neg refused]

end Sys2Proof.Machine
end

section
/-! PROOFS. Unit EST (spec/43_estimator.md R185 to R187): the scan at a boundary stops one past the
most significant set bit of the whole part of the mean. -/

namespace Sys2Proof.Machine

/-! ## The scan at a boundary -/

/-- The scan stops at the bit length of `sum div count`, whatever value at or below it the scan starts
at: `count * 2^j ≤ sum` holds exactly below it (spec/43_estimator.md R186). -/
theorem firstFailing_eq_size {count sum : Nat} (count_pos : 0 < count) (fuel j : Nat)
    (start_le : j ≤ (sum / count).size) (le_fuel : (sum / count).size ≤ j + fuel) :
    firstFailing count sum fuel j = (sum / count).size := by
  have holds_iff (i : Nat) : count * 2 ^ i ≤ sum ↔ i < (sum / count).size := by
    rw [Nat.lt_size, Nat.le_div_iff_mul_le count_pos, Nat.mul_comm]
  induction fuel generalizing j with
  | zero => exact Nat.le_antisymm start_le le_fuel
  | succ fuel ih =>
    rw [firstFailing]
    split
    · next holds => exact ih (j + 1) ((holds_iff j).1 holds) (by omega)
    · next fails =>
      rw [holds_iff] at fails
      omega

theorem log2_eq_size_sub_one (n : Nat) : Nat.log2 n = n.size - 1 := by
  rcases Nat.eq_zero_or_pos n with rfl | pos
  · simp
  · have size_pos : 0 < n.size := Nat.size_pos.2 pos
    refine (Nat.log2_eq_iff (by omega)).2 ⟨Nat.lt_size.1 (by omega), ?_⟩
    rw [Nat.sub_add_cancel size_pos]
    exact Nat.lt_size_self n

/-- The two branches of the closed form are one: below 512 the quotient is 0 or 1
(spec/43_estimator.md R187). -/
theorem closedFormK_eq_log2 (sum : Nat) : closedFormK sum = Nat.log2 (sum / 256) := by
  unfold closedFormK
  split
  · next small =>
    have quotient : sum / 256 = 0 ∨ sum / 256 = 1 := by omega
    rcases quotient with zero | one
    · rw [zero, Nat.log2_zero]
    · rw [one, log2_eq_size_sub_one, Nat.size_one]
  · rfl

/-- The 16 values the scan looks at suffice, and the `k` found fits its 5 bits
(spec/43_estimator.md R187, R189). -/
theorem boundaryK_toNat {sum : Nat} (sum_lt : sum < 256 * 2 ^ 16) :
    (boundaryK sum).toNat = closedFormK sum := by
  have size_le : (sum / 256).size ≤ 16 := Nat.size_le.2 (by omega)
  have scan : firstFailing Config.resetInterval sum 16 0 = (sum / 256).size :=
    firstFailing_eq_size (by decide) 16 0 (Nat.zero_le _) size_le
  rw [boundaryK, scan, BitVec.toNat_ofNat, closedFormK_eq_log2, log2_eq_size_sub_one]
  exact Nat.mod_eq_of_lt (by omega)

/-! ## One rank value -/

theorem estUpdated_of_lt {e : Est} (before : e.count.toNat < 255) (d : Nat) :
    estUpdated e d = { e with
      sum := BitVec.ofNat 16 (e.sum.toNat + d), count := BitVec.ofNat 9 (e.count.toNat + 1) } :=
  if_neg fun boundary => absurd (Nat.succ.inj boundary) (Nat.ne_of_lt before)

theorem estUpdated_of_boundary {e : Est} (boundary : e.count.toNat = 255) (d : Nat) :
    estUpdated e d = { sum := 0, count := 0, k := boundaryK (e.sum.toNat + d) } :=
  if_pos (congrArg (· + 1) boundary)

theorem exec_estUpdate_of_le {d : BitVec 9} (d_le : d.toNat ≤ 255) (s : State) :
    exec (.estUpdate d) s = .next (s.setEst (estUpdated s.est d.toNat)) := by
  rw [exec_estUpdate, estUpdate, if_neg (Nat.not_lt.2 d_le)]
  rfl

/-! ## The obligations -/

/-- Settles O38: `EST.INIT` writes one record of constants. -/
theorem estInitSetsTheStartingValues : Obligations.EstInitSetsTheStartingValues :=
  ⟨rfl, fun _ => rfl⟩

/-- Settles O39: the bounds on sum and count keep the registers from wrapping, and the scan at the
boundary is the closed form. -/
theorem estUpdateAccumulatesAndRecomputes : Obligations.EstUpdateAccumulatesAndRecomputes := by
  intro s d ok d_le
  obtain ⟨count_le, sum_le, -⟩ := ok
  refine ⟨rfl, _, exec_estUpdate_of_le d_le s, rfl, fun before => ?_, fun boundary => ?_⟩
  · rw [State.setEst_est, estUpdated_of_lt before]
    refine ⟨rfl, ?_, ?_⟩
    · exact (BitVec.toNat_ofNat _ _).trans (Nat.mod_eq_of_lt (by omega))
    · exact (BitVec.toNat_ofNat _ _).trans (Nat.mod_eq_of_lt (by omega))
  · rw [State.setEst_est, estUpdated_of_boundary boundary]
    exact ⟨boundaryK_toNat (by omega), rfl, rfl⟩

end Sys2Proof.Machine
end

section
/-! PROOFS. Unit PIPE, the engine behind a host command (spec/44_pipeline.md R195 to R197): how a
run that ends in `Done` went on at each step, and INIT, which is one step. -/

namespace Sys2Proof.Machine

/-! ## What the commands perform -/

theorem exec_init (s : State) : exec .init s = runCommand .init s := rfl

theorem exec_compress (s : State) : exec .compress s = runCommand .compress s := rfl

theorem exec_decompress (s : State) : exec .decompress s = runCommand .decompress s := rfl

@[simp] theorem acceptCommand_state (op : PlOp) (s : State) :
    (acceptCommand op s).pl.state = .running := rfl

/-- An accepted command runs the engine (spec/44_pipeline.md R195). -/
theorem runCommand_accepted {op : PlOp} {s : State} (idle : s.pl.state ≠ .running)
    (accepted : acceptanceFault op s = none) :
    runCommand op s = engineRun (commandBound s) (acceptCommand op s) := by
  rcases runCommand_cases idle with ⟨c, rejected, -⟩ | ⟨-, run⟩
  · cases accepted.symm.trans rejected
  · exact run

/-- A command that ended in `Done` was accepted (spec/44_pipeline.md R195, spec/60_exceptions.md
R221). -/
theorem runCommand_done {op : PlOp} {s t : State} (idle : s.pl.state ≠ .running)
    (ran : runCommand op s = .next t) (done : t.pl.state = .done) :
    acceptanceFault op s = none ∧ engineRun (commandBound s) (acceptCommand op s) = .next t := by
  rcases runCommand_cases idle with ⟨c, -, rejected⟩ | ⟨accepted, run⟩
  · obtain rfl := Host.Outcome.next.inj (rejected.symm.trans ran)
    exact absurd done (PlState.noConfusion ·)
  · exact ⟨accepted, run.symm.trans ran⟩

/-! ## A running engine -/

section
variable {s t : State} {r : Res Unit} {fuel : Nat}

/-- An engine whose step completes goes on from what the step left. -/
theorem engineRun_settle_ok (running : s.pl.state = .running) (step : engineStep s = settle r)
    (ok : r = .ok () t) : engineRun (fuel + 1) s = engineRun fuel t :=
  engineRun_running running (by rw [step, ok]; rfl)

/-- An engine that reached `Done` took no fault on its way: its step completed, and it went on
(spec/60_exceptions.md R222). -/
theorem engineRun_settle_done (running : s.pl.state = .running) (step : engineStep s = settle r)
    (ran : engineRun fuel s = .next t) (done : t.pl.state = .done) :
    ∃ fuel' u, r = .ok () u ∧ engineRun fuel' u = .next t := by
  cases fuel with
  | zero =>
    obtain rfl := Host.Outcome.next.inj ran
    rw [running] at done
    exact PlState.noConfusion done
  | succ fuel =>
    rw [engineRun, if_pos running, step] at ran
    cases r with
    | ok v u => exact ⟨fuel, u, rfl, ran⟩
    | raised u =>
      have stopped : engineRun fuel (takeFault .bufferTooSmall u) = .next t := ran
      rw [engineRun_stopped (PlState.noConfusion ·)] at stopped
      obtain rfl := Host.Outcome.next.inj stopped
      exact PlState.noConfusion done
    | fault | refused => cases ran

/-- An engine that does not run has reached its end. -/
theorem engineRun_stopped_eq (stopped : s.pl.state ≠ .running)
    (ran : engineRun fuel s = .next t) : t = s :=
  Host.Outcome.next.inj (ran.symm.trans (engineRun_stopped stopped))

end

/-! ## INIT -/

/-- INIT is accepted at once and is one step of the engine (spec/44_pipeline.md R196, R197). -/
theorem exec_init_eq_next {s : State} (idle : s.pl.state ≠ .running) :
    exec .init s = .next (initBody (acceptCommand .init s)) := by
  have step : engineStep (acceptCommand .init s) = .next (initBody (acceptCommand .init s)) := rfl
  rw [exec_init, runCommand_accepted idle rfl, commandBound,
    engineRun_running (acceptCommand_state ..) step]
  exact engineRun_stopped (PlState.noConfusion ·)

/-- Settles O41: INIT replaces the tables, the estimator and unit PIPE's record by constants,
whatever stood there before. -/
theorem initGivesAFreshModel : Obligations.InitGivesAFreshModel := by
  refine ⟨rfl, rfl, fun s idle => ⟨_, exec_init_eq_next idle, rfl, fun x i => ?_⟩⟩
  exact ⟨rmInitialised_freqAt x i, rmInitialised_symAt x i, rmInitialised_rankOf x i⟩

end Sys2Proof.Machine
end

section
/-! PROOFS. What COMPRESS and DECOMPRESS share (spec/44_pipeline.md R196, R198, R199,
spec/70_reset_and_hazards.md R255): acceptance, the bytes of a region in order, and what a symbol
teaches the model. -/

namespace Sys2Proof.Machine

/-! ## Acceptance -/

theorem regionsWrap_eq_false {s : State} : regionsWrap s = false ↔
    inputEnd s ≤ Config.addressSpace ∧ outputEnd s ≤ Config.addressSpace := by
  simp [regionsWrap]

theorem regionsOverlap_eq_false {s : State} : regionsOverlap s = false ↔
    ¬(0 < s.regs.inLen.toNat ∧ 0 < s.regs.outCap.toNat ∧
      s.regs.inBase.toNat < outputEnd s ∧ s.regs.outBase.toNat < inputEnd s) := by
  simp [regionsOverlap, and_assoc]

/-- A session passes the checks exactly when it is accepted and its word-accessed base is aligned
(spec/44_pipeline.md R196). -/
theorem sessionCheck_eq_none {op : PlOp} {s : State} :
    sessionCheck op s = none ↔ SessionAccepted s ∧ baseMisaligned op s = false := by
  have accepted_iff : SessionAccepted s ↔
      s.pl.modelInit = true ∧ regionsWrap s = false ∧ regionsOverlap s = false := by
    rw [regionsWrap_eq_false, regionsOverlap_eq_false, and_assoc]
    rfl
  rw [accepted_iff, sessionCheck]
  simp only [ite_eq_iff, reduceCtorEq, and_false, false_or, and_true, Bool.not_eq_true,
    Bool.not_eq_false]
  tauto

theorem SessionAccepted.input_inside {s : State} (accepted : SessionAccepted s) :
    inputEnd s ≤ Config.addressSpace := accepted.2.1

theorem SessionAccepted.output_inside {s : State} (accepted : SessionAccepted s) :
    outputEnd s ≤ Config.addressSpace := accepted.2.2.1

/-- An address of the input region of an accepted session is none of the output region
(spec/20_memory.md R72). -/
theorem SessionAccepted.apart {s : State} (accepted : SessionAccepted s) {a : Nat}
    (from_base : s.regs.inBase.toNat ≤ a) (before_end : a < inputEnd s) :
    a < s.regs.outBase.toNat ∨ outputEnd s ≤ a := by
  obtain ⟨-, -, -, no_overlap⟩ := accepted
  unfold inputEnd at before_end
  unfold outputEnd
  omega

/-! ## The bytes of a region -/

/-- An address cursor below the top of its range goes on by one (spec/20_memory.md R71). -/
theorem toNat_add_one {a : WideAddr} (below : a.toNat < 2 ^ 32) : (a + 1).toNat = a.toNat + 1 := by
  bv_omega

/-- The `n` bytes from address `a` up. -/
def Memory.bytesFrom (m : Memory) (a n : Nat) : List Byte :=
  (List.range n).map fun j => m.byteAt (a + j)

theorem inputSymbols_eq_bytesFrom (s : State) :
    inputSymbols s = s.mem.bytesFrom s.regs.inBase.toNat s.regs.inLen.toNat := rfl

@[simp] theorem Memory.length_bytesFrom (m : Memory) (a n : Nat) :
    (m.bytesFrom a n).length = n := by
  simp [Memory.bytesFrom]

theorem Memory.bytesFrom_succ (m : Memory) (a n : Nat) :
    m.bytesFrom a (n + 1) = m.byteAt a :: m.bytesFrom (a + 1) n := by
  simp [Memory.bytesFrom, List.range_succ_eq_map, Function.comp_def, Nat.add_assoc,
    Nat.add_comm 1]

theorem Memory.getD_bytesFrom (m : Memory) (a : Nat) {n j : Nat} (j_lt : j < n) (dflt : Byte) :
    (m.bytesFrom a n).getD j dflt = m.byteAt (a + j) := by
  simp [Memory.bytesFrom, j_lt]

theorem Memory.bytesFrom_congr {m m' : Memory} {a n : Nat}
    (same : ∀ b, a ≤ b → b < a + n → m.byteAt b = m'.byteAt b) :
    m.bytesFrom a n = m'.bytesFrom a n :=
  List.map_congr_left fun j j_mem =>
    same (a + j) (Nat.le_add_right a j) (Nat.add_lt_add_left (List.mem_range.1 j_mem) a)

/-! ## What a symbol teaches -/

/-- The state after a symbol of rank value `d` was learned. -/
def State.learned (s : State) (sym : Byte) (d : Nat) : State :=
  ((s.setRm (observed s.rm s.pl.ctx sym)).setEst (estUpdated s.est d)).setPl
    { s.pl with ctx := sym }

@[simp] theorem State.learned_bc (s : State) (sym : Byte) (d : Nat) :
    (s.learned sym d).bc = s.bc := rfl
@[simp] theorem State.learned_mem (s : State) (sym : Byte) (d : Nat) :
    (s.learned sym d).mem = s.mem := rfl

theorem observe_eq_ok {x sym : Byte} {s t : State} {u : Unit} :
    observe x sym s = .ok u t ↔
      (s.rm.freqAt x sym).toNat ≠ 4294967295 ∧ t = s.setRm (observed s.rm x sym) := by
  unfold observe
  split <;> simp_all [eq_comm]

theorem estUpdate_eq_ok {d : Nat} {s t : State} {u : Unit} :
    estUpdate d s = .ok u t ↔ d ≤ 255 ∧ t = s.setEst (estUpdated s.est d) := by
  unfold estUpdate
  split
  · next large => simp [large.not_ge]
  · next small => simp [Nat.le_of_not_lt small, eq_comm]

/-- All the updates after a symbol do, when they complete (spec/70_reset_and_hazards.md R255). -/
theorem learn_eq_ok {sym : Byte} {d : Nat} {s t : State} {u : Unit} :
    learn sym d s = .ok u t ↔
      (s.rm.freqAt s.pl.ctx sym).toNat ≠ 4294967295 ∧ d ≤ 255 ∧ t = s.learned sym d := by
  simp only [learn, Res.bind_eq_ok, observe_eq_ok, estUpdate_eq_ok]
  constructor
  · rintro ⟨_, _, ⟨room, rfl⟩, _, _, ⟨d_le, rfl⟩, finished⟩
    exact ⟨room, d_le, (Res.ok.inj finished).2.symm⟩
  · rintro ⟨room, d_le, rfl⟩
    exact ⟨(), _, ⟨room, rfl⟩, (), _, ⟨d_le, rfl⟩, rfl⟩

end Sys2Proof.Machine
end

section
/-! PROOFS. COMPRESS (spec/44_pipeline.md R198): at every symbol the bits written and the bits of
the symbols still to be read are together the stream of the session. -/

namespace Sys2Proof.Machine

/-! ## A write session beside the rest of the state -/

section
variable {base : Nat} {bits : List Bool} {s t : State} {u : Unit}

/-- A write session is a matter of unit BC and memory. -/
theorem WriteSession.of_eq (session : WriteSession base bits s) (bc : t.bc = s.bc)
    (mem : t.mem = s.mem) : WriteSession base bits t := by
  obtain ⟨mode, fill, cursor, acc, stored⟩ := session
  rw [← bc] at mode fill cursor acc
  rw [← mem] at stored
  exact ⟨mode, fill, cursor, acc, stored⟩

/-- A flush stores between the cursor and the limit (spec/40_bit_channel.md R126). -/
theorem flush_byteAt (flushed : flush s = .ok u t) {a : Nat}
    (outside : a < s.bc.cursor.toNat ∨ s.bc.lim.toNat ≤ a) : t.mem.byteAt a = s.mem.byteAt a := by
  obtain ⟨-, room, -, -, rfl⟩ := flush_eq_ok.1 flushed
  exact s.mem.byteAt_setWord_other _ (by omega)

/-- A write session stores nothing outside its region (spec/10_state.md R24). -/
theorem WriteSession.putBits_byteAt (session : WriteSession base bits s) {more : List Bool}
    (put : putBits more s = .ok u t) {a : Nat} (outside : a < base ∨ s.bc.lim.toNat ≤ a) :
    t.mem.byteAt a = s.mem.byteAt a := by
  induction more generalizing bits s with
  | nil => cases put; rfl
  | cons bit rest ih =>
    obtain ⟨_, r, one, others⟩ := Res.bind_eq_ok.1 put
    have lim : r.bc.lim = s.bc.lim := by
      rw [← putBits_singleton] at one
      exact congrArg (·.bc.lim) (putBits_frame (.inl one))
    rw [ih (session.after_putBit one) others (by rwa [lim])]
    have cursor := session.cursor
    obtain ⟨-, ⟨-, rfl⟩ | ⟨-, flushed⟩⟩ := putBit_eq_ok.1 one
    · rfl
    · refine (flush_byteAt flushed ?_).trans rfl
      rw [State.setBc_bc, bcPlaced_cursor]
      exact outside.imp_left (by omega)

/-- `GRE.ENCODE` appends one code word to a write session, within its region, and touches nothing
else (spec/42_golomb_rice.md R171). -/
theorem WriteSession.after_greEncode (session : WriteSession base bits s) {k : BitVec 5}
    {value : Nat} (encoded : greEncode k value s = .ok u t) :
    WriteSession base (bits ++ codeWord k value) t ∧ t = { s with bc := t.bc, mem := t.mem } ∧
      t.bc.lim = s.bc.lim ∧
      ∀ a, a < base ∨ s.bc.lim.toNat ≤ a → t.mem.byteAt a = s.mem.byteAt a := by
  rw [greEncode_eq_putBits session.mode] at encoded
  have frame := putBits_frame (.inl encoded)
  exact ⟨session.after_putBits encoded, by rw [frame], by rw [frame],
    fun _ => session.putBits_byteAt encoded⟩

end

/-! ## One symbol -/

section
variable {s t : State} {u : Unit}

/-- The state with the byte at the input cursor read. -/
def State.byteRead (s : State) : State := s.setPl { s.pl with icur := s.pl.icur + 1 }

/-- The byte at the input cursor. -/
def nextSymbol (s : State) : Byte := s.mem.byteAt s.pl.icur.toNat

/-- The rank of the byte at the input cursor. -/
def nextRank (s : State) : Nat := (s.rm.rankOf s.pl.ctx (nextSymbol s)).toNat

/-- A completed symbol of COMPRESS (spec/44_pipeline.md R198). -/
theorem compressSymbol_eq_ok (compressed : compressSymbol s = .ok u t) :
    ∃ v, greEncode s.est.k (nextRank s) s.byteRead = .ok () v ∧
      t = v.learned (nextSymbol s) (nextRank s) := by
  obtain ⟨_, _, read, encoded⟩ := Res.bind_eq_ok.1 compressed
  obtain ⟨-, rfl, rfl⟩ := memReadByte_eq_ok.1 read
  obtain ⟨_, v, written, learnt⟩ := Res.bind_eq_ok.1 encoded
  obtain ⟨-, -, rfl⟩ := learn_eq_ok.1 learnt
  exact ⟨v, written, rfl⟩

/-- The stream still to be written when `n` bytes are still to be read. -/
def bitsAhead (s : State) (n : Nat) : List Bool :=
  sessionBits s.rm s.est s.pl.ctx (s.mem.bytesFrom s.pl.icur.toNat n)

theorem bitsAhead_succ (s : State) (n : Nat) :
    bitsAhead s (n + 1) = codeWord s.est.k (nextRank s) ++
      sessionBits (observed s.rm s.pl.ctx (nextSymbol s)) (estUpdated s.est (nextRank s))
        (nextSymbol s) (s.mem.bytesFrom (s.pl.icur.toNat + 1) n) := by
  rw [bitsAhead, Memory.bytesFrom_succ]
  rfl

end

/-! ## The loop -/

/-- COMPRESS with `n` bytes still to be read: what it has written and what lies ahead is the stream
`total`, and it cannot write where it has still to read. -/
structure CompressAt (base : Nat) (total : List Bool) (n : Nat) (s : State) : Prop where
  running : s.pl.state = .running
  op : s.pl.op = .compress
  prog : s.prog = .looping
  left : s.pl.icur.toNat + n = inputEnd s
  inside : inputEnd s ≤ Config.addressSpace
  apart : ∀ a, s.pl.icur.toNat ≤ a → a < inputEnd s → a < base ∨ s.bc.lim.toNat ≤ a
  written : ∃ bits, WriteSession base bits s ∧ bits ++ bitsAhead s n = total

/-- What a completed COMPRESS leaves of the stream `total` (spec/44_pipeline.md R198, R201). -/
def StreamStored (base : Nat) (total : List Bool) (t : State) : Prop :=
  t.bc.cursor.toNat = base + 4 * streamWords total.length ∧
    StoredWords t.mem base total (streamWords total.length)

section
variable {base n : Nat} {total : List Bool} {s t : State} {u : Unit}

theorem CompressAt.step_succ (looping : CompressAt base total (n + 1) s) :
    engineStep s = settle (compressSymbol s) := by
  have more : s.pl.icur.toNat < inputEnd s := by
    have left := looping.left
    omega
  rw [engineStep, looping.op]
  simp only [compressStep, looping.prog, if_pos more]

theorem CompressAt.step_zero (looping : CompressAt base total 0 s) :
    engineStep s = settle (compressFinish s) := by
  have none : ¬s.pl.icur.toNat < inputEnd s := by
    have left := looping.left
    omega
  rw [engineStep, looping.op]
  simp only [compressStep, looping.prog, if_neg none]

/-- A completed symbol moves its code word from what lies ahead to what is written. -/
theorem CompressAt.after_symbol (looping : CompressAt base total (n + 1) s)
    (compressed : compressSymbol s = .ok u t) : CompressAt base total n t := by
  obtain ⟨running, op, prog, left, inside, apart, bits, session, total_eq⟩ := looping
  obtain ⟨v, encoded, rfl⟩ := compressSymbol_eq_ok compressed
  obtain ⟨session, frame, lim, outside⟩ :=
    (session.of_eq (t := s.byteRead) rfl rfl).after_greEncode encoded
  have pl : v.pl = s.byteRead.pl := congrArg (·.pl) frame
  have prog_eq : v.prog = s.prog := congrArg (·.prog) frame
  have input_end : inputEnd v = inputEnd s := by rw [frame]; rfl
  have icur : v.pl.icur.toNat = s.pl.icur.toNat + 1 := by
    have below : s.pl.icur.toNat + (n + 1) ≤ 2 ^ 32 := left.trans_le inside
    rw [pl]
    exact toNat_add_one (by omega)
  have input : v.mem.bytesFrom v.pl.icur.toNat n = s.mem.bytesFrom (s.pl.icur.toNat + 1) n := by
    rw [icur]
    exact Memory.bytesFrom_congr fun a _ _ => outside a (apart a (by omega) (by omega))
  have ahead : bitsAhead (v.learned (nextSymbol s) (nextRank s)) n =
      sessionBits (observed s.rm s.pl.ctx (nextSymbol s)) (estUpdated s.est (nextRank s))
        (nextSymbol s) (s.mem.bytesFrom (s.pl.icur.toNat + 1) n) := by
    rw [← input, frame]
    rfl
  exact {
    running := (congrArg Pl.state pl).trans running
    op := (congrArg Pl.op pl).trans op
    prog := prog_eq.trans prog
    left := show v.pl.icur.toNat + n = inputEnd v by omega
    inside := input_end.trans_le inside
    apart := fun a from_cursor before_end => by
      have from_icur : v.pl.icur.toNat ≤ a := from_cursor
      have outside_s := apart a (by omega) (before_end.trans_eq input_end)
      exact outside_s.imp_right (congrArg BitVec.toNat lim).trans_le
    written := ⟨_, session.of_eq rfl rfl, by
      rw [ahead, ← total_eq, bitsAhead_succ, List.append_assoc]⟩ }

/-- The ending writes the marker, which is what lies ahead when no byte is left, and the close
stores the last word (spec/44_pipeline.md R198). -/
theorem CompressAt.after_finish (looping : CompressAt base total 0 s)
    (finished : compressFinish s = .ok u t) :
    t.pl.state = .done ∧ StreamStored base total t := by
  obtain ⟨bits, session, rfl⟩ := looping.written
  obtain ⟨_, v, encoded, closing⟩ := Res.bind_eq_ok.1 finished
  obtain ⟨_, w, closed, ended⟩ := Res.bind_eq_ok.1 closing
  obtain ⟨written, -⟩ := session.after_greEncode encoded
  have stored := written.after_close closed
  cases ended
  exact ⟨rfl, stored⟩

/-- A COMPRESS that ends in `Done` from its loop has stored the whole stream. -/
theorem CompressAt.streamStored {fuel : Nat} (looping : CompressAt base total n s)
    (ran : engineRun fuel s = .next t) (done : t.pl.state = .done) :
    StreamStored base total t := by
  induction n generalizing s fuel with
  | zero =>
    obtain ⟨fuel', v, finished, rest⟩ :=
      engineRun_settle_done looping.running looping.step_zero ran done
    obtain ⟨state, stored⟩ := looping.after_finish finished
    rwa [engineRun_stopped_eq (state ▸ (PlState.noConfusion ·)) rest]
  | succ n ih =>
    obtain ⟨fuel', v, compressed, rest⟩ :=
      engineRun_settle_done looping.running looping.step_succ ran done
    exact ih (looping.after_symbol compressed) rest

/-! ## The opening -/

/-- The write region of an accepted session ends at a representable limit (spec/20_memory.md
R70). -/
theorem toNat_outputEnd (accepted : SessionAccepted s) :
    (BitVec.ofNat 33 (outputEnd s)).toNat = outputEnd s := by
  have below : outputEnd s ≤ 2 ^ 32 := accepted.output_inside
  rw [BitVec.toNat_ofNat, Nat.mod_eq_of_lt (by omega)]

/-- The opening leaves nothing written and the whole input to be read (spec/44_pipeline.md R198). -/
theorem compressStart_compressAt (accepted : SessionAccepted s)
    (started : compressStart (acceptCommand .compress s) = .ok u t) :
    CompressAt s.regs.outBase.toNat (sessionBits s.rm s.est 0 (inputSymbols s))
      s.regs.inLen.toNat t := by
  obtain ⟨_, v, opened, ended⟩ := Res.bind_eq_ok.1 started
  have session := WriteSession.of_openWrite opened
  obtain ⟨-, -, rfl⟩ := openWrite_eq_ok.1 opened
  cases ended
  have icur : (s.regs.inBase.setWidth 33).toNat = s.regs.inBase.toNat :=
    BitVec.toNat_setWidth_of_le (by decide)
  exact {
    running := rfl
    op := rfl
    prog := rfl
    left := congrArg (· + s.regs.inLen.toNat) icur
    inside := accepted.input_inside
    apart := fun a from_base before_end => by
      refine (accepted.apart (icur.symm.trans_le from_base) before_end).imp_right ?_
      exact (toNat_outputEnd accepted).trans_le
    written := ⟨[], session.of_eq rfl rfl, by
      rw [inputSymbols_eq_bytesFrom, ← icur]
      rfl⟩ }

/-- A COMPRESS that ended in `Done` has stored the stream of its input (spec/44_pipeline.md R198,
R201), at an aligned base. -/
theorem exec_compress_done (idle : s.pl.state ≠ .running) (ran : exec .compress s = .next t)
    (done : t.pl.state = .done) :
    s.regs.outBase.toNat % 4 = 0 ∧
      StreamStored s.regs.outBase.toNat (sessionBits s.rm s.est 0 (inputSymbols s)) t := by
  obtain ⟨passed, run⟩ := runCommand_done idle ran done
  obtain ⟨accepted, aligned⟩ := sessionCheck_eq_none.1 passed
  obtain ⟨fuel, v, started, rest⟩ :=
    engineRun_settle_done (acceptCommand_state ..) rfl run done
  exact ⟨by simpa [baseMisaligned] using aligned,
    (compressStart_compressAt accepted started).streamStored rest done⟩

end

end Sys2Proof.Machine
end

section
/-! PROOFS. DECOMPRESS of a stream (spec/44_pipeline.md R199): at every symbol the bits the channel
has still to read are the stream of the symbols still to be stored, under the model as it then
stands. -/

namespace Sys2Proof.Machine

/-! ## A read session beside the rest of the state -/

section
variable {s t : State}

/-- What a channel has still to read is a matter of unit BC and of the words between its cursor and
its end (spec/40_bit_channel.md R136). -/
theorem upcomingBits_congr (bc : t.bc = s.bc)
    (mem : ∀ a, s.bc.cursor.toNat ≤ a → a < s.bc.stop.toNat → t.mem.byteAt a = s.mem.byteAt a)
    (skip n : Nat) : upcomingBits t skip n = upcomingBits s skip n := by
  have word (m : Nat) : reloadWord t m = reloadWord s m := by
    unfold reloadWord
    rw [bc]
    split
    · exact Memory.wordAt_congr fun a _ _ => mem a (by omega) (by omega)
    · rfl
  simp only [upcomingBits, upcomingBit, bc, word]

theorem StoredWords.congr {m m' : Memory} {base words : Nat} {bits : List Bool}
    (stored : StoredWords m base bits words)
    (same : ∀ a, base ≤ a → a < base + 4 * words → m'.byteAt a = m.byteAt a) :
    StoredWords m' base bits words := by
  intro j j_lt
  rw [Memory.wordAt_congr fun a _ _ => same a (by omega) (by omega)]
  exact stored j j_lt

end

/-! ## Room in the counts -/

theorem CountsHaveRoom.freqAt_ne {m : Rm} {n : Nat} (room : CountsHaveRoom m (n + 1))
    (x sym : Byte) : (m.freqAt x sym).toNat ≠ 4294967295 := by
  have room_own := room x sym
  omega

/-- A symbol takes the room of one (spec/41_rank_model.md R158). -/
theorem CountsHaveRoom.observed {m : Rm} {n : Nat} (room : CountsHaveRoom m (n + 1))
    (x sym : Byte) : CountsHaveRoom (observed m x sym) n := by
  intro y u
  have room_own := room x sym
  have room_other := room y u
  rw [observed_freqAt]
  split
  · rw [toNat_add_one_of_room (by omega)]
    omega
  · omega

/-! ## One symbol -/

section
variable {s : State}

/-- The state with a byte stored at the output cursor. -/
def State.emitted (s : State) (c : Byte) : State :=
  (s.setMem (s.mem.setByte s.pl.ocur.toNat c)).setPl { s.pl with ocur := s.pl.ocur + 1 }

@[simp] theorem State.emitted_bc (s : State) (c : Byte) : (s.emitted c).bc = s.bc := rfl
@[simp] theorem State.emitted_mem (s : State) (c : Byte) :
    (s.emitted c).mem = s.mem.setByte s.pl.ocur.toNat c := rfl

/-- A rank value there is room for is stored as its symbol and learned (spec/44_pipeline.md
R199). -/
theorem emitSymbol_rankOf {c : Byte} (inverses : MutualInverses s.rm)
    (not_full : (s.rm.freqAt s.pl.ctx c).toNat ≠ 4294967295)
    (room : s.pl.ocur.toNat + 1 ≤ outputEnd s) (inside : outputEnd s ≤ Config.addressSpace) :
    emitSymbol (s.rm.rankOf s.pl.ctx c).toNat s =
      .ok () ((s.emitted c).learned c (s.rm.rankOf s.pl.ctx c).toNat) := by
  have symbol : symbolAt s.pl.ctx (BitVec.ofNat 8 (s.rm.rankOf s.pl.ctx c).toNat) s = c := by
    rw [BitVec.ofNat_toNat, BitVec.setWidth_eq]
    exact inverses.symAt_rankOf s.pl.ctx c
  have stored : memWriteByte s.pl.ocur.toNat c s =
      .ok () (s.setMem (s.mem.setByte s.pl.ocur.toNat c)) :=
    memWriteByte_eq_ok.2 ⟨by omega, rfl⟩
  have rank_lt := (s.rm.rankOf s.pl.ctx c).isLt
  have learnt : learn c (s.rm.rankOf s.pl.ctx c).toNat (s.emitted c) =
      .ok () ((s.emitted c).learned c (s.rm.rankOf s.pl.ctx c).toNat) :=
    learn_eq_ok.2 ⟨not_full, by omega, rfl⟩
  simp only [emitSymbol, symbol, if_neg (Nat.not_lt.2 room)]
  rw [stored, Res.bind_ok]
  exact learnt

/-- Storing a symbol outside what a channel has still to read leaves what comes next. -/
theorem upcomingBits_learned_emitted {c : Byte} {d : Nat}
    (apart : s.pl.ocur.toNat < s.bc.cursor.toNat ∨ s.bc.stop.toNat ≤ s.pl.ocur.toNat)
    (skip n : Nat) : upcomingBits ((s.emitted c).learned c d) skip n = upcomingBits s skip n := by
  have bc : ((s.emitted c).learned c d).bc = s.bc := by simp
  refine upcomingBits_congr bc (fun a from_cursor before_stop => ?_) skip n
  rw [State.learned_mem, State.emitted_mem]
  exact s.mem.byteAt_setByte_other c (by omega)

end

/-! ## The loop -/

/-- DECOMPRESS with `symbols` still to be stored: their stream comes next, the capacity suffices,
and it cannot write where it has still to read. -/
structure DecompressAt (symbols : List Byte) (s : State) : Prop where
  running : s.pl.state = .running
  op : s.pl.op = .decompress
  prog : s.prog = .looping
  ready : ReadReady s
  upcoming : upcomingBits s 0 (sessionBits s.rm s.est s.pl.ctx symbols).length =
    sessionBits s.rm s.est s.pl.ctx symbols
  inverses : MutualInverses s.rm
  counts : CountsHaveRoom s.rm symbols.length
  room : s.pl.ocur.toNat + symbols.length ≤ outputEnd s
  inside : outputEnd s ≤ Config.addressSpace
  apart : ∀ a, s.pl.ocur.toNat ≤ a → a < outputEnd s →
    a < s.bc.cursor.toNat ∨ s.bc.stop.toNat ≤ a

/-- `t` is a completed DECOMPRESS that stored `symbols` from where `s` had come to
(spec/44_pipeline.md R199). -/
structure SymbolsStored (symbols : List Byte) (s t : State) : Prop where
  done : t.pl.state = .done
  err : t.pl.err = s.pl.err
  ocur : t.pl.ocur.toNat = s.pl.ocur.toNat + symbols.length
  outEnd : t.regs.outEnd = t.pl.ocur.setWidth 32
  mem : t.mem = s.mem.setBytes s.pl.ocur.toNat symbols

section
variable {c : Byte} {rest symbols : List Byte} {s : State}

theorem DecompressAt.step (looping : DecompressAt symbols s) :
    engineStep s = settle (decompressSymbol s) := by
  rw [engineStep, looping.op]
  simp only [decompressStep, looping.prog]

/-- The marker ends the session (spec/44_pipeline.md R199). -/
theorem DecompressAt.finish (looping : DecompressAt [] s) :
    ∃ t, decompressSymbol s = .ok () t ∧ SymbolsStored [] s t := by
  have decoded := grdDecode_codeWord looping.ready looping.upcoming
  have mode := (looping.ready.consumed (codeWord s.est.k Config.eosValue).length).left
  have finished : decompressSymbol s =
      decompressFinish (s.consumed (codeWord s.est.k Config.eosValue).length) := by
    rw [decompressSymbol, decoded, Res.bind_ok, if_pos le_rfl]
  rw [finished, decompressFinish, closeRead, inMode_pos _ mode]
  exact ⟨_, rfl, rfl, rfl, rfl, rfl, rfl⟩

/-- The state after the next symbol: its code word consumed, the symbol stored and learned. -/
def State.decompressed (s : State) (c : Byte) : State :=
  ((s.consumed (codeWord s.est.k (s.rm.rankOf s.pl.ctx c).toNat).length).emitted c).learned c
    (s.rm.rankOf s.pl.ctx c).toNat

/-- The stream of the symbols is the first one's code word, then the stream of the others. -/
theorem DecompressAt.upcoming_cons (looping : DecompressAt (c :: rest) s) :
    upcomingBits s 0 (codeWord s.est.k (s.rm.rankOf s.pl.ctx c).toNat).length =
        codeWord s.est.k (s.rm.rankOf s.pl.ctx c).toNat ∧
      upcomingBits s (codeWord s.est.k (s.rm.rankOf s.pl.ctx c).toNat).length
          (sessionBits (s.decompressed c).rm (s.decompressed c).est c rest).length =
        sessionBits (s.decompressed c).rm (s.decompressed c).est c rest := by
  have both := upcomingBits_eq_append_iff.1 looping.upcoming
  rwa [Nat.zero_add] at both

/-- A code word below the marker stores and teaches its symbol (spec/44_pipeline.md R199). -/
theorem DecompressAt.decompressSymbol_eq (looping : DecompressAt (c :: rest) s) :
    decompressSymbol s = .ok () (s.decompressed c) := by
  have decoded := grdDecode_codeWord looping.ready looping.upcoming_cons.left
  have room : s.pl.ocur.toNat + (rest.length + 1) ≤ outputEnd s := looping.room
  have emitted := emitSymbol_rankOf
    (s := s.consumed (codeWord s.est.k (s.rm.rankOf s.pl.ctx c).toNat).length) looping.inverses
    (looping.counts.freqAt_ne s.pl.ctx c) (show s.pl.ocur.toNat + 1 ≤ outputEnd s by omega)
    looping.inside
  have below_marker : ¬Config.eosValue ≤ (s.rm.rankOf s.pl.ctx c).toNat :=
    Nat.not_le.2 (s.rm.rankOf s.pl.ctx c).isLt
  rw [decompressSymbol, decoded, Res.bind_ok, if_neg below_marker]
  exact emitted

/-- The output cursor goes on by one, below the top of the address space. -/
theorem DecompressAt.ocur_succ (looping : DecompressAt (c :: rest) s) :
    (s.decompressed c).pl.ocur.toNat = s.pl.ocur.toNat + 1 := by
  have room : s.pl.ocur.toNat + (rest.length + 1) ≤ 2 ^ 32 := looping.room.trans looping.inside
  exact toNat_add_one (a := s.pl.ocur) (by omega)

/-- Reading on leaves less to be read. -/
theorem DecompressAt.apart_consumed (looping : DecompressAt symbols s) (n : Nat) {a : Nat}
    (from_cursor : s.pl.ocur.toNat ≤ a) (before_end : a < outputEnd s) :
    a < (s.consumed n).bc.cursor.toNat ∨ (s.consumed n).bc.stop.toNat ≤ a := by
  rw [State.consumed, State.setBc_bc, consumedBc_stop, consumedBc_cursor_toNat]
  exact (looping.apart a from_cursor before_end).imp_left (Nat.lt_add_right _)

/-- After a symbol the channel has still to read what came after its code word. -/
theorem DecompressAt.upcomingBits_decompressed (looping : DecompressAt (c :: rest) s) (n : Nat) :
    upcomingBits (s.decompressed c) 0 n =
      upcomingBits s (codeWord s.est.k (s.rm.rankOf s.pl.ctx c).toNat).length n := by
  have room : s.pl.ocur.toNat + (rest.length + 1) ≤ outputEnd s := looping.room
  have apart (m : Nat) : (s.consumed m).pl.ocur.toNat < (s.consumed m).bc.cursor.toNat ∨
      (s.consumed m).bc.stop.toNat ≤ (s.consumed m).pl.ocur.toNat :=
    looping.apart_consumed m (a := s.pl.ocur.toNat) le_rfl (by omega)
  rw [State.decompressed, upcomingBits_learned_emitted (apart _),
    upcomingBits_consumed looping.ready]

theorem DecompressAt.after_symbol (looping : DecompressAt (c :: rest) s) :
    DecompressAt rest (s.decompressed c) := by
  have ocur := looping.ocur_succ
  have room : s.pl.ocur.toNat + (rest.length + 1) ≤ outputEnd s := looping.room
  have output_end : outputEnd (s.decompressed c) = outputEnd s := rfl
  exact {
    running := looping.running
    op := looping.op
    prog := looping.prog
    ready := looping.ready.consumed _
    upcoming := by
      rw [looping.upcomingBits_decompressed]
      exact looping.upcoming_cons.right
    inverses := observed_mutualInverses looping.inverses _ c
    counts := looping.counts.observed _ c
    room := by omega
    inside := looping.inside
    apart := fun a from_cursor before_end =>
      looping.apart_consumed _ (by omega) (before_end.trans_eq output_end) }

/-- The symbols of a stream are stored one after another, then the marker ends the session. -/
theorem DecompressAt.engineRun_stored (looping : DecompressAt symbols s) {fuel : Nat}
    (enough : symbols.length < fuel) :
    ∃ t, engineRun fuel s = .next t ∧ SymbolsStored symbols s t := by
  obtain ⟨fuel, rfl⟩ := Nat.exists_eq_add_one.2 (Nat.zero_lt_of_lt enough)
  induction symbols generalizing s fuel with
  | nil =>
    obtain ⟨t, finished, stored⟩ := looping.finish
    refine ⟨t, ?_, stored⟩
    rw [engineRun_settle_ok looping.running looping.step finished]
    exact engineRun_stopped (stored.done ▸ (PlState.noConfusion ·))
  | cons c rest ih =>
    have enough_rest : rest.length < fuel := Nat.lt_of_succ_lt_succ enough
    obtain ⟨fuel, rfl⟩ := Nat.exists_eq_add_one.2 (Nat.zero_lt_of_lt enough_rest)
    obtain ⟨t, ran, stored⟩ := ih looping.after_symbol fuel enough_rest
    refine ⟨t, ?_, stored.done, stored.err, ?_, stored.outEnd, ?_⟩
    · rwa [engineRun_settle_ok looping.running looping.step looping.decompressSymbol_eq]
    · rw [stored.ocur, looping.ocur_succ, List.length_cons]
      omega
    · rw [stored.mem, looping.ocur_succ]
      rfl

/-! ## The opening -/

/-- The read region ends no later than the input region (spec/20_memory.md R70). -/
theorem readRegionEnd_le_inputEnd (s : State) : readRegionEnd s ≤ inputEnd s := by
  unfold readRegionEnd inputEnd
  omega

theorem readRegionEnd_le (accepted : SessionAccepted s) :
    readRegionEnd s ≤ Config.addressSpace :=
  (readRegionEnd_le_inputEnd s).trans accepted.input_inside

theorem toNat_readRegionEnd (accepted : SessionAccepted s) :
    (BitVec.ofNat 33 (readRegionEnd s)).toNat = readRegionEnd s := by
  have inside := readRegionEnd_le accepted
  have top : Config.addressSpace = 2 ^ 32 := rfl
  rw [BitVec.toNat_ofNat, Nat.mod_eq_of_lt (by omega)]

/-- The opening of DECOMPRESS starts a read session and changes unit BC and unit PIPE alone
(spec/44_pipeline.md R199). -/
theorem decompressStart_accepted (accepted : SessionAccepted s)
    (aligned : s.regs.inBase.toNat % 4 = 0) :
    ∃ t, decompressStart (acceptCommand .decompress s) = .ok () t ∧
      ReadSessionStart s.mem s.regs.inBase.toNat (readRegionEnd s) t ∧
      t = { s with
        bc := t.bc
        pl := { s.pl with
          state := .running, op := .decompress, err := 0, ctx := 0,
          ocur := s.regs.outBase.setWidth 33 }
        prog := .looping } := by
  have stop := toNat_readRegionEnd accepted
  have valid : readRegionOk s.regs.inBase (BitVec.ofNat 33 (readRegionEnd s)) = true := by
    rw [readRegionOk_iff, stop]
    unfold readRegionEnd
    omega
  have stop_le := stop.trans_le (readRegionEnd_le accepted)
  obtain ⟨u, opened, session⟩ := openRead_sessionStart
    (s := (acceptCommand .decompress s).setPl { (acceptCommand .decompress s).pl with
      ctx := Config.initialContext, ocur := s.regs.outBase.setWidth 33 }) valid stop_le
  obtain ⟨ready, mem, stop_eq, fill, cursor, acc⟩ := session
  obtain ⟨-, reloaded⟩ := openRead_eq_ok.1 opened
  have frame := reload_frame reloaded
  refine ⟨u.setProg .looping, ?_, ⟨ready, mem, stop_eq.trans stop, fill, ?_, ?_⟩, ?_⟩
  · exact Res.bind_eq_ok.2 ⟨(), u, opened, rfl⟩
  · rw [← stop]
    exact cursor
  · rw [← stop]
    exact acc
  · rw [frame]
    rfl

/-- The input region holds the stream of `symbols`, in whole words (spec/44_pipeline.md R200). -/
structure HoldsStream (symbols : List Byte) (s : State) : Prop where
  stored : StoredWords s.mem s.regs.inBase.toNat (sessionBits s.rm s.est 0 symbols)
    (streamWords (sessionBits s.rm s.est 0 symbols).length)
  whole : 4 * streamWords (sessionBits s.rm s.est 0 symbols).length ≤ s.regs.inLen.toNat

section
variable (accepted : SessionAccepted s) (aligned : s.regs.inBase.toNat % 4 = 0)
  (inverses : MutualInverses s.rm) (counts : CountsHaveRoom s.rm symbols.length)
  (room : symbols.length ≤ s.regs.outCap.toNat) (holds : HoldsStream symbols s)
include accepted aligned inverses counts room holds

/-- The opening over a stream leaves all its symbols to be stored, from the output base up. -/
theorem decompressStart_decompressAt :
    ∃ t, decompressStart (acceptCommand .decompress s) = .ok () t ∧ DecompressAt symbols t ∧
      t.pl.ocur.toNat = s.regs.outBase.toNat ∧ t.pl.err = 0 ∧ t.mem = s.mem := by
  obtain ⟨t, started, session, frame⟩ := decompressStart_accepted accepted aligned
  have ocur : t.pl.ocur.toNat = s.regs.outBase.toNat := by
    rw [frame]
    exact BitVec.toNat_setWidth_of_le (by decide)
  have output_end : outputEnd t = outputEnd s := by rw [frame]; rfl
  have whole := holds.whole
  have upcoming := session.upcomingBits_eq holds.stored (by unfold readRegionEnd; omega)
  refine ⟨t, started, ?_, ocur, by rw [frame], session.mem⟩
  exact {
    running := by rw [frame]
    op := by rw [frame]
    prog := by rw [frame]
    ready := session.ready
    upcoming := by rw [frame] at upcoming ⊢; exact upcoming
    inverses := by rw [frame]; exact inverses
    counts := by rw [frame]; exact counts
    room := by rw [ocur, output_end]; exact Nat.add_le_add_left room _
    inside := output_end.trans_le accepted.output_inside
    apart := fun a from_base before_end => by
      rw [session.cursor, session.stop_eq]
      have read_end_le := readRegionEnd_le_inputEnd s
      by_contra between
      have outside := accepted.apart (a := a) (by omega) (by omega)
      omega }

/-- DECOMPRESS of a stream stores its symbols (spec/44_pipeline.md R199). -/
theorem exec_decompress_stream (idle : s.pl.state ≠ .running) :
    ∃ t, exec .decompress s = .next t ∧ t.pl.state = .done ∧ t.pl.err = 0 ∧
      t.pl.ocur.toNat = s.regs.outBase.toNat + symbols.length ∧
      t.regs.outEnd = t.pl.ocur.setWidth 32 ∧
      t.mem = s.mem.setBytes s.regs.outBase.toNat symbols := by
  have passed : acceptanceFault .decompress s = none :=
    sessionCheck_eq_none.2 ⟨accepted, by simpa [baseMisaligned] using aligned⟩
  obtain ⟨u, started, looping, ocur, err, mem⟩ :=
    decompressStart_decompressAt accepted aligned inverses counts room holds
  have step : engineStep (acceptCommand .decompress s) =
      settle (decompressStart (acceptCommand .decompress s)) := rfl
  obtain ⟨t, ran, final⟩ := looping.engineRun_stored
    (fuel := s.regs.inLen.toNat + s.regs.outCap.toNat + 2) (by omega)
  refine ⟨t, ?_, final.done, final.err.trans err, ?_, final.outEnd, ?_⟩
  · rw [exec_decompress, runCommand_accepted idle passed, commandBound,
      engineRun_settle_ok (acceptCommand_state ..) step started, ran]
  · rw [final.ocur, ocur]
  · rw [final.mem, ocur, mem]

end

end

end Sys2Proof.Machine
end

section
/-! PROOFS. The round trip (spec/44_pipeline.md R200): the words COMPRESS stored are the stream
DECOMPRESS reads, and both start from the one fresh model. -/

namespace Sys2Proof.Machine

theorem rmInitialised_mutualInverses : MutualInverses rmInitialised :=
  ⟨fun x sym => by rw [rmInitialised_symAt, rmInitialised_rankOf],
    fun x r => by rw [rmInitialised_rankOf, rmInitialised_symAt]⟩

/-- A fresh model has room for as many symbols as a length register can name. -/
theorem rmInitialised_countsHaveRoom (len : Word) : CountsHaveRoom rmInitialised len.toNat := by
  intro x sym
  have zero : (rmInitialised.freqAt x sym).toNat = 0 := rfl
  omega

/-- Settles O47: the second command sees in memory the stream the first one stored, which is the
stream of the first one's input under the model both start from. -/
theorem decompressAfterCompressRestoresTheInput :
    Obligations.DecompressAfterCompressRestoresTheInput := by
  rintro s1 t1 s2 ⟨rm1, est1, -⟩ ran done idle1 ⟨rm2, est2, -⟩ idle2 same accepted base_eq
    covers room
  obtain ⟨aligned, cursor, stored⟩ := exec_compress_done idle1 ran done
  have stored := stored.congr fun a from_base before_end => same a from_base (by omega)
  rw [rm1, est1] at cursor stored
  rw [← rm2, ← est2] at cursor stored
  rw [← base_eq] at aligned cursor stored
  have length : (inputSymbols s1).length = s1.regs.inLen.toNat := Memory.length_bytesFrom ..
  obtain ⟨t2, next, state, err, ocur, out_end, mem⟩ :=
    exec_decompress_stream accepted aligned (rm2 ▸ rmInitialised_mutualInverses)
      (by rw [rm2, length]; exact rmInitialised_countsHaveRoom _) (by rwa [length])
      ⟨stored, by omega⟩ idle2
  rw [length] at ocur
  refine ⟨t2, next, state, err, ocur, out_end, fun j j_lt => ?inside, fun a outside => ?outside⟩
  case inside =>
    rw [mem, Memory.byteAt_setBytes, length, if_pos (by omega), Nat.add_sub_cancel_left]
    exact Memory.getD_bytesFrom _ _ j_lt _
  case outside => rw [mem, Memory.byteAt_setBytes, length, if_neg (by omega)]

end Sys2Proof.Machine
end

section
/-! PROOFS. The decoder and the encoder (spec/30_encoding.md R104 to R109): what an operation on the
bus decodes to, said once, and the two directions of the round trip. -/

namespace Sys2Proof

/-! ## Operand lanes -/

/-- An operand is read back from the lane it was put in. -/
theorem laneValue_setWidth {w : Nat} (x : BitVec w) (w_le : w ≤ 33) :
    laneValue w (x.setWidth 33) = some x := by
  have lane : (x.setWidth 33).toNat = x.toNat := BitVec.toNat_setWidth_of_le w_le
  rw [laneValue, lane, if_pos x.isLt, BitVec.ofNat_toNat, BitVec.setWidth_eq]

/-- A lane that holds an operand's value holds nothing else. -/
theorem laneValue_eq_some {w : Nat} {lane : BitVec 33} {x : BitVec w} (w_le : w ≤ 33)
    (read : laneValue w lane = some x) : lane = x.setWidth 33 := by
  unfold laneValue at read
  split at read
  · next fits =>
    cases read
    apply BitVec.eq_of_toNat_eq
    rw [BitVec.toNat_setWidth_of_le w_le, BitVec.toNat_ofNat, Nat.mod_eq_of_lt fits]
  · cases read

/-! ## What an operation on the bus decodes to -/

/-- The answers the decoder has for an operation on the bus: the operation it encodes, a lane that
does not hold its operand, a code that no operation has (spec/30_encoding.md R109). -/
inductive Decoded (o : BusOp) : Except DecodeError Instr → Prop
  | operation (i : Instr) (encoded : o = encodeOp i) : Decoded o (.ok i)
  | lane (i : Instr) (code : opCode i = o.code) : Decoded o (.error (.operandOutOfLane o.code))
  | reserved (unused : ∀ i, opCode i ≠ o.code) : Decoded o (.error (.reservedOperation o.code))

section
variable {o : BusOp} {w v : Nat}

theorem Decoded.of_decode0 {i : Instr} (code : o.code = opCode i) (a : laneA i = 0)
    (b : laneB i = 0) : Decoded o (decode0 o i) := by
  unfold decode0
  split
  · next zero =>
    obtain ⟨opA, opB⟩ := zero
    exact .operation i (by cases o; simp_all [encodeOp])
  · exact .lane i code.symm

theorem Decoded.of_decode1 {f : BitVec w → Instr} (w_le : w ≤ 33)
    (code : ∀ x, o.code = opCode (f x)) (a : ∀ x, laneA (f x) = x.setWidth 33)
    (b : ∀ x, laneB (f x) = 0) : Decoded o (decode1 o w f) := by
  unfold decode1
  split
  · next x read =>
    split
    · next opB =>
      have opA := laneValue_eq_some w_le read
      exact .operation (f x) (by cases o; simp_all [encodeOp, ← code])
    · exact .lane (f x) (code x).symm
  · exact .lane (f 0) (code 0).symm

theorem Decoded.of_decode2 {f : BitVec w → BitVec v → Instr} (w_le : w ≤ 33) (v_le : v ≤ 33)
    (code : ∀ x y, o.code = opCode (f x y)) (a : ∀ x y, laneA (f x y) = x.setWidth 33)
    (b : ∀ x y, laneB (f x y) = y.setWidth 33) : Decoded o (decode2 o w v f) := by
  unfold decode2
  split
  · next x y readA readB =>
    have opA := laneValue_eq_some w_le readA
    have opB := laneValue_eq_some v_le readB
    exact .operation (f x y) (by cases o; simp_all [encodeOp, ← code])
  · exact .lane (f 0 0) (code 0 0).symm

theorem Decoded.ite {c : Prop} [Decidable c] {a b : Except DecodeError Instr}
    (pos : c → Decoded o a) (neg : ¬c → Decoded o b) : Decoded o (if c then a else b) := by
  split
  · next h => exact pos h
  · next h => exact neg h

/-- An operation code is its `UNIT` above its `FUNC` (spec/30_encoding.md R106). -/
theorem code_eq {code : BitVec 8} {unit func : BitVec 4} (hunit : codeUnit code = unit)
    (hfunc : codeFunc code = func) : code = unit ++ func := by
  rw [← hunit, ← hfunc, codeUnit, codeFunc,
    BitVec.extractLsb'_append_extractLsb'_eq_extractLsb' (by rfl)]
  exact BitVec.extractLsb'_eq_self.symm

/-- The operation codes of spec/30_encoding.md R108. -/
def operationCodes : List (BitVec 8) :=
  [0x01, 0x02, 0x03, 0x10, 0x11, 0x12, 0x13, 0x14, 0x15, 0x16, 0x17, 0x18, 0x19, 0x1A, 0x20, 0x30,
    0x40, 0x41, 0x42, 0x43, 0x50, 0x51]

theorem opCode_mem (i : Instr) : opCode i ∈ operationCodes := by
  cases i <;> simp [opCode, operationCodes]

theorem Decoded.of_unused (unused : o.code ∉ operationCodes) :
    Decoded o (.error (.reservedOperation o.code)) :=
  .reserved fun i same => unused (same ▸ opCode_mem i)

theorem decodePipe_decoded (unit : codeUnit o.code = 0x0) : Decoded o (decodePipe o) := by
  have functions : ∀ c ∈ operationCodes, codeUnit c = 0x0 →
      codeFunc c = 0x1 ∨ codeFunc c = 0x2 ∨ codeFunc c = 0x3 := by
    simp [operationCodes, codeUnit, codeFunc]
  unfold decodePipe
  exact .ite (fun f1 => .of_decode0 (code_eq unit f1) rfl rfl) fun f1 =>
    .ite (fun f2 => .of_decode0 (code_eq unit f2) rfl rfl) fun f2 =>
    .ite (fun f3 => .of_decode0 (code_eq unit f3) rfl rfl) fun f3 =>
    .of_unused fun used => by
      rcases functions _ used unit with f | f | f
      exacts [f1 f, f2 f, f3 f]

theorem decodeBc_decoded (unit : codeUnit o.code = 0x1) : Decoded o (decodeBc o) := by
  have functions : ∀ c ∈ operationCodes, codeUnit c = 0x1 →
      codeFunc c = 0x0 ∨ codeFunc c = 0x1 ∨ codeFunc c = 0x2 ∨ codeFunc c = 0x3 ∨
        codeFunc c = 0x4 ∨ codeFunc c = 0x5 ∨ codeFunc c = 0x6 ∨ codeFunc c = 0x7 ∨
        codeFunc c = 0x8 ∨ codeFunc c = 0x9 ∨ codeFunc c = 0xA := by
    simp [operationCodes, codeUnit, codeFunc]
  unfold decodeBc
  exact .ite (fun f0 => .of_decode2 (by decide) le_rfl (fun _ _ => code_eq unit f0) (fun _ _ => rfl)
      fun _ y => y.setWidth_eq.symm) fun f0 =>
    .ite (fun f1 => .of_decode2 (by decide) le_rfl (fun _ _ => code_eq unit f1) (fun _ _ => rfl)
      fun _ y => y.setWidth_eq.symm) fun f1 =>
    .ite (fun f2 => .of_decode0 (code_eq unit f2) rfl rfl) fun f2 =>
    .ite (fun f3 => .of_decode2 (by decide) (by decide) (fun _ _ => code_eq unit f3)
      (fun _ _ => rfl) fun _ _ => rfl) fun f3 =>
    .ite (fun f4 => .of_decode1 (by decide) (fun _ => code_eq unit f4) (fun _ => rfl)
      fun _ => rfl) fun f4 =>
    .ite (fun f5 => .of_decode0 (code_eq unit f5) rfl rfl) fun f5 =>
    .ite (fun f6 => .of_decode1 (by decide) (fun _ => code_eq unit f6) (fun _ => rfl)
      fun _ => rfl) fun f6 =>
    .ite (fun f7 => .of_decode0 (code_eq unit f7) rfl rfl) fun f7 =>
    .ite (fun f8 => .of_decode0 (code_eq unit f8) rfl rfl) fun f8 =>
    .ite (fun f9 => .of_decode0 (code_eq unit f9) rfl rfl) fun f9 =>
    .ite (fun fA => .of_decode0 (code_eq unit fA) rfl rfl) fun fA =>
    .of_unused fun used => by
      rcases functions _ used unit with f | f | f | f | f | f | f | f | f | f | f
      exacts [f0 f, f1 f, f2 f, f3 f, f4 f, f5 f, f6 f, f7 f, f8 f, f9 f, fA f]

theorem decodeGre_decoded (unit : codeUnit o.code = 0x2) : Decoded o (decodeGre o) := by
  have functions : ∀ c ∈ operationCodes, codeUnit c = 0x2 → codeFunc c = 0x0 := by
    simp [operationCodes, codeUnit, codeFunc]
  unfold decodeGre
  exact .ite (fun f0 => .of_decode2 (by decide) (by decide) (fun _ _ => code_eq unit f0)
      (fun _ _ => rfl) fun _ _ => rfl) fun f0 =>
    .of_unused fun used => f0 (functions _ used unit)

theorem decodeGrd_decoded (unit : codeUnit o.code = 0x3) : Decoded o (decodeGrd o) := by
  have functions : ∀ c ∈ operationCodes, codeUnit c = 0x3 → codeFunc c = 0x0 := by
    simp [operationCodes, codeUnit, codeFunc]
  unfold decodeGrd
  exact .ite (fun f0 => .of_decode1 (by decide) (fun _ => code_eq unit f0) (fun _ => rfl)
      fun _ => rfl) fun f0 =>
    .of_unused fun used => f0 (functions _ used unit)

theorem decodeRm_decoded (unit : codeUnit o.code = 0x4) : Decoded o (decodeRm o) := by
  have functions : ∀ c ∈ operationCodes, codeUnit c = 0x4 →
      codeFunc c = 0x0 ∨ codeFunc c = 0x1 ∨ codeFunc c = 0x2 ∨ codeFunc c = 0x3 := by
    simp [operationCodes, codeUnit, codeFunc]
  unfold decodeRm
  exact .ite (fun f0 => .of_decode0 (code_eq unit f0) rfl rfl) fun f0 =>
    .ite (fun f1 => .of_decode2 (by decide) (by decide) (fun _ _ => code_eq unit f1)
      (fun _ _ => rfl) fun _ _ => rfl) fun f1 =>
    .ite (fun f2 => .of_decode2 (by decide) (by decide) (fun _ _ => code_eq unit f2)
      (fun _ _ => rfl) fun _ _ => rfl) fun f2 =>
    .ite (fun f3 => .of_decode2 (by decide) (by decide) (fun _ _ => code_eq unit f3)
      (fun _ _ => rfl) fun _ _ => rfl) fun f3 =>
    .of_unused fun used => by
      rcases functions _ used unit with f | f | f | f
      exacts [f0 f, f1 f, f2 f, f3 f]

theorem decodeEst_decoded (unit : codeUnit o.code = 0x5) : Decoded o (decodeEst o) := by
  have functions : ∀ c ∈ operationCodes, codeUnit c = 0x5 →
      codeFunc c = 0x0 ∨ codeFunc c = 0x1 := by
    simp [operationCodes, codeUnit, codeFunc]
  unfold decodeEst
  exact .ite (fun f0 => .of_decode0 (code_eq unit f0) rfl rfl) fun f0 =>
    .ite (fun f1 => .of_decode1 (by decide) (fun _ => code_eq unit f1) (fun _ => rfl)
      fun _ => rfl) fun f1 =>
    .of_unused fun used => by
      exact (functions _ used unit).elim f0 f1

/-- The decoder gives every operation on the bus one of its three answers (spec/30_encoding.md R107
to R109). -/
theorem decodeOp_decoded (o : BusOp) : Decoded o (decodeOp o) := by
  have units : ∀ c ∈ operationCodes, codeUnit c = 0x0 ∨ codeUnit c = 0x1 ∨ codeUnit c = 0x2 ∨
      codeUnit c = 0x3 ∨ codeUnit c = 0x4 ∨ codeUnit c = 0x5 := by
    simp [operationCodes, codeUnit]
  unfold decodeOp
  exact .ite (fun u0 => decodePipe_decoded u0) fun u0 =>
    .ite (fun u1 => decodeBc_decoded u1) fun u1 =>
    .ite (fun u2 => decodeGre_decoded u2) fun u2 =>
    .ite (fun u3 => decodeGrd_decoded u3) fun u3 =>
    .ite (fun u4 => decodeRm_decoded u4) fun u4 =>
    .ite (fun u5 => decodeEst_decoded u5) fun u5 =>
    .of_unused fun used => by
      rcases units _ used with u | u | u | u | u | u
      exacts [u0 u, u1 u, u2 u, u3 u, u4 u, u5 u]

end

/-! ## What the answers mean -/

theorem decodeOp_eq_ok {o : BusOp} {i : Instr} (decoded : decodeOp o = .ok i) : o = encodeOp i := by
  have answer := decodeOp_decoded o
  rw [decoded] at answer
  cases answer with
  | operation _ encoded => exact encoded

/-- A code is reserved exactly when no operation has it (spec/30_encoding.md R109). -/
theorem decodeOp_reserved_iff (o : BusOp) :
    decodeOp o = .error (.reservedOperation o.code) ↔ ∀ i, opCode i ≠ o.code := by
  constructor
  · intro reserved
    have answer := decodeOp_decoded o
    rw [reserved] at answer
    generalize o.code = code at answer
    cases answer with
    | reserved unused => exact unused
  · intro unused
    have answer := decodeOp_decoded o
    generalize decodeOp o = decoded at answer ⊢
    cases answer with
    | operation i encoded => exact absurd (congrArg BusOp.code encoded).symm (unused i)
    | lane i code => exact absurd code (unused i)
    | reserved => rfl

/-! ## The encoder read back -/

theorem laneValue_self (lane : BitVec 33) : laneValue 33 lane = some lane := by
  simpa using laneValue_setWidth lane le_rfl

/-- An operation put on the bus is decoded from there: its code selects its row, and each lane is
read back at the width of its operand (spec/30_encoding.md R106, R108). -/
theorem decodeOp_encodeOp (i : Instr) : decodeOp (encodeOp i) = .ok i := by
  cases i with
  | init | compress | decompress =>
    simp [decodeOp, decodePipe, encodeOp, opCode, codeUnit, codeFunc, decode0, laneA, laneB]
  | bcPut1 | bcFlush | bcRdunary | bcReload | bcCloseR | bcCloseW =>
    simp [decodeOp, decodeBc, encodeOp, opCode, codeUnit, codeFunc, decode0, laneA, laneB]
  | bcWrzero | bcRdfix =>
    simp [decodeOp, decodeBc, encodeOp, opCode, codeUnit, codeFunc, decode1, laneA, laneB,
      laneValue_setWidth]
  | bcOpenR | bcOpenW | bcWrfix =>
    simp [decodeOp, decodeBc, encodeOp, opCode, codeUnit, codeFunc, decode2, laneA, laneB,
      laneValue_setWidth, laneValue_self]
  | greEncode =>
    simp [decodeOp, decodeGre, encodeOp, opCode, codeUnit, codeFunc, decode2, laneA, laneB,
      laneValue_setWidth]
  | grdDecode =>
    simp [decodeOp, decodeGrd, encodeOp, opCode, codeUnit, codeFunc, decode1, laneA, laneB,
      laneValue_setWidth]
  | rmInit => simp [decodeOp, decodeRm, encodeOp, opCode, codeUnit, codeFunc, decode0, laneA, laneB]
  | rmRankOf | rmSymbolAt | rmObserve =>
    simp [decodeOp, decodeRm, encodeOp, opCode, codeUnit, codeFunc, decode2, laneA, laneB,
      laneValue_setWidth]
  | estInit =>
    simp [decodeOp, decodeEst, encodeOp, opCode, codeUnit, codeFunc, decode0, laneA, laneB]
  | estUpdate =>
    simp [decodeOp, decodeEst, encodeOp, opCode, codeUnit, codeFunc, decode1, laneA, laneB,
      laneValue_setWidth]

/-! ## Command words -/

/-- A word that decodes is the one of its command (spec/30_encoding.md R104). -/
theorem decodeCmd_eq_ok {w : Word} {i : Instr} (decoded : decodeCmd w = .ok i) :
    encode i = .cmd w := by
  by_cases init : w = 1
  · subst init
    cases decoded
    rfl
  by_cases compress : w = 2
  · subst compress
    cases decoded
    rfl
  by_cases decompress : w = 3
  · subst decompress
    cases decoded
    rfl
  rw [Machine.decodeCmd_reserved init compress decompress] at decoded
  cases decoded

/-! ## The obligations -/

/-- Settles O1: a command word is its row of the table, and an operation's lanes are read back at
the widths they were filled from. -/
theorem decodeOfEncodeIsTheOperation : Obligations.DecodeOfEncodeIsTheOperation := by
  intro i
  cases i with
  | init | compress | decompress => rfl
  | _ => exact decodeOp_encodeOp _

/-- Settles O2: each of the two decoders answers an operation only for its own encoding. -/
theorem decodedPacketIsTheEncoding : Obligations.DecodedPacketIsTheEncoding := by
  intro p i decoded
  cases p with
  | cmd w => exact .inl (decodeCmd_eq_ok decoded).symm
  | op o => exact .inr (congrArg Packet.op (decodeOp_eq_ok decoded))

/-- Settles O3: the words of the table are the encodings of their operations. -/
theorem tableWordsDecodeToTheirOperations : Obligations.TableWordsDecodeToTheirOperations :=
  ⟨rfl, rfl, rfl, decodeOp_encodeOp (.bcWrfix 5 3), decodeOp_encodeOp (.greEncode 3 65),
    decodeOp_encodeOp (.grdDecode 3), decodeOp_encodeOp (.rmObserve 0x12 0x34),
    decodeOp_encodeOp (.estUpdate 255)⟩

end Sys2Proof
end

section
/-! PROOFS. All a step can do to the state, said once: a step is a run of single moves of the
units, a write of a host register, a host store or a hardware reset. An invariant of every step is
then a matter of the moves. -/

namespace Sys2Proof.Machine

/-! ## What an operation leaves -/

/-- The states an operation can answer, completed or raised, satisfy `P`. -/
def Res.Leaves {α : Type} (P : State → Prop) : Res α → Prop
  | .ok _ t => P t
  | .raised t => P t
  | .fault _ => True
  | .refused _ => True

section
variable {α β : Type} {P Q : State → Prop} {r : Res α} {s : State}

theorem Res.leaves_iff :
    r.Leaves P ↔ (∀ v t, r = .ok v t → P t) ∧ ∀ t, r = .raised t → P t := by
  cases r <;> simp [Res.Leaves]

theorem Res.Leaves.of_eq_ok (ok : ∀ v t, r = .ok v t → P t) (raised : ∀ t, r ≠ .raised t) :
    r.Leaves P :=
  Res.leaves_iff.2 ⟨ok, fun t h => absurd h (raised t)⟩

theorem Res.Leaves.mono (leaves : r.Leaves P) (imp : ∀ t, P t → Q t) : r.Leaves Q := by
  rw [Res.leaves_iff] at leaves ⊢
  exact ⟨fun v t h => imp t (leaves.1 v t h), fun t h => imp t (leaves.2 t h)⟩

/-- One operation, then the next: what the first raises stands, what it completes with goes on. -/
theorem Res.Leaves.bind {f : α → State → Res β} (leaves : r.Leaves P) (raised : ∀ t, P t → Q t)
    (next : ∀ v t, r = .ok v t → P t → (f v t).Leaves Q) : (r.bind f).Leaves Q := by
  cases r with
  | ok v t => exact next v t rfl leaves
  | raised t => exact raised t leaves
  | fault | refused => trivial

theorem Res.Leaves.inMode {m : BcMode} (leaves : s.bc.mode = m → r.Leaves P) :
    (inMode m s r).Leaves P := by
  by_cases mode : s.bc.mode = m
  · rw [inMode_pos r mode]
    exact leaves mode
  · rw [inMode_neg r mode]
    trivial

theorem Res.Leaves.of_settle {r : Res Unit} {t : State} (leaves : r.Leaves P)
    (fault : ∀ u, P u → P (takeFault .bufferTooSmall u)) (next : settle r = .next t) : P t := by
  rw [Res.leaves_iff] at leaves
  rcases settle_eq_next.1 next with ok | ⟨u, raised, rfl⟩
  · exact leaves.1 () t ok
  · exact fault u (leaves.2 u raised)

end

/-! ## The moves of unit BC -/

/-- A single move of unit BC, memory with it: one bit, one word, an open or a close. -/
inductive ChannelMove (s : State) : State → Prop
  | put {bit : Bool} {u : Unit} {t : State} (done : putBit bit s = .ok u t) : ChannelMove s t
  | putRefused {bit : Bool} {t : State} (refused : putBit bit s = .raised t) : ChannelMove s t
  | flush {u : Unit} {t : State} (done : flush s = .ok u t) : ChannelMove s t
  | get {bit : Bool} {t : State} (done : getBit s = .ok bit t) : ChannelMove s t
  | reload {u : Unit} {t : State} (done : reload s = .ok u t) : ChannelMove s t
  | openRead {base : Word} {stop : WideAddr} {u : Unit} {t : State}
      (done : openRead base stop s = .ok u t) : ChannelMove s t
  | openWrite {base : Word} {lim : WideAddr} {u : Unit} {t : State}
      (done : openWrite base lim s = .ok u t) : ChannelMove s t
  | closeRead (mode : s.bc.mode = .read) : ChannelMove s (s.setBc (bcClosed s.bc))
  | closeEmpty (mode : s.bc.mode = .write) (empty : s.bc.fill.toNat = 0) :
      ChannelMove s (s.setBc (bcClosed s.bc))

/-- Any number of moves of unit BC. -/
abbrev ChannelRun : State → State → Prop := Relation.ReflTransGen ChannelMove

theorem Res.Leaves.then_channel {α β : Type} {r : Res α} {f : α → State → Res β} {s : State}
    (first : r.Leaves (ChannelRun s))
    (next : ∀ v t, r = .ok v t → (f v t).Leaves (ChannelRun t)) :
    (r.bind f).Leaves (ChannelRun s) :=
  first.bind (fun _ h => h) fun v t ok h => (next v t ok).mono fun _ => h.trans

section
variable (s : State)

theorem putBit_channel (bit : Bool) : (putBit bit s).Leaves (ChannelRun s) :=
  Res.leaves_iff.2
    ⟨fun _ _ done => .single (.put done), fun _ refused => .single (.putRefused refused)⟩

theorem flush_channel : (flush s).Leaves (ChannelRun s) := by
  refine Res.leaves_iff.2 ⟨fun _ _ done => .single (.flush done), fun t refused => ?_⟩
  obtain ⟨-, -, rfl⟩ := flush_eq_raised.1 refused
  exact .refl

theorem putBits_channel (bits : List Bool) : (putBits bits s).Leaves (ChannelRun s) := by
  induction bits generalizing s with
  | nil => exact Relation.ReflTransGen.refl
  | cons bit rest ih => exact (putBit_channel s bit).then_channel fun _ t _ => ih t

theorem getBit_channel : (getBit s).Leaves (ChannelRun s) :=
  .of_eq_ok (fun _ _ done => .single (.get done)) (getBit_ne_raised s)

theorem getField_channel (n : Nat) : (getField n s).Leaves (ChannelRun s) := by
  induction n generalizing s with
  | zero => exact Relation.ReflTransGen.refl
  | succ n ih =>
    exact (getBit_channel s).then_channel fun _ t _ =>
      (ih t).then_channel fun _ _ _ => Relation.ReflTransGen.refl

theorem scanUnary_channel (fuel : Nat) : (scanUnary fuel s).Leaves (ChannelRun s) := by
  induction fuel generalizing s with
  | zero => trivial
  | succ fuel ih =>
    refine (getBit_channel s).then_channel fun bit t _ => ?_
    split
    · exact Relation.ReflTransGen.refl
    · exact (ih t).then_channel fun _ _ _ => Relation.ReflTransGen.refl

theorem reload_channel : (reload s).Leaves (ChannelRun s) :=
  .of_eq_ok (fun _ _ done => .single (.reload done)) (reload_ne_raised s)

theorem openRead_channel (base : Word) (stop : WideAddr) :
    (openRead base stop s).Leaves (ChannelRun s) := by
  refine .of_eq_ok (fun _ _ done => .single (.openRead done)) fun t => ?_
  unfold openRead
  split
  · exact reload_ne_raised _ t
  · exact nofun

theorem openWrite_channel (base : Word) (lim : WideAddr) :
    (openWrite base lim s).Leaves (ChannelRun s) := by
  refine .of_eq_ok (fun _ _ done => .single (.openWrite done)) fun t => ?_
  unfold openWrite
  split <;> exact nofun

theorem closeRead_channel : (closeRead s).Leaves (ChannelRun s) :=
  .inMode fun mode => Relation.ReflTransGen.single (ChannelMove.closeRead mode)

theorem closeWrite_channel : (closeWrite s).Leaves (ChannelRun s) := by
  refine .inMode fun mode => ?_
  split
  · refine (flush_channel s).then_channel fun _ t flushed => ?_
    obtain ⟨mode_t, -, fill_t⟩ := flush_wordStart flushed
    exact Relation.ReflTransGen.single
      (ChannelMove.closeEmpty mode_t (congrArg BitVec.toNat fill_t))
  · next empty =>
    exact Relation.ReflTransGen.single (ChannelMove.closeEmpty mode (Nat.eq_zero_of_not_pos empty))

theorem put1_channel : (put1 s).Leaves (ChannelRun s) := putBit_channel s true

theorem wrzero_channel (n : Nat) : (wrzero n s).Leaves (ChannelRun s) :=
  .inMode fun _ => putBits_channel s (zeroBits n)

theorem wrfix_channel (value n : Nat) : (wrfix value n s).Leaves (ChannelRun s) := by
  refine .inMode fun _ => ?_
  split
  · trivial
  · exact putBits_channel s (fieldBits value n)

theorem rdfix_channel (n : Nat) : (rdfix n s).Leaves (ChannelRun s) := by
  refine .inMode fun _ => ?_
  split
  · trivial
  · exact getField_channel s n

theorem rdunary_channel : (rdunary s).Leaves (ChannelRun s) :=
  .inMode fun _ => scanUnary_channel s _

theorem greEncode_channel (k : BitVec 5) (value : Nat) :
    (greEncode k value s).Leaves (ChannelRun s) :=
  .inMode fun _ => (wrzero_channel s _).then_channel fun _ t _ =>
    (put1_channel t).then_channel fun _ u _ => wrfix_channel u _ _

theorem grdDecode_channel (k : BitVec 5) : (grdDecode k s).Leaves (ChannelRun s) :=
  .inMode fun _ => (rdunary_channel s).then_channel fun _ t _ =>
    (rdfix_channel t _).then_channel fun _ _ _ => Relation.ReflTransGen.refl

end

/-! ## What the moves of unit BC leave alone -/

theorem ChannelMove.frame {s t : State} (move : ChannelMove s t) :
    t = { s with bc := t.bc, mem := t.mem } := by
  cases move with
  | put done =>
    rw [← putBits_singleton] at done
    rw [putBits_frame (.inl done)]
  | putRefused refused =>
    obtain ⟨-, -, -, rfl⟩ := putBit_eq_raised.1 refused
    rfl
  | flush done =>
    obtain ⟨-, -, -, -, rfl⟩ := flush_eq_ok.1 done
    rfl
  | get done => rw [getBit_frame done]
  | reload done => rw [reload_frame done]
  | openRead done =>
    obtain ⟨-, done⟩ := openRead_eq_ok.1 done
    rw [reload_frame done]
    rfl
  | openWrite done =>
    obtain ⟨-, -, rfl⟩ := openWrite_eq_ok.1 done
    rfl
  | closeRead | closeEmpty => rfl

theorem ChannelRun.frame {s t : State} (run : ChannelRun s t) :
    t = { s with bc := t.bc, mem := t.mem } := by
  induction run with
  | refl => rfl
  | tail _ move ih =>
    rw [move.frame, ih]

/-! ## The moves of the other units -/

/-- A single move of the engine: one of unit BC, one write of another unit's state, the entry of a
fault or the acceptance of a command. -/
inductive Move (s : State) : State → Prop
  | channel {t : State} (move : ChannelMove s t) : Move s t
  | storeByte {a : Nat} {v : Byte} (inside : a < Config.addressSpace) :
      Move s (s.setMem (s.mem.setByte a v))
  | rmInit : Move s (s.setRm rmInitialised)
  | observe {x sym : Byte} (room : (s.rm.freqAt x sym).toNat ≠ 4294967295) :
      Move s (s.setRm (observed s.rm x sym))
  | estInit : Move s (s.setEst estInitialised)
  | estUpdate {d : Nat} (d_le : d ≤ 255) : Move s (s.setEst (estUpdated s.est d))
  | position {ctx : Byte} {icur ocur : WideAddr} :
      Move s (s.setPl { s.pl with ctx := ctx, icur := icur, ocur := ocur })
  | progress {p : Progress} : Move s (s.setProg p)
  | latch {v : Nat} : Move s (s.setResult v)
  | initDone (running : s.pl.state = .running) (base : s.rm.base = .initialised) :
      Move s (s.setPl (plInitialised s.pl))
  | finish {out inp : WideAddr} (running : s.pl.state = .running) : Move s (finishSession out inp s)
  | fault {c : FaultCode} : Move s (takeFault c s)
  | accept {op : PlOp} : Move s (acceptCommand op s)

/-- Any number of moves. -/
abbrev Run : State → State → Prop := Relation.ReflTransGen Move

theorem ChannelRun.run {s t : State} (run : ChannelRun s t) : Run s t :=
  Relation.ReflTransGen.mono (fun _ _ => Move.channel) _ _ run

/-- A property that every move keeps is kept by a run. -/
theorem Run.keeps {P : State → Prop} (keeps : ∀ s t, Move s t → P s → P t) {s t : State}
    (run : Run s t) (holds : P s) : P t := by
  induction run with
  | refl => exact holds
  | tail _ move ih => exact keeps _ _ move ih

section
variable {s t u : State}

theorem Res.Leaves.run {α : Type} {r : Res α} (leaves : r.Leaves (ChannelRun t)) (start : Run s t) :
    r.Leaves (Run s) :=
  leaves.mono fun _ run => start.trans run.run

theorem learn_ne_raised (sym : Byte) (d : Nat) (s t : State) : learn sym d s ≠ .raised t := by
  unfold learn observe
  split
  · exact nofun
  · unfold estUpdate
    rw [Res.bind_ok]
    split <;> exact nofun

theorem learn_run (sym : Byte) (d : Nat) (start : Run s t) : (learn sym d t).Leaves (Run s) := by
  refine .of_eq_ok (fun _ u learnt => ?_) (learn_ne_raised sym d t)
  obtain ⟨room, d_le, rfl⟩ := learn_eq_ok.1 learnt
  exact ((start.tail (.observe room)).tail (.estUpdate d_le)).tail
    (.position (ctx := sym) (icur := t.pl.icur) (ocur := t.pl.ocur))

theorem compressStart_run : (compressStart s).Leaves (Run s) :=
  ((openWrite_channel _ _ _).run (Relation.ReflTransGen.single
      (.position (ocur := s.pl.ocur)))).bind (fun _ h => h) fun _ _ _ run => run.tail .progress

theorem compressSymbol_run : (compressSymbol s).Leaves (Run s) := by
  refine Res.Leaves.bind (P := Run s) ?_ (fun _ h => h) fun c t read _ => ?_
  · exact .of_eq_ok (fun _ _ read => (memReadByte_eq_ok.1 read).2.2 ▸ .refl)
      (memReadByte_ne_raised _ _)
  · obtain ⟨-, -, rfl⟩ := memReadByte_eq_ok.1 read
    exact ((greEncode_channel _ _ _).run (Relation.ReflTransGen.single
      (.position (ctx := t.pl.ctx) (ocur := t.pl.ocur)))).bind (fun _ h => h)
      fun _ _ _ run => learn_run _ _ run

theorem compressFinish_run (running : s.pl.state = .running) :
    (compressFinish s).Leaves (Run s) := by
  have written : ((greEncode s.est.k Config.eosValue s).bind fun _ t => closeWrite t).Leaves
      (ChannelRun s) :=
    (greEncode_channel s _ _).then_channel fun _ t _ => closeWrite_channel t
  have finished := written.bind (Q := Run s)
    (f := fun _ u => .ok () (finishSession u.bc.cursor u.pl.icur u)) (fun _ => ChannelRun.run)
    fun _ u _ run => run.run.tail (.finish ((congrArg (·.pl.state) run.frame).trans running))
  rwa [Res.bind_assoc] at finished

theorem compressStep_run (running : s.pl.state = .running) : (compressStep s).Leaves (Run s) := by
  unfold compressStep
  split
  · exact compressStart_run
  · split
    · exact compressSymbol_run
    · exact compressFinish_run running

theorem decompressStart_run : (decompressStart s).Leaves (Run s) :=
  ((openRead_channel _ _ _).run (Relation.ReflTransGen.single
      (.position (icur := s.pl.icur)))).bind (fun _ h => h) fun _ _ _ run => run.tail .progress

theorem decompressFinish_run (running : t.pl.state = .running) (start : Run s t) :
    (decompressFinish t).Leaves (Run s) :=
  (closeRead_channel t).bind (fun _ run => start.trans run.run) fun _ _ _ run =>
    (start.trans run.run).tail (.finish ((congrArg (·.pl.state) run.frame).trans running))

theorem emitSymbol_run (d : Nat) (start : Run s t) : (emitSymbol d t).Leaves (Run s) := by
  unfold emitSymbol
  dsimp only
  split
  · exact start
  · refine Res.Leaves.bind (P := Run s) ?_ (fun _ h => h) fun _ u _ run => ?_
    · refine .of_eq_ok (fun _ u stored => ?_) (memWriteByte_ne_raised _ _ _)
      obtain ⟨inside, rfl⟩ := memWriteByte_eq_ok.1 stored
      exact start.tail (.storeByte inside)
    · exact learn_run _ _ (run.tail (.position (ctx := u.pl.ctx) (icur := u.pl.icur)))

theorem decompressSymbol_run (running : s.pl.state = .running) :
    (decompressSymbol s).Leaves (Run s) := by
  refine (grdDecode_channel s _).bind (fun _ => ChannelRun.run) fun d t _ run => ?_
  split
  · exact decompressFinish_run ((congrArg (·.pl.state) run.frame).trans running) run.run
  · exact emitSymbol_run d run.run

theorem decompressStep_run (running : s.pl.state = .running) :
    (decompressStep s).Leaves (Run s) := by
  unfold decompressStep
  split
  · exact decompressStart_run
  · exact decompressSymbol_run running

/-! ## The engine and its operations are runs -/

theorem Res.Leaves.settle_run {r : Res Unit} (leaves : r.Leaves (Run s))
    (next : settle r = .next t) : Run s t :=
  leaves.of_settle (fun _ run => run.tail .fault) next

theorem initBody_run (running : s.pl.state = .running) : Run s (initBody s) :=
  ((Relation.ReflTransGen.single .rmInit).tail .estInit).tail (.initDone running rfl)

theorem engineStep_run (running : s.pl.state = .running) (step : engineStep s = .next t) :
    Run s t := by
  unfold engineStep at step
  split at step
  · exact Host.Outcome.next.inj step ▸ initBody_run running
  · exact (compressStep_run running).settle_run step
  · exact (decompressStep_run running).settle_run step
  · cases step

theorem engineRun_run {fuel : Nat} (ran : engineRun fuel s = .next t) : Run s t := by
  induction fuel generalizing s with
  | zero => exact Host.Outcome.next.inj ran ▸ .refl
  | succ fuel ih =>
    by_cases running : s.pl.state = .running
    case neg => exact engineRun_stopped_eq running ran ▸ .refl
    case pos =>
      rw [engineRun, if_pos running] at ran
      cases step : engineStep s with
      | next u =>
        rw [step] at ran
        exact (engineStep_run running step).trans (ih ran)
      | fault | refused =>
        rw [step] at ran
        cases ran

theorem engineMoves_run (moved : engineMoves s = .next t) : Run s t := by
  unfold engineMoves at moved
  split at moved
  · next running => exact engineStep_run running moved
  · exact Host.Outcome.next.inj moved ▸ .refl

theorem submit_run (op : PlOp) (s : State) : Run s (submit op s) := by
  by_cases running : s.pl.state = .running
  · rw [submit_running running]
  · rcases submit_cases running with ⟨c, -, rejected⟩ | ⟨-, accepted⟩
    · exact rejected ▸ .single .fault
    · exact accepted ▸ .single .accept

theorem submitReserved_run (s : State) : Run s (submitReserved s) := by
  unfold submitReserved
  split
  · exact .refl
  · exact .single .fault

theorem submitWord_run (w : Word) (s : State) : Run s (submitWord w s) := by
  unfold submitWord
  split
  · exact submit_run _ s
  · exact submitReserved_run s

theorem runCommand_run {op : PlOp} (ran : runCommand op s = .next t) : Run s t := by
  unfold runCommand at ran
  split at ran
  · exact Host.Outcome.next.inj ran ▸ .refl
  · exact (submit_run op s).trans (engineRun_run ran)

/-- All an operation can do: a host command, moves of unit BC with their fault taken or their result
latched, or one write of unit RM or EST. -/
inductive ExecKind (s : State) : Instr → State → Prop
  | command {i : Instr} {op : PlOp} {t : State} (ran : runCommand op s = .next t)
      (which : i = .init ∧ op = .init ∨ i = .compress ∧ op = .compress ∨
        i = .decompress ∧ op = .decompress) : ExecKind s i t
  | channel {i : Instr} {t : State} (run : ChannelRun s t) : ExecKind s i t
  | channelFault {i : Instr} {u : State} (run : ChannelRun s u) :
      ExecKind s i (takeFault .bufferTooSmall u)
  | channelLatch {i : Instr} {u : State} {v : Nat} (run : ChannelRun s u) :
      ExecKind s i (u.setResult v)
  | rmInit : ExecKind s .rmInit (s.setRm rmInitialised)
  | rmObserve {x sym : Byte} (room : (s.rm.freqAt x sym).toNat < 4294967295) :
      ExecKind s (.rmObserve x sym) (s.setRm (observed s.rm x sym))
  | estInit : ExecKind s .estInit (s.setEst estInitialised)
  | estUpdate {d : BitVec 9} (d_le : d.toNat ≤ 255) :
      ExecKind s (.estUpdate d) (s.setEst (estUpdated s.est d.toNat))

theorem settle_kind {i : Instr} {r : Res Unit} (leaves : r.Leaves (ChannelRun s))
    (next : settle r = .next t) : ExecKind s i t := by
  rw [Res.leaves_iff] at leaves
  rcases settle_eq_next.1 next with ok | ⟨u, raised, rfl⟩
  · exact .channel (leaves.1 () t ok)
  · exact .channelFault (leaves.2 u raised)

theorem settleValue_kind {i : Instr} {r : Res Nat} (leaves : r.Leaves (ChannelRun s))
    (next : settleValue r = .next t) : ExecKind s i t := by
  rw [Res.leaves_iff] at leaves
  rcases settleValue_eq_next.1 next with ⟨v, u, ok, rfl⟩ | ⟨u, raised, rfl⟩
  · exact .channelLatch (leaves.1 v u ok)
  · exact .channelFault (leaves.2 u raised)

theorem estUpdate_ne_raised (d : Nat) (s t : State) : estUpdate d s ≠ .raised t := by
  unfold estUpdate
  split <;> exact nofun

theorem exec_kind {i : Instr} (next : exec i s = .next t) : ExecKind s i t := by
  cases i with
  | init => exact .command next (.inl ⟨rfl, rfl⟩)
  | compress => exact .command next (.inr (.inl ⟨rfl, rfl⟩))
  | decompress => exact .command next (.inr (.inr ⟨rfl, rfl⟩))
  | bcOpenR base stop => exact settle_kind (.inMode fun _ => openRead_channel s base stop) next
  | bcOpenW base lim => exact settle_kind (.inMode fun _ => openWrite_channel s base lim) next
  | bcPut1 => exact settle_kind (put1_channel s) next
  | bcWrfix value n => exact settle_kind (wrfix_channel s _ _) next
  | bcWrzero n => exact settle_kind (wrzero_channel s _) next
  | bcFlush => exact settle_kind (flush_channel s) next
  | bcRdfix n => exact settleValue_kind (rdfix_channel s _) next
  | bcRdunary => exact settleValue_kind (rdunary_channel s) next
  | bcReload => exact settle_kind (reload_channel s) next
  | bcCloseR => exact settle_kind (closeRead_channel s) next
  | bcCloseW => exact settle_kind (closeWrite_channel s) next
  | greEncode k value => exact settle_kind (greEncode_channel s k _) next
  | grdDecode k => exact settleValue_kind (grdDecode_channel s k) next
  | rmInit => exact Host.Outcome.next.inj next ▸ .rmInit
  | rmRankOf | rmSymbolAt => exact Host.Outcome.next.inj next ▸ .channelLatch .refl
  | rmObserve x sym =>
    obtain ⟨room, rfl⟩ := exec_rmObserve_eq_next.1 next
    exact .rmObserve room
  | estInit => exact Host.Outcome.next.inj next ▸ .estInit
  | estUpdate d =>
    rcases settle_eq_next.1 next with updated | ⟨u, raised, -⟩
    · obtain ⟨d_le, rfl⟩ := estUpdate_eq_ok.1 updated
      exact .estUpdate d_le
    · exact absurd raised (estUpdate_ne_raised _ s u)

/-- Every operation that completes is a run of moves. -/
theorem exec_run {i : Instr} (next : exec i s = .next t) : Run s t := by
  cases exec_kind next with
  | command ran => exact runCommand_run ran
  | channel run => exact run.run
  | channelFault run => exact run.run.tail .fault
  | channelLatch run => exact run.run.tail .latch
  | rmInit => exact .single .rmInit
  | rmObserve room => exact .single (.observe room.ne)
  | estInit => exact .single .estInit
  | estUpdate d_le => exact .single (.estUpdate d_le)

theorem runPacket_run {p : Packet} (next : runPacket p s = .next t) : Run s t := by
  unfold runPacket at next
  split at next
  · exact exec_run next
  · exact Host.Outcome.next.inj next ▸ submitReserved_run s
  · cases next
  · cases next

/-! ## The step -/

/-- `u` is `s` with nothing on the operation bus, and what stands outside the block (the script, the
value last read, the counter of free values) moved on. -/
def OutsideMoved (s u : State) : Prop :=
  u = { s with bus := none, host := u.host, rdata := u.rdata, free := u.free }

/-- All a step can do. -/
inductive StepKind (s t : State) : Prop
  | engine (u : State) (outside : OutsideMoved s u) (run : Run u t)
  | register (u : State) (off : Nat) (v : Word) (outside : OutsideMoved s u)
      (idle : s.pl.state ≠ .running) (eq : t = u.setRegs (regsWritten off v u.regs))
  | store (u : State) (addr : Nat) (bytes : List Byte) (outside : OutsideMoved s u)
      (inside : addr + bytes.length ≤ Config.addressSpace)
      (eq : t = u.setMem (u.mem.setBytes addr bytes))
  | reset (rest : List HostAction) (bus : s.bus = none) (host : s.host = .rst :: rest)
      (eq : t = hardwareReset (s.setHost rest))

theorem outsideMoved_setHost (bus : s.bus = none) (rest : List HostAction) :
    OutsideMoved s (s.setHost rest) := by
  rw [OutsideMoved, ← bus]
  rfl

theorem outsideMoved_setRdata (bus : s.bus = none) (v : Word) : OutsideMoved s (s.setRdata v) := by
  rw [OutsideMoved, ← bus]
  rfl

theorem hostWait_kind {rest : List HostAction} (bus : s.bus = none)
    (next : hostWait rest s = .next t) : StepKind s t := by
  have read := outsideMoved_setRdata bus (statusWord s)
  rcases hostWait_cases rest s with ⟨-, ended⟩ | ⟨running, moves⟩ | ⟨-, idle⟩
  · obtain rfl := Host.Outcome.next.inj (ended.symm.trans next)
    refine .engine _ ?_ .refl
    rw [OutsideMoved, ← bus]
    rfl
  · exact .engine _ read (engineStep_run running (moves.symm.trans next))
  · exact Host.Outcome.next.inj (idle.symm.trans next) ▸ .engine _ read .refl

theorem hostWrite_kind {off : Nat} {v : Word} {rest : List HostAction} (bus : s.bus = none)
    (next : hostWrite off v (s.setHost rest) = .next t) : StepKind s t := by
  have outside := outsideMoved_setHost bus rest
  obtain ⟨-, ⟨-, rfl⟩ | ⟨-, -, rfl⟩ | ⟨idle, -, rfl⟩⟩ := hostWrite_eq_next.1 next
  · exact .engine _ outside .refl
  · exact .engine _ outside (submitWord_run v _)
  · exact .register _ off v outside idle rfl

theorem hostRead_kind {off : Nat} {rest : List HostAction} (bus : s.bus = none)
    (next : hostRead off (s.setHost rest) = .next t) : StepKind s t := by
  refine .engine t ?_ .refl
  rw [OutsideMoved, ← bus]
  obtain ⟨-, ⟨-, -, rfl⟩ | ⟨-, rfl⟩⟩ := hostRead_eq_next.1 next <;> rfl

/-- Every step is of one of the four kinds. -/
theorem step_kind (next : step s = .next t) : StepKind s t := by
  rcases step_cases s with ⟨o, -, eq⟩ | ⟨bus, ⟨w, rest, -, eq⟩ | ⟨off, v, rest, -, eq⟩ |
    ⟨off, rest, -, eq⟩ | ⟨rest, -, eq⟩ | ⟨rest, -, eq⟩ | ⟨a, bytes, rest, -, eq⟩ |
    ⟨rest, host, eq⟩ | ⟨-, eq⟩⟩ <;> rw [eq] at next
  · exact .engine (s.setBus none) rfl (runPacket_run next)
  · exact .engine _ (outsideMoved_setHost bus rest) (runPacket_run next)
  · exact hostWrite_kind bus next
  · exact hostRead_kind bus next
  · exact hostWait_kind bus next
  · exact .engine _ (outsideMoved_setHost bus rest) (engineMoves_run next)
  · obtain ⟨inside, rfl⟩ := hostStore_eq_next.1 next
    exact .store _ a bytes (outsideMoved_setHost bus rest) inside rfl
  · exact .reset rest bus host (Host.Outcome.next.inj next).symm
  · exact .engine s (by rw [OutsideMoved, ← bus]) (engineMoves_run next)

/-- An invariant of every step is one of the moves, of the host's writes and stores and of reset. -/
theorem step_keeps {P : State → Prop} (outside : ∀ s u, OutsideMoved s u → P s → P u)
    (move : ∀ s t, Move s t → P s → P t)
    (register : ∀ s off v, P s → P (s.setRegs (regsWritten off v s.regs)))
    (store : ∀ s addr bytes, addr + bytes.length ≤ Config.addressSpace → P s →
      P (s.setMem (s.mem.setBytes addr bytes)))
    (reset : ∀ s, P s → P (hardwareReset s)) (host : ∀ s rest, P s → P (s.setHost rest))
    (holds : P s) (next : step s = .next t) : P t := by
  cases step_kind next with
  | engine u out run => exact run.keeps move (outside s u out holds)
  | register u off v out _ eq => exact eq ▸ register u off v (outside s u out holds)
  | store u addr bytes out inside eq => exact eq ▸ store u addr bytes inside (outside s u out holds)
  | reset rest _ _ eq => exact eq ▸ reset _ (host s rest holds)

end

end Sys2Proof.Machine
end

section
/-! PROOFS. The invariants that every step keeps (spec/10_state.md R22, R25, R27, R31, R33, R39,
R42, R61, spec/20_memory.md R71, R79): each is a matter of the few moves that touch its unit. -/

namespace Sys2Proof.Machine

/-! ## The canonical form -/

/-- A completed flush stores a whole word of the address space (spec/20_memory.md R64, R71). -/
theorem flush_inside {s t : State} {u : Unit} (flushed : flush s = .ok u t) :
    s.bc.cursor.toNat + 4 ≤ Config.addressSpace := by
  obtain ⟨-, -, aligned, inside, -⟩ := flush_eq_ok.1 flushed
  have top : Config.addressSpace % 4 = 0 := rfl
  omega

theorem flush_wf {s t : State} {u : Unit} (flushed : flush s = .ok u t) (wf : s.mem.wf = true) :
    t.mem.wf = true := by
  have inside := flush_inside flushed
  obtain ⟨-, -, -, -, rfl⟩ := flush_eq_ok.1 flushed
  exact Memory.wf_setWord _ inside wf

theorem ChannelMove.mem_wf {s t : State} (move : ChannelMove s t) (wf : s.mem.wf = true) :
    t.mem.wf = true := by
  cases move with
  | put done =>
    obtain ⟨-, ⟨-, rfl⟩ | ⟨-, flushed⟩⟩ := putBit_eq_ok.1 done
    · exact wf
    · exact flush_wf flushed wf
  | putRefused refused =>
    obtain ⟨-, -, -, rfl⟩ := putBit_eq_raised.1 refused
    exact wf
  | flush done => exact flush_wf done wf
  | get done => rwa [getBit_frame done]
  | reload done => rwa [reload_frame done]
  | openRead done =>
    obtain ⟨-, done⟩ := openRead_eq_ok.1 done
    rwa [reload_frame done]
  | openWrite done =>
    obtain ⟨-, -, rfl⟩ := openWrite_eq_ok.1 done
    exact wf
  | closeRead | closeEmpty => exact wf

theorem Move.canonicalForm {s t : State} (move : Move s t) (form : CanonicalForm s) :
    CanonicalForm t := by
  obtain ⟨mem, rm⟩ := form
  cases move with
  | channel move => exact ⟨move.mem_wf mem, by rwa [move.frame]⟩
  | storeByte inside => exact ⟨Memory.wf_setByte _ inside mem, rm⟩
  | rmInit => exact ⟨mem, wf_rmInitialised⟩
  | observe => exact ⟨mem, wf_observed _ _ rm⟩
  | _ => exact ⟨mem, rm⟩

/-- Settles O52: memory is written by single bytes and words inside the address space, the tables
entry by entry or as a whole. -/
theorem stepKeepsTheCanonicalForm : Obligations.StepKeepsTheCanonicalForm := by
  intro s t form next
  exact step_keeps (P := CanonicalForm) (fun _ _ out form => by rw [out]; exact form)
    (fun _ _ move => move.canonicalForm) (fun _ _ _ form => form)
    (fun _ _ _ inside form => ⟨Memory.wf_setBytes inside form.1, form.2⟩)
    (fun _ form => ⟨Memory.wf_memAfterReset form.1, Rm.wf_reset _⟩) (fun _ _ form => form) form next

/-! ## The channel -/

theorem toNat_add_four {v : WideAddr} (below : v.toNat + 4 ≤ Config.addressSpace) :
    (v + 4).toNat = v.toNat + 4 := by
  have top : Config.addressSpace = 2 ^ 32 := rfl
  have four : (4 : WideAddr).toNat = 4 := rfl
  rw [BitVec.toNat_add, four, Nat.mod_eq_of_lt (by omega)]

/-- A bit placed above the bits produced leaves zeros above it (spec/10_state.md R25). -/
theorem bcPlaced_acc_lt {b : Bc} (bit : Bool) (acc : b.acc.toNat < 2 ^ b.fill.toNat) :
    (bcPlaced bit b).acc.toNat < 2 ^ (b.fill.toNat + 1) := by
  have placed : bit.toNat * 2 ^ b.fill.toNat < 2 ^ (b.fill.toNat + 1) := by
    rw [Nat.pow_succ']
    exact Nat.mul_lt_mul_of_pos_right (Nat.lt_succ_of_le bit.toNat_le) (Nat.two_pow_pos _)
  rw [bcPlaced, ofBool_shiftLeft, BitVec.toNat_or]
  refine Nat.or_lt_two_pow (acc.trans (Nat.pow_lt_pow_right (by decide) (Nat.lt_succ_self _))) ?_
  exact ((BitVec.toNat_ofNat _ _).trans_le (Nat.mod_le _ _)).trans_lt placed

section
variable {b : Bc}

theorem ChannelOk.placed (ok : ChannelOk b) (mode : b.mode = .write) (fill_le : b.fill.toNat ≤ 31)
    (bit : Bool) : ChannelOk (bcPlaced bit b) := by
  obtain ⟨-, -, acc, -, aligned, cursor⟩ := ok
  have fill := bcPlaced_fill_toNat bit fill_le
  refine ⟨by omega, fun _ => mode, fun _ => ?_, fun read => ?_, aligned, cursor⟩
  · rw [fill]
    exact bcPlaced_acc_lt bit (acc mode)
  · cases mode.symm.trans read

/-- Unit BC after a word, the cursor on to the next one (spec/10_state.md R22). -/
theorem ChannelOk.stepped (ok : ChannelOk b) (opened : b.mode ≠ .closed)
    (room : b.cursor.toNat + 4 ≤ Config.addressSpace) :
    (b.setCursor (b.cursor + 4)).cur.toNat % 4 = 0 ∧
      (b.setCursor (b.cursor + 4)).cursor.toNat ≤ Config.addressSpace := by
  obtain ⟨-, -, -, -, aligned, -⟩ := ok
  have start := b.cursor_mod_four.trans (aligned opened)
  rw [← Bc.cursor_mod_four, Bc.cursor_setCursor, toNat_add_four room]
  omega

/-- With no bit counted unit BC is in its form from an aligned cursor, an empty accumulator in mode
`Write`. -/
theorem channelOk_of_fill_zero (fill : b.fill = 0) (acc : b.mode = .write → b.acc = 0)
    (aligned : b.mode ≠ .closed → b.cur.toNat % 4 = 0)
    (cursor : b.cursor.toNat ≤ Config.addressSpace) : ChannelOk b := by
  have fill_zero : b.fill.toNat = 0 := congrArg BitVec.toNat fill
  refine ⟨by omega, fun full => by omega, fun write => ?_, fun _ => ?_, aligned, cursor⟩
  · rw [acc write]
    exact Nat.two_pow_pos _
  · rw [fill_zero]
    exact b.acc.isLt

theorem ChannelOk.flushed (ok : ChannelOk b) (mode : b.mode = .write)
    (room : b.cursor.toNat + 4 ≤ Config.addressSpace) : ChannelOk (bcFlushed b) := by
  obtain ⟨aligned, cursor⟩ := ok.stepped (by simp [mode]) room
  exact channelOk_of_fill_zero rfl (fun _ => rfl) (fun _ => aligned) cursor

theorem ChannelOk.loaded (ok : ChannelOk b) (mode : b.mode = .read)
    (room : b.cursor.toNat + 4 ≤ Config.addressSpace) (w : Word) : ChannelOk (bcLoaded w b) := by
  obtain ⟨aligned, cursor⟩ := ok.stepped (by simp [mode]) room
  exact channelOk_of_fill_zero rfl (fun write => nomatch mode.symm.trans write) (fun _ => aligned)
    cursor

end

/-- A flush from unit BC in its form, a full accumulator among them, leaves it in its form. -/
theorem flush_channelOk {s t : State} {u : Unit} (flushed : flush s = .ok u t)
    (ok : ChannelOk s.bc) : ChannelOk t.bc := by
  have room := flush_inside flushed
  obtain ⟨mode, -, -, -, rfl⟩ := flush_eq_ok.1 flushed
  exact ok.flushed mode room

/-- A reload leaves unit BC in its form whatever the accumulator and the counter held. -/
theorem reload_channelOk {s t : State} {u : Unit} (reloaded : reload s = .ok u t)
    (aligned : s.bc.cur.toNat % 4 = 0) (inside : s.bc.cursor.toNat ≤ Config.addressSpace) :
    ChannelOk t.bc := by
  have top : Config.addressSpace % 4 = 0 := rfl
  have cursor_aligned := s.bc.cursor_mod_four.trans aligned
  have emptied : ChannelOk { s.bc with acc := 0, fill := 0 } :=
    channelOk_of_fill_zero rfl (fun _ => rfl) (fun _ => aligned) inside
  obtain ⟨mode, ⟨-, -, below, rfl⟩ | ⟨-, rfl⟩⟩ := reload_eq_ok.1 reloaded
  · have room : s.bc.cursor.toNat + 4 ≤ Config.addressSpace := by omega
    exact emptied.loaded mode room _
  · exact channelOk_of_fill_zero rfl (fun write => nomatch mode.symm.trans write)
      (fun _ => aligned) inside

theorem ChannelOk.closed {b : Bc} (ok : ChannelOk b) (fill_le : b.fill.toNat ≤ 31) :
    ChannelOk (bcClosed b) := by
  obtain ⟨-, -, -, -, -, cursor⟩ := ok
  have fill : (bcClosed b).fill.toNat = b.fill.toNat := rfl
  exact ⟨by omega, fun full => by omega, nofun, nofun, fun opened => absurd rfl opened, cursor⟩

/-- Outside mode `Write` the accumulator is never full (spec/10_state.md R27). -/
theorem ChannelOk.fill_le {b : Bc} (ok : ChannelOk b) (mode : b.mode = .read) :
    b.fill.toNat ≤ 31 := by
  obtain ⟨fill_le, full, -⟩ := ok
  rcases Nat.lt_or_eq_of_le fill_le with lt | eq
  · omega
  · exact nomatch mode.symm.trans (full eq)

theorem bcConsumed_fill_toNat {b : Bc} (fill_le : b.fill.toNat ≤ 31) :
    (bcConsumed b).fill.toNat = b.fill.toNat + 1 := by
  have one : (1 : BitVec 6).toNat = 1 := rfl
  rw [bcConsumed, BitVec.toNat_add, one, Nat.mod_eq_of_lt (by omega)]

/-- A bit consumed within a word leaves zeros in its place (spec/10_state.md R25). -/
theorem ChannelOk.consumed {b : Bc} (ok : ChannelOk b) (mode : b.mode = .read)
    (within : b.fill.toNat < 31) : ChannelOk (bcConsumed b) := by
  obtain ⟨-, -, -, acc, aligned, cursor⟩ := ok
  have fill := bcConsumed_fill_toNat (b := b) (by omega)
  refine ⟨by omega, fun full => by omega, fun write => (nomatch mode.symm.trans write), fun _ => ?_,
    aligned, cursor⟩
  have shifted : (bcConsumed b).acc.toNat = b.acc.toNat / 2 := by
    rw [bcConsumed, BitVec.toNat_ushiftRight, Nat.shiftRight_one]
  have bound := acc mode
  rw [show 32 - b.fill.toNat = 32 - (b.fill.toNat + 1) + 1 by omega, Nat.pow_succ] at bound
  rw [fill, shifted]
  omega

theorem ChannelMove.channelOk {s t : State} (move : ChannelMove s t) (ok : ChannelOk s.bc) :
    ChannelOk t.bc := by
  have ⟨_, _, _, _, aligned, cursor⟩ := ok
  cases move with
  | put done =>
    obtain ⟨mode, ⟨within, rfl⟩ | ⟨last, flushed⟩⟩ := putBit_eq_ok.1 done
    · exact ok.placed mode within.le _
    · exact flush_channelOk flushed (ok.placed mode last.le _)
  | putRefused refused =>
    obtain ⟨mode, last, -, rfl⟩ := putBit_eq_raised.1 refused
    exact ok.placed mode last.le _
  | flush done => exact flush_channelOk done ok
  | get done =>
    obtain ⟨mode, -, ⟨within, rfl⟩ | ⟨-, reloaded⟩⟩ := getBit_eq_ok.1 done
    · exact ok.consumed mode within
    · exact reload_channelOk reloaded (aligned (by simp [mode])) cursor
  | reload done =>
    obtain ⟨mode, -⟩ := reload_eq_ok.1 done
    exact reload_channelOk done (aligned (by simp [mode])) cursor
  | openRead done =>
    rename_i base stop u
    obtain ⟨valid, reloaded⟩ := openRead_eq_ok.1 done
    refine reload_channelOk reloaded (readRegionOk_iff.1 valid).1 ?_
    rw [State.setBc_bc, bcOpenedRead_cursor_toNat]
    exact base.isLt.le
  | openWrite done =>
    rename_i base lim u
    obtain ⟨base_aligned, -, rfl⟩ := openWrite_eq_ok.1 done
    refine channelOk_of_fill_zero rfl (fun _ => rfl) (fun _ => base_aligned) ?_
    rw [State.setBc_bc, bcOpenedWrite_cursor, BitVec.toNat_setWidth_of_le (by decide)]
    exact base.isLt.le
  | closeRead mode => exact ok.closed (ok.fill_le mode)
  | closeEmpty _ empty => exact ok.closed (by omega)

theorem Move.channelOk {s t : State} (move : Move s t) (ok : ChannelOk s.bc) : ChannelOk t.bc := by
  cases move with
  | channel move => exact move.channelOk ok
  | _ => exact ok

theorem channelOk_reset : ChannelOk Bc.reset :=
  channelOk_of_fill_zero rfl (fun _ => rfl) (fun _ => rfl) (Nat.zero_le _)

/-- Settles O53: each update of unit BC keeps its form, the reload from any accumulator. -/
theorem stepKeepsTheChannelInvariant : Obligations.StepKeepsTheChannelInvariant := by
  intro s t ok next
  exact step_keeps (P := fun s => ChannelOk s.bc) (fun _ _ out ok => by rw [out]; exact ok)
    (fun _ _ move => move.channelOk) (fun _ _ _ ok => ok) (fun _ _ _ _ ok => ok)
    (fun _ _ => channelOk_reset) (fun _ _ ok => ok) ok next

/-! ## The estimator -/

theorem estimatorOk_init : EstimatorOk estInitialised := by
  unfold EstimatorOk
  decide

/-- The `k` of a boundary is at most 7 (spec/43_estimator.md R188). -/
theorem boundaryK_le {sum : Nat} (sum_le : sum ≤ 255 * 256) : (boundaryK sum).toNat ≤ 7 := by
  have small : sum / 256 < 2 ^ 8 := by omega
  rw [boundaryK_toNat (by omega), closedFormK_eq_log2, log2_eq_size_sub_one]
  have size_le := Nat.size_le.2 small
  omega

theorem EstimatorOk.updated {e : Est} (ok : EstimatorOk e) {d : Nat} (d_le : d ≤ 255) :
    EstimatorOk (estUpdated e d) := by
  obtain ⟨count_le, sum_le, k_le⟩ := ok
  rcases Nat.lt_or_eq_of_le count_le with before | boundary
  · rw [estUpdated_of_lt before]
    unfold EstimatorOk
    dsimp only
    rw [BitVec.toNat_ofNat, BitVec.toNat_ofNat, Nat.mod_eq_of_lt (by omega),
      Nat.mod_eq_of_lt (by omega)]
    omega
  · rw [estUpdated_of_boundary boundary]
    exact ⟨Nat.zero_le _, Nat.zero_le _, boundaryK_le (by omega)⟩

theorem Move.estimatorOk {s t : State} (move : Move s t) (ok : EstimatorOk s.est) :
    EstimatorOk t.est := by
  cases move with
  | channel move => rwa [move.frame]
  | estInit => exact estimatorOk_init
  | estUpdate d_le => exact ok.updated d_le
  | _ => exact ok

/-- Settles O54: the sum of 256 values below 256 has a mean below 256, so `k` is at most 7. -/
theorem stepKeepsTheEstimatorInvariant : Obligations.StepKeepsTheEstimatorInvariant := by
  intro s t ok next
  exact step_keeps (P := fun s => EstimatorOk s.est) (fun _ _ out ok => by rw [out]; exact ok)
    (fun _ _ move => move.estimatorOk) (fun _ _ _ ok => ok) (fun _ _ _ _ ok => ok)
    (fun _ _ => estimatorOk_init) (fun _ _ ok => ok) ok next

/-! ## The rank model -/

theorem rmInitialised_rankModelOk : RankModelOk rmInitialised :=
  ⟨⟨fun x sym => by rw [rmInitialised_rankOf, rmInitialised_symAt],
    fun x r => by rw [rmInitialised_symAt, rmInitialised_rankOf]⟩, fun _ _ _ _ => le_rfl⟩

@[simp] theorem observed_base (m : Rm) (x sym : Byte) : (observed m x sym).base = m.base := by
  rw [observed_eq_ite]
  split <;> rfl

theorem Move.modelOk {s t : State} (move : Move s t) (ok : ModelOk s) : ModelOk t := by
  have ⟨init, rank⟩ := ok
  cases move with
  | channel move => rwa [move.frame]
  | rmInit => exact ⟨fun _ => rfl, fun _ => rmInitialised_rankModelOk⟩
  | @observe x sym room =>
    have freq_lt := (s.rm.freqAt x sym).isLt
    refine ⟨fun initialised => ?_, fun base => ?_⟩
    · exact (observed_base ..).trans (init initialised)
    · exact observed_rankModelOk (rank ((observed_base ..).symm.trans base)) (by omega)
  | initDone _ base => exact ⟨fun _ => base, rank⟩
  | _ => exact ok

theorem modelOk_of_reset {s : State} (uninitialised : s.pl.modelInit = false)
    (base : s.rm.base ≠ .initialised) : ModelOk s :=
  ⟨fun init => absurd (uninitialised.symm.trans init) nofun, fun init => absurd init base⟩

/-- Settles O55: INIT sets `pl.model_init` over tables just initialised, and `RM.OBSERVE` keeps them
ordered mutual inverses. -/
theorem stepKeepsTheRankModel : Obligations.StepKeepsTheRankModel := by
  intro s t ok next
  exact step_keeps (P := ModelOk) (fun _ _ out ok => by rw [out]; exact ok)
    (fun _ _ move => move.modelOk) (fun _ _ _ ok => ok) (fun _ _ _ _ ok => ok)
    (fun _ _ => modelOk_of_reset rfl nofun) (fun _ _ ok => ok) ok next

/-! ## The status -/

theorem takeFault_statusOk (c : FaultCode) (s : State) : StatusOk (takeFault c s).pl := by
  have code : errValue c ≠ 0 ∧ (errValue c).toNat ≤ 4 := by cases c <;> decide
  exact ⟨⟨fun _ => rfl, fun _ => code.1⟩, code.2⟩

/-- A state other than `Faulted` with no error recorded. -/
theorem statusOk_of_no_error {p : Pl} (err : p.err = 0) (state : p.state ≠ .faulted) : StatusOk p :=
  ⟨⟨fun nonzero => absurd err nonzero, fun faulted => absurd faulted state⟩, by rw [err]; decide⟩

/-- A running block has no error recorded (spec/10_state.md R42). -/
theorem StatusOk.err_of_running {p : Pl} (ok : StatusOk p) (running : p.state = .running) :
    p.err = 0 := by
  by_contra nonzero
  cases running.symm.trans (ok.1.1 nonzero)

theorem Move.statusOk {s t : State} (move : Move s t) (ok : StatusOk s.pl) : StatusOk t.pl := by
  cases move with
  | channel move => rwa [move.frame]
  | initDone running => exact statusOk_of_no_error (ok.err_of_running running) nofun
  | finish running => exact statusOk_of_no_error (ok.err_of_running running) nofun
  | fault => exact takeFault_statusOk _ s
  | accept => exact statusOk_of_no_error rfl nofun
  | _ => exact ok

/-- Settles O56: a fault sets code and state together, an acceptance clears both, and a command ends
from `Running`, where no error is recorded. -/
theorem stepKeepsTheStatusConsistent : Obligations.StepKeepsTheStatusConsistent := by
  intro s t ok next
  exact step_keeps (P := fun s => StatusOk s.pl) (fun _ _ out ok => by rw [out]; exact ok)
    (fun _ _ move => move.statusOk) (fun _ _ _ ok => ok) (fun _ _ _ _ ok => ok)
    (fun _ _ => statusOk_of_no_error rfl nofun) (fun _ _ ok => ok) ok next

/-- Settles O57: the reset state meets each invariant by its constants; the tables are not
initialised, so nothing is asked of them. -/
theorem resetMeetsTheInvariants : Obligations.ResetMeetsTheInvariants :=
  ⟨⟨Memory.wf_reset, Rm.wf_reset 0⟩, channelOk_reset, estimatorOk_init, modelOk_of_reset rfl nofun,
    statusOk_of_no_error rfl nofun⟩

/-! ## What no move undoes -/

theorem Move.modelInit {s t : State} (move : Move s t) (init : s.pl.modelInit = true) :
    t.pl.modelInit = true := by
  cases move with
  | channel move => rwa [move.frame]
  | initDone => rfl
  | _ => exact init

/-- Settles O58: no move clears the flag, so the step that does is a reset. -/
theorem onlyHardwareResetClearsModelInit : Obligations.OnlyHardwareResetClearsModelInit := by
  intro s t init next cleared
  have kept {u : State} (out : OutsideMoved s u) : u.pl.modelInit = true := by rw [out]; exact init
  cases step_kind next with
  | engine u out run =>
    cases (run.keeps (fun _ _ move => move.modelInit) (kept out)).symm.trans cleared
  | register u off v out _ eq =>
    subst eq
    cases (kept out).symm.trans cleared
  | store u addr bytes out _ eq =>
    subst eq
    cases (kept out).symm.trans cleared
  | reset rest bus host _ => exact ⟨bus, rest, host⟩

/-- The configuration registers of `t` are those of `s`. -/
def SameConfig (s t : State) : Prop :=
  t.regs.inBase = s.regs.inBase ∧ t.regs.inLen = s.regs.inLen ∧
    t.regs.outBase = s.regs.outBase ∧ t.regs.outCap = s.regs.outCap

theorem takeFault_sameConfig (c : FaultCode) (s : State) : SameConfig s (takeFault c s) := by
  cases c <;> exact ⟨rfl, rfl, rfl, rfl⟩

theorem Move.sameConfig {s t : State} (move : Move s t) : SameConfig s t := by
  cases move with
  | channel move =>
    rw [move.frame]
    exact ⟨rfl, rfl, rfl, rfl⟩
  | fault => exact takeFault_sameConfig _ s
  | _ => exact ⟨rfl, rfl, rfl, rfl⟩

theorem SameConfig.trans {s t u : State} (first : SameConfig s t) (second : SameConfig t u) :
    SameConfig s u := by
  obtain ⟨b, l, ob, oc⟩ := first
  obtain ⟨b', l', ob', oc'⟩ := second
  exact ⟨b'.trans b, l'.trans l, ob'.trans ob, oc'.trans oc⟩

theorem OutsideMoved.sameConfig {s u : State} (out : OutsideMoved s u) : SameConfig s u := by
  rw [out]
  exact ⟨rfl, rfl, rfl, rfl⟩

theorem Run.sameConfig {s t : State} (run : Run s t) : SameConfig s t :=
  run.keeps (P := SameConfig s) (fun _ _ move same => same.trans move.sameConfig)
    ⟨rfl, rfl, rfl, rfl⟩

/-- Settles O59: the engine writes no configuration register, and a running block ignores the host's
writes. -/
theorem configurationHoldsWhileRunning : Obligations.ConfigurationHoldsWhileRunning := by
  intro s t running next
  cases step_kind next with
  | engine u out run => exact .inr (out.sameConfig.trans run.sameConfig)
  | register u off v out idle eq => exact absurd running idle
  | store u addr bytes out _ eq => exact .inr (eq ▸ out.sameConfig)
  | reset rest _ host _ => exact .inl ⟨rest, host⟩

/-! ## The operation bus -/

theorem Move.bus {s t : State} (move : Move s t) (empty : s.bus = none) : t.bus = none := by
  cases move with
  | channel move => rwa [move.frame]
  | _ => exact empty

theorem step_bus {s t : State} (next : step s = .next t) : t.bus = none := by
  have empty {u : State} (out : OutsideMoved s u) : u.bus = none := by rw [out]
  cases step_kind next with
  | engine u out run => exact run.keeps (fun _ _ move => move.bus) (empty out)
  | register u off v out _ eq =>
    subst eq
    exact show u.bus = none from empty out
  | store u addr bytes out _ eq =>
    subst eq
    exact show u.bus = none from empty out
  | reset rest _ _ eq =>
    subst eq
    rfl

/-- An operation on the bus is what the step performs, whatever the script holds. -/
theorem step_eq_runPacket_op {s : State} {o : BusOp} (hbus : s.bus = some o) :
    step s = runPacket (.op o) (s.setBus none) := by
  simpa [hbus] using step_cases s

/-- Settles O4: the decoder's third answer is the reserved code, which the step refuses; every step
begins with the bus emptied and no move fills it. -/
theorem codeIsReservedExactlyWhenNoOperationHasIt :
    Obligations.CodeIsReservedExactlyWhenNoOperationHasIt := by
  refine fun o => ⟨decodeOp_reserved_iff o, fun s bus unused => ?_, fun s t => step_bus⟩
  have decoded : decode (.op o) = .error (.reservedOperation o.code) :=
    (decodeOp_reserved_iff o).2 unused
  rw [step_eq_runPacket_op bus, runPacket, decoded]

end Sys2Proof.Machine
end

section
/-! PROOFS. The host's side (spec/10_state.md R40 to R53, spec/44_pipeline.md R195, R196,
spec/70_reset_and_hazards.md R245 to R247): what is fetched, which commands are accepted, what the
registers show, and hardware reset. -/

namespace Sys2Proof.Machine

/-! ## Fetch -/

theorem fetch_bus {s : State} {o : BusOp} (bus : s.bus = some o) :
    fetch s = some (.op o, { s with bus := none }) := by
  rw [fetch, bus]
  rfl

theorem fetch_command {s : State} {w : Word} {rest : List HostAction} (bus : s.bus = none)
    (host : s.host = .cmd w :: rest) : fetch s = some (.cmd w, { s with host := rest }) := by
  have fetched : fetch s = some (.cmd w, s.setHost rest) := by simp only [fetch, bus, host]
  exact fetched

theorem runPacket_of_decode {p : Packet} {i : Instr} (decoded : decode p = .ok i) (s : State) :
    runPacket p s = exec i s := by
  rw [runPacket, decoded]

/-- Settles O6: the step of a fetched packet is that packet's, and a decoded one is its operation.
-/
theorem stepPerformsTheDecodedOperation : Obligations.StepPerformsTheDecodedOperation := by
  refine ⟨fun s t p i fetched decoded => ?_, fun s o => fetch_bus, fun s w rest => fetch_command⟩
  rw [step, stepBody, fetched]
  exact runPacket_of_decode decoded t

/-! ## Acceptance -/

section
variable {s : State} {op : PlOp}

theorem sessionCheck_uninitialised (op : PlOp) (init : s.pl.modelInit = false) :
    sessionCheck op s = some .notInitialized := if_pos init

/-- After INIT a session that fails a check is one with invalid arguments (spec/44_pipeline.md
R196). -/
theorem sessionCheck_invalid (init : s.pl.modelInit = true)
    (invalid : ¬(SessionAccepted s ∧ baseMisaligned op s = false)) :
    sessionCheck op s = some .invalidArgument := by
  have rejected := mt sessionCheck_eq_none.1 invalid
  unfold sessionCheck at rejected ⊢
  rw [if_neg (by simp [init])] at rejected ⊢
  split_ifs at rejected ⊢
  exacts [rfl, rfl, rfl, absurd rfl rejected]

theorem baseMisaligned_compress : baseMisaligned .compress s = false ↔
    s.regs.outBase.toNat % 4 = 0 := by
  simp [baseMisaligned]

theorem baseMisaligned_decompress : baseMisaligned .decompress s = false ↔
    s.regs.inBase.toNat % 4 = 0 := by
  simp [baseMisaligned]

/-- A rejected command records its code and changes nothing else (spec/60_exceptions.md R221). -/
theorem runCommand_rejected (idle : s.pl.state ≠ .running) {c : FaultCode}
    (rejected : acceptanceFault op s = some c) :
    runCommand op s =
      .next { s with pl := { s.pl with err := errValue c, state := .faulted } } := by
  have run : runCommand op s = .next (takeFault c s) := by
    rcases runCommand_cases idle with ⟨c', rejected', run⟩ | ⟨accepted, -⟩
    · cases rejected.symm.trans rejected'
      exact run
    · cases rejected.symm.trans accepted
  rw [run, takeFault_rejected]
  · rfl
  · rcases acceptanceFault_cases rejected with rfl | rfl <;> exact nofun

/-- Settles O7: the first check that fails gives the code, and a rejection writes code and state
only. -/
theorem sessionsFailingTheChecksAreRejected : Obligations.SessionsFailingTheChecksAreRejected := by
  intro s idle
  refine ⟨fun init => ⟨?_, ?_⟩, fun init invalid => ?_, fun init invalid => ?_⟩
  · exact runCommand_rejected idle (op := .compress) (sessionCheck_uninitialised _ init)
  · exact runCommand_rejected idle (op := .decompress) (sessionCheck_uninitialised _ init)
  · refine runCommand_rejected idle (op := .compress) (sessionCheck_invalid init ?_)
    rwa [baseMisaligned_compress]
  · refine runCommand_rejected idle (op := .decompress) (sessionCheck_invalid init ?_)
    rwa [baseMisaligned_decompress]

/-- A `CMD` write whose checks pass accepts the command (spec/44_pipeline.md R195). -/
theorem step_write_accepted {w : Word} {i : Instr} {rest : List HostAction} (bus : s.bus = none)
    (idle : s.pl.state ≠ .running) (host : s.host = .wr 0x00 w :: rest)
    (decoded : decodeCmd w = .ok i) (passed : acceptanceFault (plOpOf i) (s.setHost rest) = none) :
    step s = .next (acceptCommand (plOpOf i) (s.setHost rest)) := by
  have submitted : submitWord w (s.setHost rest) = acceptCommand (plOpOf i) (s.setHost rest) := by
    rw [submitWord, decoded]
    rcases submit_cases (op := plOpOf i) (s := s.setHost rest) idle with
      ⟨c, rejected, -⟩ | ⟨-, accepted⟩
    · cases passed.symm.trans rejected
    · exact accepted
  rw [step_eq_hostWrite bus host]
  exact hostWrite_eq_next.2 ⟨rfl, .inr (.inl ⟨idle, rfl, submitted.symm⟩)⟩

/-- Settles O8: each of the three words passes its checks and is accepted. -/
theorem acceptedCommandStartsRunning : Obligations.AcceptedCommandStartsRunning := by
  intro s rest bus idle
  refine ⟨fun host => ?_, fun host accepted aligned => ?_, fun host accepted aligned => ?_⟩
  · exact step_write_accepted bus idle host (i := .init) rfl rfl
  · exact step_write_accepted bus idle host (i := .compress) rfl
      (sessionCheck_eq_none.2 ⟨accepted, baseMisaligned_compress.2 aligned⟩)
  · exact step_write_accepted bus idle host (i := .decompress) rfl
      (sessionCheck_eq_none.2 ⟨accepted, baseMisaligned_decompress.2 aligned⟩)

/-! ## The registers -/

theorem runCommand_running (op : PlOp) (running : s.pl.state = .running) :
    runCommand op s = .next s := if_pos running

/-- Settles O9: every write and every command asks for `BUSY = 0` first. -/
theorem busyBlockIgnoresWritesAndShowsStatus :
    Obligations.BusyBlockIgnoresWritesAndShowsStatus := by
  intro s rest bus running
  refine ⟨fun off v aligned inside host => ?_, step_read_status bus,
    fun off aligned inside other host => ?_, runCommand_running _ running,
    runCommand_running _ running, runCommand_running _ running⟩
  · rw [step_eq_hostWrite bus host]
    exact hostWrite_eq_next.2 ⟨registerAccessOk_iff.2 ⟨aligned, inside⟩, .inl ⟨running, rfl⟩⟩
  · refine ⟨Config.busyRead s.free, ?_⟩
    rw [step_eq_hostRead bus host]
    exact hostRead_eq_next.2
      ⟨registerAccessOk_iff.2 ⟨aligned, inside⟩, .inl ⟨running, other, rfl⟩⟩

/-- A read while `BUSY = 0` shows the register (spec/10_state.md R40). -/
theorem step_read_idle {off : Nat} {rest : List HostAction} (bus : s.bus = none)
    (idle : s.pl.state ≠ .running) (aligned : off % 4 = 0) (inside : off ≤ 0xFC)
    (host : s.host = .rd off :: rest) :
    step s = .next { s with host := rest, rdata := registerValue off s } := by
  rw [step_eq_hostRead bus host]
  exact hostRead_eq_next.2
    ⟨registerAccessOk_iff.2 ⟨aligned, inside⟩, .inr ⟨fun h => idle h.1, rfl⟩⟩

/-- A write while `BUSY = 0`, not to `CMD`, writes the configuration register it names
(spec/10_state.md R43 to R46). -/
theorem step_write_idle {off : Nat} {v : Word} {rest : List HostAction} (bus : s.bus = none)
    (idle : s.pl.state ≠ .running) (aligned : off % 4 = 0) (inside : off ≤ 0xFC) (other : off ≠ 0)
    (host : s.host = .wr off v :: rest) :
    step s = .next { s with host := rest, regs := regsWritten off v s.regs } := by
  rw [step_eq_hostWrite bus host]
  exact hostWrite_eq_next.2
    ⟨registerAccessOk_iff.2 ⟨aligned, inside⟩, .inr (.inr ⟨idle, other, rfl⟩)⟩

/-- A configuration register just written reads as the value written. -/
theorem registerValue_regsWritten {off : Nat} {v : Word} {t : State} {r : Regs}
    (config : off = 0x08 ∨ off = 0x0C ∨ off = 0x10 ∨ off = 0x14)
    (written : t.regs = regsWritten off v r) : registerValue off t = v := by
  rcases config with rfl | rfl | rfl | rfl <;> simp [registerValue, written, regsWritten]

/-- A write to a read-only or reserved offset is ignored (spec/10_state.md R52). -/
theorem regsWritten_other {off : Nat} (other : off = 0x04 ∨ 0x18 ≤ off) (v : Word) (r : Regs) :
    regsWritten off v r = r := by
  unfold regsWritten
  rw [if_neg (by omega), if_neg (by omega), if_neg (by omega), if_neg (by omega)]

/-- Settles O10: the write is one step, the read of what it wrote the next. -/
theorem configurationRegisterReadsBack : Obligations.ConfigurationRegisterReadsBack := by
  intro s off v rest bus idle config host
  have write := step_write_idle bus idle (by omega) (by omega) (by omega) host
  have read := step_read_idle (off := off) (rest := rest)
    (s := { s with host := .rd off :: rest, regs := regsWritten off v s.regs }) bus idle (by omega)
    (by omega) rfl
  rw [registerValue_regsWritten config rfl] at read
  refine ⟨_, _, write, read, rfl, ?_⟩
  rcases config with rfl | rfl | rfl | rfl <;> exact ⟨rfl, rfl, rfl, rfl, rfl, rfl⟩

/-- An offset above the last register reads 0 (spec/10_state.md R52). -/
theorem registerValue_reserved {off : Nat} (reserved : 0x38 ≤ off) (s : State) :
    registerValue off s = 0 := by
  unfold registerValue
  iterate 13 rw [if_neg (by omega)]

/-- Settles O11: a read shows the register's value, a write to an offset outside the configuration
leaves the registers as they are. -/
theorem readOnlyRegistersShowTheUnits : Obligations.ReadOnlyRegistersShowTheUnits := by
  intro s off rest bus idle
  refine ⟨fun host => ?read, fun v host aligned inside other => ?write⟩
  case write =>
    rw [step_write_idle bus idle aligned inside (by omega) host, regsWritten_other other]
  case read =>
    have shown (aligned : off % 4 = 0) (inside : off ≤ 0xFC) :=
      step_read_idle bus idle aligned inside host
    refine ⟨?_, ?_, ?_, ?_, ?_, ?_, ?_, ?_, ?_, ?_, fun ⟨reserved, inside, aligned⟩ => ?reserved⟩
    case reserved => rw [shown aligned inside, registerValue_reserved reserved]
    all_goals
      rintro rfl
      exact shown (by decide) (by decide)

/-! ## Hardware reset -/

/-- Memory outside the output region outlives a reset (spec/70_reset_and_hazards.md R246, R247). -/
theorem memAfterReset_byteAt (s : State) {a : Nat}
    (outside : a < s.regs.outBase.toNat ∨ s.regs.outBase.toNat + s.regs.outCap.toNat ≤ a) :
    (memAfterReset s).byteAt a = s.mem.byteAt a := by
  unfold memAfterReset
  split
  · split
    · exact s.mem.byteAt_lose_other outside
    · exact s.mem.byteAt_lose_other outside
    · rfl
    · rfl
  all_goals rfl

/-- Without a session to abandon a reset leaves memory as it is (spec/70_reset_and_hazards.md
R247). -/
theorem memAfterReset_eq {s : State}
    (no_session : ¬(s.pl.state = .running ∧ (s.pl.op = .compress ∨ s.pl.op = .decompress))) :
    memAfterReset s = s.mem := by
  unfold memAfterReset
  split
  · next running =>
    split
    · next session => exact absurd ⟨running, .inl session⟩ no_session
    · next session => exact absurd ⟨running, .inr session⟩ no_session
    · rfl
    · rfl
  all_goals rfl

/-- Settles O14: the reset is one record of constants, with memory as `memAfterReset` gives it. -/
theorem hardwareResetTakesTheResetState : Obligations.HardwareResetTakesTheResetState := by
  intro s rest bus host
  have reset : step s = .next (hardwareReset (s.setHost rest)) := by
    simpa [bus, host] using step_cases s
  exact ⟨_, reset, rfl, rfl, rfl, rfl, rfl, rfl, fun no_session => memAfterReset_eq no_session,
    fun a outside => memAfterReset_byteAt (s.setHost rest) outside⟩

end

end Sys2Proof.Machine
end

section
/-! PROOFS. Unit BC, writing (spec/40_bit_channel.md R122 to R126, R134, R135): a ready channel
either completes a run of bits or raises at the first word there is no room for, and both ends are
read off the write session. -/

namespace Sys2Proof.Machine

/-! ## Words as numbers -/

theorem testBit_bitsValue (bits : List Bool) (i : Nat) :
    (bitsValue bits).testBit i = bits.getD i false := by
  induction bits generalizing i with
  | nil => simp [bitsValue]
  | cons b rest ih =>
    have bit_le := b.toNat_le
    cases i with
    | zero => cases b <;> simp [bitsValue, Nat.testBit_zero, Nat.add_mod]
    | succ i =>
      rw [bitsValue, Nat.testBit_succ, show (b.toNat + 2 * bitsValue rest) / 2 = bitsValue rest by
        omega, ih, List.getD_cons_succ]

/-- A word that holds a stream's word is its bits as a number (spec/30_encoding.md R91). -/
theorem HoldsWord.toNat_eq {word : Word} {bits : List Bool} {w : Nat}
    (holds : HoldsWord word bits w) : word.toNat = bitsValue ((bits.drop (32 * w)).take 32) := by
  apply Nat.eq_of_testBit_eq
  intro i
  rw [testBit_bitsValue, BitVec.testBit_toNat]
  by_cases inside : i < 32
  · rw [holds i inside, List.getD_eq_getElem?_getD, List.getD_eq_getElem?_getD,
      List.getElem?_take_of_lt inside, List.getElem?_drop]
  · rw [BitVec.getLsbD_of_ge _ _ (by omega), List.getD_eq_default _ _ (by simp; omega)]

/-- A field is its value's low bits one by one (spec/40_bit_channel.md R124). -/
theorem fieldBits_eq_map (value n : Nat) :
    fieldBits value n = (List.range n).map fun j => value.testBit j := by
  induction n generalizing value with
  | zero => rfl
  | succ n ih =>
    rw [fieldBits, ih, List.range_succ_eq_map, List.map_cons, List.map_map]
    simp [Nat.testBit_zero, Function.comp_def, Nat.testBit_succ, beq_eq_decide]

theorem fieldBits_getD {value n i : Nat} (i_lt : i < n) (dflt : Bool) :
    (fieldBits value n).getD i dflt = value.testBit i := by
  simp [fieldBits_eq_map, i_lt]

/-- The remainder's bits are the value's (spec/30_encoding.md R91). -/
theorem fieldBits_mod (value n : Nat) : fieldBits (value % 2 ^ n) n = fieldBits value n := by
  simp only [fieldBits_eq_map]
  refine List.map_congr_left fun j j_mem => ?_
  simp [Nat.testBit_mod_two_pow, List.mem_range.1 j_mem]

/-! ## What a run of bits stores -/

/-- `t` is `s` with words stored from the cursor on, each below the limit, and the cursor behind
them. -/
structure StoredUpTo (s t : State) : Prop where
  le : s.bc.cursor.toNat ≤ t.bc.cursor.toNat
  lim : t.bc.lim = s.bc.lim
  within : t.bc.cursor.toNat = s.bc.cursor.toNat ∨ t.bc.cursor.toNat ≤ s.bc.lim.toNat
  bytes : ∀ a, a < s.bc.cursor.toNat ∨ t.bc.cursor.toNat ≤ a → t.mem.byteAt a = s.mem.byteAt a

section
variable {s t u : State} {v : Unit}

theorem StoredUpTo.of_same (cursor : t.bc.cursor = s.bc.cursor) (lim : t.bc.lim = s.bc.lim)
    (mem : t.mem = s.mem) : StoredUpTo s t :=
  have same := congrArg BitVec.toNat cursor
  ⟨same.ge, lim, .inl same, fun _ _ => by rw [mem]⟩

theorem StoredUpTo.trans (first : StoredUpTo s t) (second : StoredUpTo t u) : StoredUpTo s u := by
  obtain ⟨le, lim, within, bytes⟩ := first
  obtain ⟨le', lim', within', bytes'⟩ := second
  rw [lim] at within'
  refine ⟨le.trans le', lim'.trans lim, by omega, fun a outside => ?_⟩
  rw [bytes' a (by omega), bytes a (by omega)]

/-- A completed flush moves the cursor by one word, below the limit (spec/40_bit_channel.md R126).
-/
theorem flush_cursor (flushed : flush s = .ok v t) :
    t.bc.cursor.toNat = s.bc.cursor.toNat + 4 := by
  have inside := flush_inside flushed
  obtain ⟨-, -, -, -, rfl⟩ := flush_eq_ok.1 flushed
  exact (congrArg BitVec.toNat (bcFlushed_cursor s.bc)).trans (toNat_add_four inside)

theorem flush_storedUpTo (flushed : flush s = .ok v t) : StoredUpTo s t := by
  have cursor := flush_cursor flushed
  obtain ⟨-, room, -, -, rfl⟩ := flush_eq_ok.1 flushed
  exact ⟨by omega, rfl, .inr (by omega), fun a outside => s.mem.byteAt_setWord_other _ (by omega)⟩

theorem putBit_storedUpTo {bit : Bool} (put : putBit bit s = .ok v t ∨ putBit bit s = .raised t) :
    StoredUpTo s t := by
  have placed : StoredUpTo s (s.setBc (bcPlaced bit s.bc)) := .of_same rfl rfl rfl
  rcases put with put | raised
  · obtain ⟨-, ⟨-, rfl⟩ | ⟨-, flushed⟩⟩ := putBit_eq_ok.1 put
    · exact placed
    · exact placed.trans (flush_storedUpTo flushed)
  · obtain ⟨-, -, -, rfl⟩ := putBit_eq_raised.1 raised
    exact placed

theorem putBits_storedUpTo {bits : List Bool}
    (put : putBits bits s = .ok v t ∨ putBits bits s = .raised t) : StoredUpTo s t := by
  induction bits generalizing s with
  | nil =>
    rcases put with put | raised
    · cases put
      exact .of_same rfl rfl rfl
    · cases raised
  | cons bit rest ih =>
    simp only [putBits, Res.bind_eq_ok, Res.bind_eq_raised] at put
    obtain ⟨w, r, one, others⟩ | raised | ⟨w, r, one, others⟩ := put
    · exact (putBit_storedUpTo (.inl one)).trans (ih (.inl others))
    · exact putBit_storedUpTo (v := ()) (.inr raised)
    · exact (putBit_storedUpTo (.inl one)).trans (ih (.inr others))

theorem closeWrite_storedUpTo (closed : closeWrite s = .ok v t) : StoredUpTo s t := by
  obtain ⟨-, ⟨-, rfl⟩ | ⟨-, r, flushed, rfl⟩⟩ := closeWrite_eq_ok.1 closed
  · exact .of_same rfl rfl rfl
  · exact (flush_storedUpTo flushed).trans (.of_same rfl rfl rfl)

end

/-! ## A ready channel completes or raises -/

section
variable {s t : State} {v : Unit}

/-- With an aligned cursor and a limit inside memory a flush completes or raises
(spec/40_bit_channel.md R126). -/
theorem flush_total (mode : s.bc.mode = .write) (aligned : s.bc.cur.toNat % 4 = 0)
    (inside : s.bc.lim.toNat ≤ Config.addressSpace) :
    (s.bc.cursor.toNat + 4 ≤ s.bc.lim.toNat ∧ ∃ t, flush s = .ok () t) ∨
      s.bc.lim.toNat < s.bc.cursor.toNat + 4 ∧ flush s = .raised s := by
  rcases Nat.lt_or_ge s.bc.lim.toNat (s.bc.cursor.toNat + 4) with full | room
  · exact .inr ⟨full, flush_eq_raised.2 ⟨mode, full, rfl⟩⟩
  · exact .inl ⟨room, _, flush_eq_ok.2
      ⟨mode, room, s.bc.cursor_mod_four.trans aligned, by omega, rfl⟩⟩

theorem flush_writeReady (flushed : flush s = .ok v t)
    (inside : s.bc.lim.toNat ≤ Config.addressSpace) : WriteReady t := by
  have cursor := flush_cursor flushed
  obtain ⟨mode, -, aligned, -, rfl⟩ := flush_eq_ok.1 flushed
  refine ⟨mode, Nat.zero_le 31, Nat.one_pos, ?_, inside⟩
  rw [← Bc.cursor_mod_four, cursor]
  omega

theorem putBit_total (ready : WriteReady s) (bit : Bool) :
    (∃ t, putBit bit s = .ok () t ∧ WriteReady t) ∨ ∃ t, putBit bit s = .raised t := by
  obtain ⟨mode, fill_le, acc, aligned, inside⟩ := ready
  rcases Nat.lt_or_eq_of_le fill_le with within | last
  · refine .inl ⟨_, putBit_within mode within bit, mode, ?_, ?_, aligned, inside⟩ <;>
      rw [State.setBc_bc, bcPlaced_fill_toNat bit fill_le]
    · exact within
    · exact bcPlaced_acc_lt bit acc
  · rw [putBit_last mode last]
    rcases flush_total (s := s.setBc (bcPlaced bit s.bc)) mode aligned inside with
      ⟨-, t, flushed⟩ | ⟨-, raised⟩
    · exact .inl ⟨t, flushed, flush_writeReady flushed inside⟩
    · exact .inr ⟨_, raised⟩

/-- On a ready channel a run of bits completes, leaving it ready, or raises. -/
theorem putBits_total (ready : WriteReady s) (bits : List Bool) :
    (∃ t, putBits bits s = .ok () t ∧ WriteReady t) ∨ ∃ t, putBits bits s = .raised t := by
  induction bits generalizing s with
  | nil => exact .inl ⟨s, rfl, ready⟩
  | cons bit rest ih =>
    rcases putBit_total ready bit with ⟨r, one, ready_r⟩ | ⟨r, raised⟩
    · rw [putBits, one, Res.bind_ok]
      exact ih ready_r
    · exact .inr ⟨r, by rw [putBits, raised, Res.bind_raised]⟩

/-- A close raises exactly when its flush does, and then nothing has changed
(spec/40_bit_channel.md R134). -/
theorem closeWrite_eq_raised : closeWrite s = .raised t ↔
    s.bc.mode = .write ∧ 0 < s.bc.fill.toNat ∧ s.bc.lim.toNat < s.bc.cursor.toNat + 4 ∧ t = s := by
  unfold closeWrite
  rw [inMode_eq_raised]
  split
  · next partly =>
    simp only [Res.bind_eq_raised, flush_eq_raised, reduceCtorEq, and_false, exists_false, or_false,
      partly, true_and]
    tauto
  · next empty => simp [empty]

theorem closeWrite_empty (mode : s.bc.mode = .write) (empty : s.bc.fill.toNat = 0) :
    closeWrite s = .ok () (s.setBc (bcClosed s.bc)) :=
  closeWrite_eq_ok.2 ⟨mode, .inl ⟨empty, rfl⟩⟩

theorem closeWrite_partly (mode : s.bc.mode = .write) (partly : 0 < s.bc.fill.toNat)
    (flushed : flush s = .ok () t) : closeWrite s = .ok () (t.setBc (bcClosed t.bc)) :=
  closeWrite_eq_ok.2 ⟨mode, .inr ⟨partly, t, flushed, rfl⟩⟩

theorem closeWrite_total (ready : WriteReady s) :
    (∃ t, closeWrite s = .ok () t) ∨ closeWrite s = .raised s := by
  obtain ⟨mode, -, -, aligned, inside⟩ := ready
  rcases Nat.eq_zero_or_pos s.bc.fill.toNat with empty | partly
  · exact .inl ⟨_, closeWrite_empty mode empty⟩
  · rcases flush_total mode aligned inside with ⟨-, t, flushed⟩ | ⟨full, -⟩
    · exact .inl ⟨_, closeWrite_partly mode partly flushed⟩
    · exact .inr (closeWrite_eq_raised.2 ⟨mode, partly, full, rfl⟩)

end

/-! ## A write session at its end -/

/-- A write session at `base` stopped by a refused flush: the words before number `words` are
stored, that one is whole in the accumulator (spec/40_bit_channel.md R124, R126). -/
structure WriteRefused (base : Nat) (bits : List Bool) (words : Nat) (t : State) : Prop where
  mode : t.bc.mode = .write
  fill : t.bc.fill.toNat = 32
  cursor : t.bc.cursor.toNat = base + 4 * words
  acc : HoldsWord t.bc.acc bits words
  stored : StoredWords t.mem base bits words
  full : t.bc.lim.toNat < base + 4 * (words + 1)
  long : 32 * (words + 1) ≤ bits.length

theorem WriteRefused.append {base words : Nat} {bits : List Bool} {t : State}
    (refused : WriteRefused base bits words t) (more : List Bool) :
    WriteRefused base (bits ++ more) words t := by
  obtain ⟨mode, fill, cursor, acc, stored, full, long⟩ := refused
  exact ⟨mode, fill, cursor, acc.append long more, stored.append (by omega) more, full,
    by rw [List.length_append]; omega⟩

section
variable {base : Nat} {bits : List Bool} {s t : State}

theorem WriteSession.putBit_raised (session : WriteSession base bits s) {bit : Bool}
    (raised : putBit bit s = .raised t) : ∃ words, WriteRefused base (bits ++ [bit]) words t := by
  obtain ⟨mode, fill, cursor, acc, stored⟩ := session
  obtain ⟨-, last, full, rfl⟩ := putBit_eq_raised.1 raised
  have length : (bits ++ [bit]).length = bits.length + 1 := by simp
  refine ⟨bits.length / 32, mode, ?_, cursor, acc.placed (by omega) bit,
    stored.append (by omega) [bit], ?_, by omega⟩
  · rw [State.setBc_bc, bcPlaced_fill_toNat bit last.le, last]
  · rw [cursor] at full
    exact full

/-- A run of bits that raised had filled the next word (spec/40_bit_channel.md R127). -/
theorem WriteSession.putBits_raised (session : WriteSession base bits s) {more : List Bool}
    (raised : putBits more s = .raised t) :
    ∃ words, WriteRefused base (bits ++ more) words t := by
  induction more generalizing bits s with
  | nil => cases raised
  | cons bit rest ih =>
    rw [List.append_cons]
    rcases Res.bind_eq_raised.1 raised with one | ⟨_, r, one, others⟩
    · obtain ⟨words, refused⟩ := session.putBit_raised one
      exact ⟨words, refused.append rest⟩
    · exact ih (session.after_putBit one) others

/-- A channel that is ready has produced the bits pending in its accumulator. -/
theorem WriteReady.session (ready : WriteReady s) :
    WriteSession s.bc.cursor.toNat (pendingBits s.bc) s := by
  obtain ⟨mode, fill_le, acc, -, -⟩ := ready
  have length : (pendingBits s.bc).length = s.bc.fill.toNat := length_fieldBits _ _
  have none : (pendingBits s.bc).length / 32 = 0 := by omega
  refine ⟨mode, by omega, by omega, ?_, ?_⟩
  · rw [none]
    intro i _
    rw [Nat.mul_zero, Nat.zero_add]
    by_cases produced : i < s.bc.fill.toNat
    · rw [pendingBits, fieldBits_getD produced, BitVec.testBit_toNat]
    · rw [List.getD_eq_default _ _ (by omega), ← BitVec.testBit_toNat]
      exact Nat.testBit_lt_two_pow (acc.trans_le (Nat.pow_le_pow_right (by decide) (by omega)))
  · rw [none]
    exact fun j j_lt => absurd j_lt (Nat.not_lt_zero j)

/-- What a completed run of bits leaves (spec/40_bit_channel.md R135). -/
theorem WriteReady.appended (ready : WriteReady s) (put : putBits bits s = .ok () t) :
    Appended bits s t ∧ HasRoom s bits.length := by
  obtain ⟨-, fill, cursor, acc, stored⟩ := ready.session.after_putBits put
  have upTo := putBits_storedUpTo (.inl put)
  have length : (pendingBits s.bc ++ bits).length = s.bc.fill.toNat + bits.length := by
    rw [List.length_append, pendingBits, length_fieldBits]
  have words : (pendingBits s.bc ++ bits).length / 32 = wordsFilled s bits.length := by
    rw [length, wordsFilled]
  rw [words] at cursor acc stored
  refine ⟨⟨putBits_frame (.inl put), cursor, by rw [fill, length], ?_,
    fun j j_lt => (stored j j_lt).toNat_eq, fun a outside => upTo.bytes a (by omega)⟩,
    fun some_word => ?_⟩
  · rw [acc.toNat_eq, List.take_of_length_le]
    rw [List.length_drop, length, wordsFilled]
    omega
  · have within := upTo.within
    omega

theorem faultRecorded_takeFault (frame : t = { s with bc := t.bc, mem := t.mem }) :
    FaultRecorded s (takeFault .bufferTooSmall t) := by
  have out : faultOutputCursor t = if s.pl.op = .decompress then s.pl.ocur else t.bc.cursor := by
    rw [frame, faultOutputCursor]
    cases s.pl.op <;> rfl
  have inp : faultInputCursor t = if s.pl.op = .decompress then t.bc.cursor else s.pl.icur := by
    rw [frame, faultInputCursor]
    cases s.pl.op <;> rfl
  obtain ⟨bc, mem, rfl⟩ : ∃ bc mem, t = { s with bc := bc, mem := mem } := ⟨_, _, frame⟩
  rw [FaultRecorded, takeFault_bufferTooSmall, out, inp]
  rfl

/-- What a run of bits that raised leaves once the fault is taken (spec/40_bit_channel.md R124,
R126, spec/60_exceptions.md R222). -/
theorem WriteReady.ranOutOfRoom (ready : WriteReady s) (raised : putBits bits s = .raised t) :
    RanOutOfRoom bits s (takeFault .bufferTooSmall t) ∧ ¬HasRoom s bits.length := by
  obtain ⟨words, -, fill, cursor, acc, stored, full, long⟩ := ready.session.putBits_raised raised
  have upTo := putBits_storedUpTo (v := ()) (.inr raised)
  have frame := putBits_frame (u := ()) (.inr raised)
  have within := upTo.within
  have fit : words = wordsFit s := by
    rw [upTo.lim] at full
    unfold wordsFit
    omega
  have length : (pendingBits s.bc ++ bits).length = s.bc.fill.toNat + bits.length := by
    rw [List.length_append, pendingBits, length_fieldBits]
  subst fit
  refine ⟨⟨faultRecorded_takeFault (by rw [frame]), ?_, cursor, acc.toNat_eq,
    fun j j_lt => (stored j j_lt).toNat_eq, fun a outside => upTo.bytes a (by omega)⟩,
    fun room => ?_⟩
  · have fill_eq : t.bc.fill = 32 := BitVec.eq_of_toNat_eq fill
    rw [takeFault_bc, ← fill_eq]
    exact congrArg (·.bc) frame
  · rw [upTo.lim] at full
    unfold HasRoom wordsFilled at room
    omega

/-- A run of bits on a ready channel, as an operation on the bus performs it: completed with room
for the words it fills, else stopped at the first it has no room for. -/
theorem WriteReady.settle_putBits (ready : WriteReady s) (bits : List Bool) :
    (HasRoom s bits.length → ∃ t, settle (putBits bits s) = .next t ∧ Appended bits s t) ∧
      (¬HasRoom s bits.length →
        ∃ t, settle (putBits bits s) = .next t ∧ RanOutOfRoom bits s t) := by
  rcases putBits_total ready bits with ⟨t, put, -⟩ | ⟨t, raised⟩
  · obtain ⟨appended, room⟩ := ready.appended put
    exact ⟨fun _ => ⟨t, by rw [put]; rfl, appended⟩, fun no_room => absurd room no_room⟩
  · obtain ⟨out, no_room⟩ := ready.ranOutOfRoom raised
    exact ⟨fun room => absurd room no_room, fun _ => ⟨_, by rw [raised]; rfl, out⟩⟩

end

/-! ## The write operations -/

theorem exec_bcPut1 (s : State) : exec .bcPut1 s = settle (put1 s) := rfl

theorem exec_bcWrzero (n : Word) (s : State) :
    exec (.bcWrzero n) s = settle (wrzero n.toNat s) := rfl

theorem exec_bcFlush (s : State) : exec .bcFlush s = settle (flush s) := rfl

theorem exec_bcCloseW (s : State) : exec .bcCloseW s = settle (closeWrite s) := rfl

theorem exec_greEncode (k : BitVec 5) (value : Word) (s : State) :
    exec (.greEncode k value) s = settle (greEncode k value.toNat s) := rfl

/-- Settles O16: one bit of value 1 is a run of one bit. -/
theorem put1AppendsAOne : Obligations.Put1AppendsAOne := by
  refine ⟨rfl, fun s ready => ?_⟩
  rw [exec_bcPut1, put1, ← putBits_singleton]
  exact ready.settle_putBits [true]

/-- Settles O17: the field is the run of the value's low bits. -/
theorem wrfixAppendsTheLowBits : Obligations.WrfixAppendsTheLowBits := by
  intro s value n bits ready n_le bits_eq
  have field : fieldBits value.toNat n.toNat = bits := by
    simp only [fieldBits_eq_map, bits_eq, BitVec.testBit_toNat]
  have length : n.toNat = bits.length := by rw [← field, length_fieldBits]
  rw [exec_bcWrfix, wrfix, inMode_pos _ ready.1, if_neg (by omega), field, length]
  exact ⟨rfl, ready.settle_putBits bits⟩

/-- Settles O18: the zeros are one run of bits. -/
theorem wrzeroAppendsZeros : Obligations.WrzeroAppendsZeros := by
  intro s n ready
  have zeros := ready.settle_putBits (zeroBits n.toNat)
  rw [length_zeroBits] at zeros
  rw [exec_bcWrzero, wrzero, inMode_pos _ ready.1]
  exact ⟨rfl, zeros⟩

/-- Settles O29: the encoder puts the code word as one run of bits, whose remainder bits are the
value's. -/
theorem encodeAppendsTheCodeWord : Obligations.EncodeAppendsTheCodeWord := by
  intro s k value bits ready bits_eq
  have word : codeWord k value.toNat = bits := by
    rw [bits_eq, codeWord, riceRemainder, fieldBits_mod, fieldBits_eq_map]
    simp only [BitVec.testBit_toNat]
    rfl
  have length := length_codeWord k value.toNat
  rw [word] at length
  rw [exec_greEncode, greEncode_eq_putBits ready.1, word]
  exact ⟨rfl, length, ready.settle_putBits bits⟩

/-- Settles O20: with room the flush is one word write and one record of unit BC, without it nothing
but the fault's record. -/
theorem flushStoresTheAccumulatorOrKeepsIt : Obligations.FlushStoresTheAccumulatorOrKeepsIt := by
  refine ⟨rfl, fun s mode => ⟨fun aligned room inside => ?_, fun full => ?_⟩⟩
  · rcases flush_total mode aligned inside with ⟨-, t, flushed⟩ | ⟨full, -⟩
    · have cursor := flush_cursor flushed
      have others := (flush_storedUpTo flushed).bytes
      rw [cursor] at others
      obtain ⟨-, -, -, -, rfl⟩ := flush_eq_ok.1 flushed
      refine ⟨_, by rw [exec_bcFlush, flushed]; rfl, rfl, cursor, ?_, ?_, ?_, ?_, others⟩ <;>
        simp [Memory.byteAt_setWord]
    · omega
  · rw [exec_bcFlush, flush_eq_raised.2 ⟨mode, full, rfl⟩]
    exact congrArg _ (faultRecorded_takeFault (s := s) (t := s) rfl)

/-- Settles O21: a partial word is flushed before the channel is closed, and a refused flush stops
before the close. -/
theorem closeWriteStoresThePartialWord : Obligations.CloseWriteStoresThePartialWord := by
  refine ⟨rfl, fun s ready => ⟨fun empty => ?_, fun partly room => ?_, fun partly full => ?_⟩⟩
  · rw [exec_bcCloseW, closeWrite_empty ready.1 empty]
    rfl
  · obtain ⟨mode, -, -, aligned, inside⟩ := ready
    rcases flush_total mode aligned inside with ⟨-, t, flushed⟩ | ⟨full, -⟩
    · have others := (flush_storedUpTo flushed).bytes
      rw [flush_cursor flushed] at others
      refine ⟨t.setBc (bcClosed t.bc),
        by rw [exec_bcCloseW, closeWrite_partly mode partly flushed]; rfl, ?_⟩
      obtain ⟨-, -, -, -, rfl⟩ := flush_eq_ok.1 flushed
      exact ⟨rfl, s.mem.wordAt_setWord_same _ _, others⟩
    · omega
  · refine ⟨_, by rw [exec_bcCloseW, closeWrite_eq_raised.2 ⟨ready.1, partly, full, rfl⟩]; rfl,
      faultRecorded_takeFault (s := s) (t := s) rfl, rfl, rfl⟩

/-! ## A whole write session -/

/-- The open leaves a ready channel (spec/40_bit_channel.md R122). -/
theorem openWrite_writeReady {base : Word} {lim : WideAddr} {s t : State} {u : Unit}
    (opened : openWrite base lim s = .ok u t) (inside : lim.toNat ≤ Config.addressSpace) :
    WriteReady t := by
  obtain ⟨aligned, -, rfl⟩ := openWrite_eq_ok.1 opened
  exact ⟨rfl, Nat.zero_le 31, Nat.one_pos, aligned, inside⟩

/-- A channel that is ready and closed holds no bit any more. -/
theorem closeWrite_closed {s t : State} {u : Unit} (ready : WriteReady s)
    (closed : closeWrite s = .ok u t) :
    t.bc = { s.bc with
        mode := .closed, cur := t.bc.cur, carry := t.bc.carry, acc := 0, fill := 0 } ∧
      t = { s with bc := t.bc, mem := t.mem } := by
  obtain ⟨-, -, acc, -, -⟩ := ready
  obtain ⟨-, ⟨empty, rfl⟩ | ⟨-, r, flushed, rfl⟩⟩ := closeWrite_eq_ok.1 closed
  · rw [empty] at acc
    have fill_zero : s.bc.fill = 0 := BitVec.eq_of_toNat_eq empty
    have acc_zero : s.bc.acc = 0 := BitVec.eq_of_toNat_eq (Nat.lt_one_iff.1 acc)
    refine ⟨?_, rfl⟩
    rw [← fill_zero, ← acc_zero]
    rfl
  · obtain ⟨-, -, -, -, rfl⟩ := flush_eq_ok.1 flushed
    exact ⟨rfl, rfl⟩

/-- Settles O22: after the bits the session holds all but the last word in memory; the close stores
that one, and either refuses only for want of room. -/
theorem writeSessionLeavesTheBitsInMemory : Obligations.WriteSessionLeavesTheBitsInMemory := by
  intro s base lim bits aligned ordered inside
  have opened : openWrite base lim s = .ok () (s.setBc (bcOpenedWrite base lim s.bc)) :=
    openWrite_eq_ok.2 ⟨aligned, ordered, rfl⟩
  have ready := openWrite_writeReady opened inside
  have start := WriteSession.of_openWrite opened
  have base_eq := start.cursor
  have lim_eq : (s.setBc (bcOpenedWrite base lim s.bc)).bc.lim = lim := rfl
  rw [opened, Res.bind_ok]
  rcases putBits_total ready bits with ⟨t, put, ready_t⟩ | ⟨t, raised⟩
  case inr =>
    obtain ⟨words, -, -, -, -, -, full, long⟩ := start.putBits_raised raised
    rw [(putBits_storedUpTo (v := ()) (.inr raised)).lim, lim_eq] at full
    rw [List.nil_append] at long
    refine ⟨fun room => ?_, fun _ => ⟨t, by rw [raised, Res.bind_raised]⟩⟩
    unfold streamWords at room
    omega
  have session := start.after_putBits put
  have upTo := putBits_storedUpTo (.inl put)
  have frame := putBits_frame (.inl put)
  rw [List.nil_append] at session
  rw [put, Res.bind_ok]
  rcases closeWrite_total ready_t with ⟨u, closed⟩ | raised
  case inr =>
    obtain ⟨-, partly, full, -⟩ := closeWrite_eq_raised.1 raised
    have cursor := session.cursor
    have fill := session.fill
    rw [upTo.lim, lim_eq] at full
    refine ⟨fun room => ?_, fun _ => ⟨t, raised⟩⟩
    unfold streamWords at room
    omega
  case inl =>
    obtain ⟨cursor, stored⟩ := session.after_close closed
    have upTo := upTo.trans (closeWrite_storedUpTo closed)
    have within := upTo.within
    obtain ⟨bc, frame'⟩ := closeWrite_closed ready_t closed
    rw [lim_eq, base_eq] at within
    refine ⟨fun _ => ⟨u, closed, ?_, by rw [bc], by rw [bc], by rw [bc], cursor,
      fun w i w_lt i_lt => stored w w_lt i i_lt, fun a outside => ?_⟩, fun full => ?_⟩
    · rw [frame', frame]
      rfl
    · have bytes := upTo.bytes a
      rw [base_eq] at bytes
      exact bytes (by simpa [cursor] using outside)
    · simp at within
      omega

end Sys2Proof.Machine
end

section
/-! PROOFS. Unit BC, reading (spec/40_bit_channel.md R136) and the padding after a region
(spec/42_golomb_rice.md R178): what a session over a region sees, and a channel that has only
sentinel words before it. -/

namespace Sys2Proof.Machine

/-! ## A read session -/

theorem ReadSessionStart.upcomingBits_zero {m : Memory} {base stop : Nat} {s : State}
    (start : ReadSessionStart m base stop s) (n : Nat) :
    upcomingBits s 0 n = (List.range n).map (sessionBit m base stop) := by
  simp only [upcomingBits, Nat.zero_add, start.upcomingBit_eq]

/-- Settles O28: the open starts a session, and `n` bits of it are the closed form of `n` bits. -/
theorem readSessionSeesTheRegionThenTheSentinel :
    Obligations.ReadSessionSeesTheRegionThenTheSentinel := by
  intro s base stop n aligned ordered whole inside
  have valid := readRegionOk_iff.2 ⟨aligned, ordered, whole⟩
  obtain ⟨u, opened, session⟩ := openRead_sessionStart (s := s) valid inside
  have frame : u = { s with bc := u.bc } := by
    obtain ⟨-, reloaded⟩ := openRead_eq_ok.1 opened
    rw [reload_frame reloaded]
    rfl
  have stop_eq : u.bc.stop = stop := BitVec.eq_of_toNat_eq session.stop_eq
  have field := getField_consumed session.ready 0 n
  rw [consumed_zero session.ready, Nat.zero_add, session.upcomingBits_zero] at field
  refine ⟨u.consumed n, by rw [opened, Res.bind_ok, field], ?_,
    (session.ready.consumed n).1, ?_, session.consumed_fill n, session.consumed_cursor n⟩
  · rw [frame]
    rfl
  · exact (consumedBc_stop u n).trans stop_eq

/-! ## In the padding -/

/-- The channel with `p` bits of a sentinel word consumed. -/
def State.inPadding (s : State) (p : Nat) : State :=
  s.setBc { s.bc with acc := Config.sentinelWord >>> p, fill := BitVec.ofNat 6 p }

/-- A sentinel word shifted as a number. -/
theorem natCast_sentinel_shiftRight (p : Nat) :
    ((0x80000000 >>> p : Nat) : Word) = Config.sentinelWord >>> p := by
  have value : Config.sentinelWord.toNat = 0x80000000 := rfl
  have le : 0x80000000 >>> p ≤ 0x80000000 := Nat.shiftRight_le _ _
  apply BitVec.eq_of_toNat_eq
  rw [BitVec.toNat_ushiftRight, value]
  exact (BitVec.toNat_ofNat _ _).trans (Nat.mod_eq_of_lt (by omega))

section
variable {s : State} (mode : s.bc.mode = .read)
include mode

/-- The zeros of a sentinel word (spec/40_bit_channel.md R131). -/
theorem getBit_inPadding {p : Nat} (p_lt : p < 31) :
    getBit (s.inPadding p) = .ok false (s.inPadding (p + 1)) := by
  have fill : (s.inPadding p).bc.fill.toNat = p :=
    (BitVec.toNat_ofNat _ _).trans (Nat.mod_eq_of_lt (by omega))
  have bit : false = (s.inPadding p).bc.acc.getLsbD 0 := by
    rw [State.inPadding, State.setBc_bc, BitVec.getLsbD_ushiftRight,
      sentinelWord_getLsbD (by omega)]
    simp
    omega
  refine getBit_eq_ok.2 ⟨mode, bit, .inl ⟨by omega, ?_⟩⟩
  simp [State.inPadding, bcConsumed, BitVec.shiftRight_add, BitVec.ofNat_add]

/-- A field within a sentinel word's zeros is 0. -/
theorem getField_inPadding {n p : Nat} (within : p + n ≤ 31) :
    getField n (s.inPadding p) = .ok 0 (s.inPadding (p + n)) := by
  induction n generalizing p with
  | zero => rfl
  | succ n ih =>
    rw [getField, getBit_inPadding mode (by omega), Res.bind_ok, ih (by omega), Res.bind_ok,
      show p + 1 + n = p + (n + 1) by omega]
    rfl

variable (exhausted : s.bc.stop.toNat < s.bc.cursor.toNat + 4)
include exhausted

/-- The 1 at the end of a sentinel word, after which comes the next (spec/40_bit_channel.md R131).
-/
theorem getBit_inPadding_last : getBit (s.inPadding 31) = .ok true (s.inPadding 0) := by
  have reloaded : reload ((s.inPadding 31).setBc (bcConsumed (s.inPadding 31).bc)) =
      .ok () (s.inPadding 0) :=
    reload_sentinel mode exhausted
  have one : true = (Config.sentinelWord >>> 31).getLsbD 0 := by decide
  exact getBit_eq_ok.2 ⟨mode, one, .inr ⟨rfl, reloaded⟩⟩

/-- A scan counts the zeros left in the sentinel word and consumes its 1. -/
theorem scanUnary_inPadding {n fuel : Nat} (n_le : n ≤ 31) (enough : n < fuel) :
    scanUnary fuel (s.inPadding (31 - n)) = .ok n (s.inPadding 0) := by
  induction n generalizing fuel with
  | zero =>
    obtain ⟨fuel, rfl⟩ := Nat.exists_eq_add_one.2 enough
    rw [scanUnary, getBit_inPadding_last mode exhausted]
    rfl
  | succ n ih =>
    obtain ⟨fuel, rfl⟩ := Nat.exists_eq_add_one.2 (Nat.zero_lt_of_lt enough)
    rw [scanUnary, getBit_inPadding mode (by omega), Res.bind_ok, if_neg nofun,
      show 31 - (n + 1) + 1 = 31 - n by omega, ih (by omega) (by omega)]
    rfl

/-- Decoding `j` bits into a sentinel word counts its `31 - j` zeros as the quotient
(spec/42_golomb_rice.md R178). -/
theorem grdDecode_inPadding {j : Nat} (j_le : j ≤ 31) (k : BitVec 5) :
    grdDecode k (s.inPadding j) = .ok ((31 - j) * 2 ^ k.toNat) (s.inPadding k.toNat) := by
  have quotient : rdunary (s.inPadding j) = .ok (31 - j) (s.inPadding 0) := by
    have scan := scanUnary_inPadding mode exhausted (n := 31 - j)
      (fuel := scanBound (s.inPadding j)) (by omega) (by unfold scanBound; omega)
    rw [Nat.sub_sub_self j_le] at scan
    rw [rdunary, inMode_pos (s := s.inPadding j) _ mode, scan]
  have remainder : rdfix k.toNat (s.inPadding 0) = .ok 0 (s.inPadding k.toNat) := by
    rw [rdfix, inMode_pos (s := s.inPadding 0) _ mode, if_neg (by omega),
      getField_inPadding mode (by omega), Nat.zero_add]
  rw [grdDecode, inMode_pos (s := s.inPadding j) _ mode, quotient, Res.bind_ok, remainder,
    Res.bind_ok, Nat.add_zero]

end

/-- Settles O32: the channel stands in a sentinel word, and after its 1 comes another. -/
theorem decodeInThePaddingGivesTheZerosLeft : Obligations.DecodeInThePaddingGivesTheZerosLeft := by
  intro s k mode fill_le exhausted acc
  rw [natCast_sentinel_shiftRight] at acc
  have start : s = s.inPadding s.bc.fill.toNat := by
    rw [State.inPadding, ← acc, BitVec.ofNat_toNat, BitVec.setWidth_eq]
    rfl
  have decoded := grdDecode_inPadding mode exhausted fill_le k
  rw [← start] at decoded
  have fill : BitVec.ofNat 6 k.toNat = k.setWidth 6 := BitVec.ofNat_toNat ..
  rw [exec_grdDecode, decoded, State.inPadding, fill, natCast_sentinel_shiftRight]
  rfl

end Sys2Proof.Machine
end

section
/-! PROOFS. COMPRESS to its end (spec/44_pipeline.md R198, R201): symbol by symbol the state is a
function of the symbols coded, and the session ends either with the whole stream stored or at the
first word there is no room for. -/

namespace Sys2Proof.Machine

/-! ## Runs of symbols -/

/-- A run of symbols takes the room of each (spec/41_rank_model.md R158). -/
theorem CountsHaveRoom.rmAfter {m : Rm} {l : List Byte} {n : Nat}
    (room : CountsHaveRoom m (l.length + n)) (x : Byte) : CountsHaveRoom (rmAfter m x l) n := by
  induction l generalizing m x with
  | nil => rwa [List.length_nil, Nat.zero_add] at room
  | cons c l ih =>
    rw [List.length_cons, Nat.add_right_comm] at room
    exact ih (room.observed x c) c

section
variable (m : Rm) (e : Est) (x c : Byte) (l : List Byte)

theorem rmAfter_concat : rmAfter m x (l ++ [c]) = observed (rmAfter m x l) (l.getLastD x) c := by
  rw [rmAfter_append]
  rfl

theorem estAfter_concat : estAfter m e x (l ++ [c]) =
    estUpdated (estAfter m e x l) ((rmAfter m x l).rankOf (l.getLastD x) c).toNat := by
  rw [estAfter_append]
  rfl

theorem symbolsBits_concat : symbolsBits m e x (l ++ [c]) =
    symbolsBits m e x l ++
      codeWord (estAfter m e x l).k ((rmAfter m x l).rankOf (l.getLastD x) c).toNat := by
  rw [symbolsBits_append, symbolsBits_cons, symbolsBits_nil, List.append_nil]

theorem contextAfter_concat : contextAfter (l ++ [c]) = c := by simp [contextAfter]

end

/-! ## A write session that cannot go on -/

/-- A write session over the stream `bits` with the words before number `words` stored and no room
for that one, whose bits as far as the stream goes are in the accumulator. -/
structure WriteStuck (base : Nat) (bits : List Bool) (words : Nat) (t : State) : Prop where
  mode : t.bc.mode = .write
  fill : t.bc.fill.toNat = min 32 (bits.length - 32 * words)
  cursor : t.bc.cursor.toNat = base + 4 * words
  acc : HoldsWord t.bc.acc bits words
  stored : StoredWords t.mem base bits words
  full : t.bc.lim.toNat < base + 4 * (words + 1)
  short : 32 * words < bits.length

section
variable {base words : Nat} {bits : List Bool} {s t : State}

theorem WriteRefused.stuck (refused : WriteRefused base bits words t) :
    WriteStuck base bits words t := by
  obtain ⟨mode, fill, cursor, acc, stored, full, long⟩ := refused
  exact ⟨mode, by omega, cursor, acc, stored, full, by omega⟩

/-- A close without room for the partial word (spec/40_bit_channel.md R134). -/
theorem WriteSession.close_stuck (session : WriteSession base bits s)
    (raised : closeWrite s = .raised t) :
    t = s ∧ WriteStuck base bits (bits.length / 32) t := by
  obtain ⟨mode, fill, cursor, acc, stored⟩ := session
  obtain ⟨-, partly, full, rfl⟩ := closeWrite_eq_raised.1 raised
  exact ⟨rfl, mode, by omega, cursor, acc, stored, by omega, by omega⟩

/-- What a session stores lies below the limit, so the words there is room for are those stored. -/
theorem WriteStuck.words_eq (stuck : WriteStuck base bits words t) {room : Nat}
    (lim : t.bc.lim.toNat = base + room)
    (within : t.bc.cursor.toNat = base ∨ t.bc.cursor.toNat ≤ base + room) : words = room / 4 := by
  obtain ⟨-, -, cursor, -, -, full, -⟩ := stuck
  omega

end

/-! ## The loop -/

/-- A COMPRESS of `s` that has coded the symbols `l`, with what it has made of unit BC, the input
cursor and memory. -/
def State.compressing (s : State) (l : List Byte) (bc : Bc) (icur : WideAddr) (mem : Memory) :
    State :=
  { s with
    bc := bc, rm := rmAfter s.rm 0 l, est := estAfter s.rm s.est 0 l
    pl := { s.pl with
      state := .running, op := .compress, err := 0, ctx := contextAfter l, icur := icur }
    mem := mem, prog := .looping }

/-- What a COMPRESS of `s0` may have done to memory: words stored from the output base up to the
cursor, below the limit (spec/20_memory.md R70). -/
structure WrittenOver (s0 t : State) : Prop where
  stop : t.bc.stop = s0.bc.stop
  lim : t.bc.lim.toNat = outputEnd s0
  from_base : s0.regs.outBase.toNat ≤ t.bc.cursor.toNat
  within : t.bc.cursor.toNat = s0.regs.outBase.toNat ∨ t.bc.cursor.toNat ≤ outputEnd s0
  bytes : ∀ a, a < s0.regs.outBase.toNat ∨ t.bc.cursor.toNat ≤ a →
    t.mem.byteAt a = s0.mem.byteAt a

theorem WrittenOver.trans {s0 s t : State} (region : WrittenOver s0 s) (upTo : StoredUpTo s t)
    (stop : t.bc.stop = s.bc.stop) : WrittenOver s0 t := by
  obtain ⟨stop_s, lim_s, from_base, within, bytes⟩ := region
  obtain ⟨le, lim, within', bytes'⟩ := upTo
  refine ⟨stop.trans stop_s, (congrArg _ lim).trans lim_s, by omega, by omega, fun a outside => ?_⟩
  rw [bytes' a (by omega), bytes a (by omega)]

/-- `s` is the COMPRESS of `s0` after the symbols `l`: their code words are written. -/
structure CompressedBy (s0 : State) (l : List Byte) (s : State) : Prop where
  frame : s = s0.compressing l s.bc s.pl.icur s.mem
  icur : s.pl.icur.toNat = s0.regs.inBase.toNat + l.length
  ready : WriteReady s
  session : WriteSession s0.regs.outBase.toNat (symbolsBits s0.rm s0.est 0 l) s
  region : WrittenOver s0 s

/-- `t` is the COMPRESS of `s0` that learned the symbols `l` and could not store the next word of
the stream `bits`, `read` bytes read. -/
structure CompressStuck (s0 : State) (l : List Byte) (bits : List Bool) (read : Nat) (t : State) :
    Prop where
  frame : t = s0.compressing l t.bc t.pl.icur t.mem
  icur : t.pl.icur.toNat = s0.regs.inBase.toNat + read
  region : WrittenOver s0 t
  stuck : WriteStuck s0.regs.outBase.toNat bits (s0.regs.outCap.toNat / 4) t

section
variable {s0 s t : State} {l rest : List Byte} {c : Byte}

/-- The number of input bytes, as the list of them has it. -/
theorem length_inputSymbols (s : State) : (inputSymbols s).length = s.regs.inLen.toNat :=
  Memory.length_bytesFrom ..

/-- The code words written so far fit the output region. -/
theorem CompressedBy.length_lt (done : CompressedBy s0 l s) :
    (symbolsBits s0.rm s0.est 0 l).length < 32 * (s0.regs.outCap.toNat / 4 + 1) := by
  have cursor := done.session.cursor
  have within := done.region.within
  unfold outputEnd at within
  omega

/-- The byte at the input cursor is the next symbol, which no write has touched
(spec/20_memory.md R72). -/
theorem CompressedBy.nextSymbol_eq (done : CompressedBy s0 l s) (accepted : SessionAccepted s0)
    (input : l ++ c :: rest = inputSymbols s0) :
    s.pl.icur.toNat < inputEnd s0 ∧ nextSymbol s = c := by
  have length := congrArg List.length input
  rw [List.length_append, List.length_cons, length_inputSymbols] at length
  have icur := done.icur
  have inside : s.pl.icur.toNat < inputEnd s0 := by
    unfold inputEnd
    omega
  have apart := accepted.apart (a := s.pl.icur.toNat) (by omega) inside
  have within := done.region.within
  refine ⟨inside, ?_⟩
  have symbol : (inputSymbols s0).getD l.length 0 = c := by
    rw [← input, List.getD_append_right _ _ _ _ le_rfl, Nat.sub_self, List.getD_cons_zero]
  rw [inputSymbols_eq_bytesFrom, Memory.getD_bytesFrom _ _ (by omega), ← icur] at symbol
  rw [nextSymbol, done.region.bytes _ (by have := done.region.from_base; omega), symbol]

theorem compressSymbol_eq (inside : s.pl.icur.toNat < Config.addressSpace) : compressSymbol s =
    (greEncode s.est.k (nextRank s) s.byteRead).bind fun _ v =>
      learn (nextSymbol s) (nextRank s) v := by
  have read : memReadByte s.pl.icur.toNat s = .ok (nextSymbol s) s :=
    memReadByte_eq_ok.2 ⟨inside, rfl, rfl⟩
  rw [compressSymbol, read]
  rfl

/-- Reading the byte leaves the write session as it is. -/
theorem WrittenOver.byteRead (region : WrittenOver s0 s) : WrittenOver s0 s.byteRead :=
  region.trans (.of_same rfl rfl rfl) rfl

/-- Bits written, completed or not, change unit BC and memory alone. -/
theorem putBits_state {bits : List Bool}
    (put : putBits bits s = .ok () t ∨ putBits bits s = .raised t) :
    t = { s with bc := t.bc, mem := t.mem } := by
  rw [putBits_frame put]

/-- Bits written by COMPRESS, completed or not, go to the output region. -/
theorem WrittenOver.putBits (region : WrittenOver s0 s) {bits : List Bool}
    (put : putBits bits s = .ok () t ∨ putBits bits s = .raised t) : WrittenOver s0 t :=
  region.trans (putBits_storedUpTo put) (by rw [putBits_frame put])

/-- Bits that raise leave the words there is room for stored and the next one whole in the
accumulator. -/
theorem WriteSession.stuck_of_raised {bits more : List Bool}
    (session : WriteSession s0.regs.outBase.toNat bits s) (region : WrittenOver s0 s)
    (raised : putBits more s = .raised t) :
    WriteRefused s0.regs.outBase.toNat (bits ++ more) (s0.regs.outCap.toNat / 4) t := by
  obtain ⟨words, refused⟩ := session.putBits_raised raised
  have region := region.putBits (.inr raised)
  have words_eq := refused.stuck.words_eq region.lim region.within
  subst words_eq
  exact refused

/-! ## One symbol -/

/-- The stream of the session goes on from the code words of its first symbols. -/
theorem exists_sessionBits_append {read : List Byte} (input : read ++ rest = inputSymbols s0) :
    ∃ more, sessionBits s0.rm s0.est 0 (inputSymbols s0) =
      symbolsBits s0.rm s0.est 0 read ++ more := by
  rw [sessionBits_eq, ← input, symbolsBits_append, List.append_assoc]
  exact ⟨_, rfl⟩

/-- What learning a symbol makes of the session's state. -/
theorem State.compressing_learned (s : State) (l : List Byte) (c : Byte) (bc : Bc) (icur : WideAddr)
    (mem : Memory) :
    (s.compressing l bc icur mem).learned c
        ((s.compressing l bc icur mem).rm.rankOf (s.compressing l bc icur mem).pl.ctx c).toNat =
      s.compressing (l ++ [c]) bc icur mem := by
  unfold State.compressing
  rw [rmAfter_concat, estAfter_concat, contextAfter_concat]
  rfl

section
variable (done : CompressedBy s0 l s)
include done

theorem CompressedBy.ctx_eq : s.pl.ctx = l.getLastD 0 := congrArg (·.pl.ctx) done.frame

theorem CompressedBy.rm_eq : s.rm = rmAfter s0.rm 0 l := congrArg (·.rm) done.frame

theorem CompressedBy.est_eq : s.est = estAfter s0.rm s0.est 0 l := congrArg (·.est) done.frame

/-- Bits written after the byte was read, completed or not, change unit BC and memory. -/
theorem CompressedBy.written {bits : List Bool}
    (put : putBits bits s.byteRead = .ok () t ∨ putBits bits s.byteRead = .raised t) :
    t = s0.compressing l t.bc (s.pl.icur + 1) t.mem := by
  have frame := putBits_state put
  rw [State.byteRead, done.frame] at frame
  exact frame

/-- The code word of the next symbol under the present model. -/
theorem CompressedBy.symbolsBits_next (symbol : nextSymbol s = c) :
    symbolsBits s0.rm s0.est 0 (l ++ [c]) =
      symbolsBits s0.rm s0.est 0 l ++ codeWord s.est.k (nextRank s) := by
  rw [symbolsBits_concat, nextRank, symbol, done.est_eq, done.rm_eq, done.ctx_eq]

end

/-- A symbol of COMPRESS (spec/44_pipeline.md R198): coded and learned, or stopped at the first word
of its code word that there is no room for. -/
theorem CompressedBy.compressSymbol (done : CompressedBy s0 l s) (accepted : SessionAccepted s0)
    (counts : CountsHaveRoom s0.rm s0.regs.inLen.toNat)
    (input : l ++ c :: rest = inputSymbols s0) :
    (∃ t, compressSymbol s = .ok () t ∧ CompressedBy s0 (l ++ [c]) t) ∨
      ∃ t, compressSymbol s = .raised t ∧
        CompressStuck s0 l (sessionBits s0.rm s0.est 0 (inputSymbols s0)) (l.length + 1) t ∧
        32 * (s0.regs.outCap.toNat / 4 + 1) ≤ (symbolsBits s0.rm s0.est 0 (l ++ [c])).length := by
  have length : l.length + (rest.length + 1) = s0.regs.inLen.toNat := by
    rw [← length_inputSymbols, ← input]
    simp
  obtain ⟨inside, symbol⟩ := done.nextSymbol_eq accepted input
  have below := inside.trans_le accepted.input_inside
  have icur : (s.pl.icur + 1).toNat = s0.regs.inBase.toNat + (l.length + 1) := by
    rw [toNat_add_one below, done.icur, Nat.add_assoc]
  have session : WriteSession s0.regs.outBase.toNat (symbolsBits s0.rm s0.est 0 l) s.byteRead :=
    done.session.of_eq rfl rfl
  have region := done.region.byteRead
  have word := done.symbolsBits_next symbol
  rw [compressSymbol_eq below, greEncode_eq_putBits session.mode]
  rcases putBits_total (s := s.byteRead) done.ready (codeWord s.est.k (nextRank s)) with
    ⟨v, put, ready⟩ | ⟨v, raised⟩
  case inl =>
    have frame := done.written (.inl put)
    have rank : nextRank s = (v.rm.rankOf v.pl.ctx c).toNat := by
      rw [nextRank, symbol, done.frame, frame]
      rfl
    have room : CountsHaveRoom v.rm (rest.length + 1) := by
      rw [frame]
      exact CountsHaveRoom.rmAfter (by rwa [length]) 0
    have learnt : learn (nextSymbol s) (nextRank s) v =
        .ok () (v.learned c (v.rm.rankOf v.pl.ctx c).toNat) := by
      rw [rank, symbol]
      exact learn_eq_ok.2 ⟨room.freqAt_ne _ _, Nat.le_of_lt_succ (v.rm.rankOf _ _).isLt, rfl⟩
    have learned : v.learned c (v.rm.rankOf v.pl.ctx c).toNat =
        s0.compressing (l ++ [c]) v.bc (s.pl.icur + 1) v.mem := by
      rw [frame]
      exact State.compressing_learned ..
    refine .inl ⟨v.learned c (v.rm.rankOf v.pl.ctx c).toNat, by rw [put, Res.bind_ok, learnt],
      ?_, ?_, ready, ?_, ?_⟩
    · rw [learned]
      rfl
    · rw [frame, List.length_append]
      exact icur
    · rw [word]
      exact (session.after_putBits put).of_eq rfl rfl
    · exact (region.putBits (.inl put)).trans (.of_same rfl rfl rfl) rfl
  case inr =>
    have frame := done.written (.inr raised)
    have refused := session.stuck_of_raised region raised
    obtain ⟨more, total⟩ := exists_sessionBits_append (read := l ++ [c]) (by simpa using input)
    rw [← word] at refused
    refine .inr ⟨v, by rw [raised, Res.bind_raised], ⟨?_, ?_, region.putBits (.inr raised), ?_⟩,
      refused.long⟩
    · rw [frame]
      rfl
    · rw [frame]
      exact icur
    · rw [total]
      exact (refused.append more).stuck

/-! ## The ending -/

/-- `t` is the COMPRESS of `s0` with its stream written and its channel closed. -/
structure CompressClosed (s0 t : State) : Prop where
  frame : t = s0.compressing (inputSymbols s0) t.bc t.pl.icur t.mem
  icur : t.pl.icur.toNat = inputEnd s0
  closed : t.bc.mode = .closed ∧ t.bc.acc = 0 ∧ t.bc.fill = 0
  region : WrittenOver s0 t
  stored : StreamStored s0.regs.outBase.toNat (sessionBits s0.rm s0.est 0 (inputSymbols s0)) t

/-- The ending of COMPRESS (spec/44_pipeline.md R198): completed, or stopped at the first word there
is no room for. -/
theorem CompressedBy.compressFinish (done : CompressedBy s0 (inputSymbols s0) s) :
    (∃ t, compressFinish s = .ok () (finishSession t.bc.cursor t.pl.icur t) ∧
        CompressClosed s0 t) ∨
      ∃ t, compressFinish s = .raised t ∧
        CompressStuck s0 (inputSymbols s0) (sessionBits s0.rm s0.est 0 (inputSymbols s0))
          s0.regs.inLen.toNat t := by
  have total : sessionBits s0.rm s0.est 0 (inputSymbols s0) =
      symbolsBits s0.rm s0.est 0 (inputSymbols s0) ++ codeWord s.est.k Config.eosValue := by
    rw [sessionBits_eq, done.est_eq]
  have icur := done.icur
  rw [length_inputSymbols] at icur
  rw [total]
  unfold Machine.compressFinish
  rw [greEncode_eq_putBits done.session.mode]
  rcases putBits_total done.ready (codeWord s.est.k Config.eosValue) with
    ⟨v, put, ready⟩ | ⟨v, raised⟩
  case inr =>
    have frame := putBits_state (.inr raised)
    rw [done.frame] at frame
    refine .inr ⟨v, by rw [raised, Res.bind_raised], ?_, ?_, done.region.putBits (.inr raised),
      (done.session.stuck_of_raised done.region raised).stuck⟩
    · rw [frame]
      rfl
    · rw [frame]
      exact icur
  have frame := putBits_state (.inl put)
  rw [done.frame] at frame
  have icur_v : v.pl.icur.toNat = inputEnd s0 := by
    rw [frame]
    exact icur
  have session := done.session.after_putBits put
  have region := done.region.putBits (.inl put)
  rw [put, Res.bind_ok]
  rcases closeWrite_total ready with ⟨t, closed⟩ | raised
  case inr =>
    obtain ⟨-, stuck⟩ := session.close_stuck raised
    have words := stuck.words_eq region.lim region.within
    rw [words] at stuck
    refine .inr ⟨v, by rw [raised, Res.bind_raised], ?_, icur_v, region, stuck⟩
    rw [frame]
    rfl
  obtain ⟨bc, frame_t⟩ := closeWrite_closed ready closed
  rw [frame] at frame_t
  refine .inl ⟨t, by rw [closed, Res.bind_ok], ?_, ?_, ⟨by rw [bc], by rw [bc], by rw [bc]⟩,
    region.trans (closeWrite_storedUpTo closed) (by rw [bc]), ?_⟩
  · rw [frame_t]
    rfl
  · rw [frame_t]
    exact icur
  · rw [StreamStored, total]
    exact session.after_close closed

/-! ## The whole run -/

/-- `t` is the COMPRESS of `s0` stopped for want of room, the first `n` symbols learned. -/
structure CompressStopped (s0 : State) (n : Nat) (t : State) : Prop where
  le : n ≤ s0.regs.inLen.toNat
  fits : (symbolsBits s0.rm s0.est 0 ((inputSymbols s0).take n)).length <
    32 * (s0.regs.outCap.toNat / 4 + 1)
  exceeds : n < s0.regs.inLen.toNat → 32 * (s0.regs.outCap.toNat / 4 + 1) ≤
    (symbolsBits s0.rm s0.est 0 ((inputSymbols s0).take (n + 1))).length
  stuck : CompressStuck s0 ((inputSymbols s0).take n)
    (sessionBits s0.rm s0.est 0 (inputSymbols s0)) (min (n + 1) s0.regs.inLen.toNat) t

/-- The two ends of a COMPRESS of `s0` (spec/44_pipeline.md R201). -/
def CompressEnds (s0 : State) (r : Host.Outcome State Fault Refusal) : Prop :=
  (∃ t, r = .next (finishSession t.bc.cursor t.pl.icur t) ∧ CompressClosed s0 t) ∨
    ∃ t n, r = .next (takeFault .bufferTooSmall t) ∧ CompressStopped s0 n t

theorem CompressedBy.engineStep_eq (done : CompressedBy s0 l s) : engineStep s =
    settle (if s.pl.icur.toNat < inputEnd s then Machine.compressSymbol s
      else Machine.compressFinish s) := by
  rw [done.frame]
  rfl

theorem CompressedBy.running (done : CompressedBy s0 l s) : s.pl.state = .running :=
  congrArg (·.pl.state) done.frame

theorem CompressedBy.inputEnd_eq (done : CompressedBy s0 l s) : inputEnd s = inputEnd s0 := by
  rw [done.frame]
  rfl

/-- An engine whose step raised is over once the fault is taken (spec/60_exceptions.md R222). -/
theorem engineRun_settle_raised {r : Res Unit} {fuel : Nat} (running : s.pl.state = .running)
    (step : engineStep s = settle r) (raised : r = .raised t) :
    engineRun (fuel + 1) s = .next (takeFault .bufferTooSmall t) := by
  rw [engineRun_running running (by rw [step, raised]; rfl)]
  exact engineRun_stopped (PlState.noConfusion ·)

theorem CompressedBy.engineRun (done : CompressedBy s0 l s) (accepted : SessionAccepted s0)
    (counts : CountsHaveRoom s0.rm s0.regs.inLen.toNat) (input : l ++ rest = inputSymbols s0)
    {fuel : Nat} (enough : rest.length < fuel) : CompressEnds s0 (engineRun fuel s) := by
  obtain ⟨fuel, rfl⟩ := Nat.exists_eq_add_one.2 (Nat.zero_lt_of_lt enough)
  have length := congrArg List.length input
  rw [List.length_append, length_inputSymbols] at length
  have icur := done.icur
  induction rest generalizing l s fuel with
  | nil =>
    rw [List.append_nil] at input
    subst input
    have step := done.engineStep_eq
    rw [List.length_nil, Nat.add_zero] at length
    rw [done.inputEnd_eq, if_neg (by unfold inputEnd; omega)] at step
    have all := List.take_length (l := inputSymbols s0)
    rw [length] at all
    rcases done.compressFinish with ⟨t, finished, closed⟩ | ⟨t, raised, stuck⟩
    · refine .inl ⟨t, ?_, closed⟩
      rw [engineRun_settle_ok done.running step finished]
      exact engineRun_stopped (PlState.noConfusion ·)
    · refine .inr ⟨t, s0.regs.inLen.toNat, engineRun_settle_raised done.running step raised, le_rfl,
        ?_, fun before => absurd before (Nat.lt_irrefl _), ?_⟩
      · rw [all]
        exact done.length_lt
      · rwa [all, Nat.min_eq_right (Nat.le_succ _)]
  | cons c rest ih =>
    rw [List.length_cons] at length
    have step := done.engineStep_eq
    rw [done.inputEnd_eq, if_pos (by unfold inputEnd; omega)] at step
    rcases done.compressSymbol accepted counts input with
      ⟨t, coded, done_t⟩ | ⟨t, raised, stuck, long⟩
    · obtain ⟨fuel, rfl⟩ :=
        Nat.exists_eq_add_one.2 (Nat.zero_lt_of_lt (Nat.lt_of_succ_lt_succ enough))
      rw [engineRun_settle_ok done.running step coded]
      exact ih done_t (by simpa using input) fuel (Nat.lt_of_succ_lt_succ enough)
        (by rw [List.length_append, List.length_singleton]; omega) done_t.icur
    · have first : (inputSymbols s0).take l.length = l := by rw [← input, List.take_left]
      have next : (inputSymbols s0).take (l.length + 1) = l ++ [c] := by
        rw [← input, List.append_cons]
        exact List.take_left' (by simp)
      refine .inr ⟨t, l.length, engineRun_settle_raised done.running step raised, by omega, ?_,
        fun _ => ?_, ?_⟩
      · rw [first]
        exact done.length_lt
      · rwa [next]
      · rwa [first, Nat.min_eq_left (by omega)]

/-- The opening of COMPRESS leaves nothing coded (spec/44_pipeline.md R198). -/
theorem compressStart_compressedBy (accepted : SessionAccepted s)
    (aligned : s.regs.outBase.toNat % 4 = 0) :
    ∃ t, compressStart (acceptCommand .compress s) = .ok () t ∧ CompressedBy s [] t := by
  have lim := toNat_outputEnd accepted
  have base_le : s.regs.outBase.toNat ≤ outputEnd s := Nat.le_add_right ..
  have opened (u : State) : openWrite s.regs.outBase (BitVec.ofNat 33 (outputEnd s)) u =
      .ok () (u.setBc (bcOpenedWrite s.regs.outBase (BitVec.ofNat 33 (outputEnd s)) u.bc)) :=
    openWrite_eq_ok.2 ⟨aligned, by omega, rfl⟩
  have ready := openWrite_writeReady (opened s) (lim.trans_le accepted.output_inside)
  have session := WriteSession.of_openWrite (opened s)
  have cursor := session.cursor
  refine ⟨s.compressing [] (bcOpenedWrite s.regs.outBase (BitVec.ofNat 33 (outputEnd s)) s.bc)
    (s.regs.inBase.setWidth 33) s.mem, Res.bind_eq_ok.2 ⟨(), _, opened _, rfl⟩, rfl, ?_, ready,
    session.of_eq rfl rfl, ⟨rfl, lim, cursor.ge, .inl cursor, fun _ _ => rfl⟩⟩
  exact BitVec.toNat_setWidth_of_le (by decide)

theorem exec_compress_ends (idle : s.pl.state ≠ .running) (accepted : SessionAccepted s)
    (aligned : s.regs.outBase.toNat % 4 = 0) (counts : CountsHaveRoom s.rm s.regs.inLen.toNat) :
    CompressEnds s (exec .compress s) := by
  have passed : acceptanceFault .compress s = none :=
    sessionCheck_eq_none.2 ⟨accepted, by simpa [baseMisaligned] using aligned⟩
  obtain ⟨t, started, done⟩ := compressStart_compressedBy accepted aligned
  rw [exec_compress, runCommand_accepted idle passed, commandBound,
    engineRun_settle_ok (acceptCommand_state ..) rfl started]
  exact done.engineRun accepted counts (List.nil_append _) (by rw [length_inputSymbols]; omega)

end

/-! ## The obligations -/

section
variable (s : State) (l : List Byte) (bc : Bc) (icur : WideAddr) (mem : Memory)

/-- The results of a completed COMPRESS (spec/44_pipeline.md R198). -/
theorem State.finishSession_compressing :
    finishSession bc.cursor icur (s.compressing l bc icur mem) = { s with
      bc := bc, rm := rmAfter s.rm 0 l, est := estAfter s.rm s.est 0 l
      pl := { s.pl with
        state := .done, op := .compress, err := 0, ctx := contextAfter l, icur := icur }
      regs := { s.regs with outEnd := bc.cur, inCur := icur.setWidth 32 }
      mem := mem, prog := .looping } := by
  rw [finishSession, Bc.cursor_setWidth]
  rfl

/-- The results of a COMPRESS that raised (spec/60_exceptions.md R222). -/
theorem State.takeFault_compressing :
    takeFault .bufferTooSmall (s.compressing l bc icur mem) = { s with
      bc := bc, rm := rmAfter s.rm 0 l, est := estAfter s.rm s.est 0 l
      pl := { s.pl with
        state := .faulted, op := .compress, err := 4, ctx := contextAfter l, icur := icur }
      regs := { s.regs with outEnd := bc.cur, inCur := icur.setWidth 32 }
      mem := mem, prog := .looping } := by
  rw [← Bc.cursor_setWidth]
  rfl

end

/-- A channel that kept the end of its read region. -/
theorem Bc.eq_of_stop {b c : Bc} (stop : c.stop = b.stop) : c = { b with
    mode := c.mode, cur := c.cur, carry := c.carry, lim := c.lim, acc := c.acc,
    fill := c.fill } := by
  rw [← stop]

/-- Settles O42: a COMPRESS that stops for want of room has more words to store than the region
holds. -/
theorem compressWritesTheSessionStream : Obligations.CompressWritesTheSessionStream := by
  rintro s bits idle accepted aligned counts rfl fits
  rcases exec_compress_ends idle accepted aligned counts with ⟨u, ran, closed⟩ | ⟨u, n, -, stopped⟩
  case inr =>
    have short := stopped.stuck.stuck.short
    unfold streamWords at fits
    omega
  obtain ⟨frame, icur, ⟨mode, acc, fill⟩, region, cursor, stored⟩ := closed
  have bc : u.bc = { s.bc with
      mode := .closed, cur := u.bc.cur, carry := u.bc.carry, lim := u.bc.lim, acc := 0,
      fill := 0 } := by
    rw [← mode, ← acc, ← fill]
    exact Bc.eq_of_stop region.stop
  have ended : finishSession u.bc.cursor u.pl.icur u = _ :=
    (congrArg (finishSession u.bc.cursor u.pl.icur) frame).trans
      (s.finishSession_compressing (inputSymbols s) u.bc u.pl.icur u.mem)
  rw [bc] at ended
  exact ⟨_, ran, ended, cursor, region.lim, icur, fun w i w_lt i_lt => stored w w_lt i i_lt,
    fun a outside => region.bytes a (by rwa [cursor])⟩

/-- Settles O43: the symbols coded before the refused write fit, the next one's code word does not.
-/
theorem compressWithoutRoomFaults : Obligations.CompressWithoutRoomFaults := by
  rintro s bits words idle accepted aligned counts rfl rfl full
  rcases exec_compress_ends idle accepted aligned counts with ⟨u, -, closed⟩ | ⟨u, n, ran, stopped⟩
  case inl =>
    have cursor := closed.stored.left
    have within := closed.region.within
    unfold outputEnd at within
    omega
  obtain ⟨n_le, fits, exceeds, frame, icur, region, stuck⟩ := stopped
  have bc : u.bc = { s.bc with
      mode := .write, cur := u.bc.cur, carry := u.bc.carry, lim := u.bc.lim, acc := u.bc.acc,
      fill := u.bc.fill } := by
    rw [← stuck.mode]
    exact Bc.eq_of_stop region.stop
  have ended : takeFault .bufferTooSmall u = _ :=
    (congrArg (takeFault .bufferTooSmall) frame).trans
      (s.takeFault_compressing ((inputSymbols s).take n) u.bc u.pl.icur u.mem)
  rw [bc] at ended
  exact ⟨_, n, ran, n_le, fits, exceeds, ended, stuck.cursor, region.lim, stuck.fill,
    stuck.acc.toNat_eq, icur, fun w i w_lt i_lt => stuck.stored w w_lt i i_lt,
    fun a outside => region.bytes a (by rwa [stuck.cursor])⟩

/-- Under `k = 0` a code word takes one bit more than its value, else the quotient is halved
(spec/70_reset_and_hazards.md R251). -/
theorem length_codeWord_le (k : BitVec 5) {value : Nat} (value_le : value ≤ 256) :
    (codeWord k value).length ≤ value + 1 ∨ (codeWord k value).length ≤ 160 := by
  rw [length_codeWord]
  rcases Nat.eq_zero_or_pos k.toNat with zero | pos
  · left
    simp [zero]
  · right
    have half : value / 2 ^ k.toNat ≤ value / 2 :=
      Nat.div_le_div_left (Nat.le_self_pow (by omega) 2) (by decide)
    omega

theorem length_symbolsBits_le (m : Rm) (e : Est) (x : Byte) (l : List Byte) :
    (symbolsBits m e x l).length ≤ 256 * l.length := by
  induction l generalizing m e x with
  | nil => rfl
  | cons c l ih =>
    have rest := ih (observed m x c) (estUpdated e (m.rankOf x c).toNat) c
    have rank_lt := (m.rankOf x c).isLt
    have word := length_codeWord_le e.k (value := (m.rankOf x c).toNat) (by omega)
    rw [symbolsBits_cons, List.length_append, List.length_cons]
    omega

/-- Settles O44: no code word is longer than eight words, so the stream fits the region. -/
theorem compressWithTheSafeCapacityCompletes :
    Obligations.CompressWithTheSafeCapacityCompletes := by
  intro s idle accepted aligned counts safe
  have symbols := length_symbolsBits_le s.rm s.est 0 (inputSymbols s)
  have marker := length_codeWord_le (estAfter s.rm s.est 0 (inputSymbols s)).k
    (value := Config.eosValue) le_rfl
  have total := congrArg List.length (sessionBits_eq s.rm s.est 0 (inputSymbols s))
  have eos : Config.eosValue = 256 := rfl
  rw [List.length_append] at total
  rw [length_inputSymbols] at symbols
  have fits : 4 * streamWords (sessionBits s.rm s.est 0 (inputSymbols s)).length ≤
      s.regs.outCap.toNat := by
    unfold streamWords
    omega
  obtain ⟨t, ran, ended, -⟩ :=
    compressWritesTheSessionStream s _ idle accepted aligned counts rfl fits
  exact ⟨t, ran, by rw [ended], by rw [ended]⟩

end Sys2Proof.Machine
end

section
/-! PROOFS. DECOMPRESS to its end (spec/44_pipeline.md R199, R203): after each symbol the state is a
function of the symbols stored and of the number of bits consumed, whatever the input holds. -/

namespace Sys2Proof.Machine

/-! ## A code word of whatever comes next -/

/-- Bits are the field of their own value. -/
theorem fieldBits_bitsValue (bits : List Bool) :
    fieldBits (bitsValue bits) bits.length = bits := by
  rw [fieldBits_eq_map]
  refine List.ext_getElem (by simp) fun j _ j_lt => ?_
  simp [testBit_bitsValue, j_lt]

/-- The code word with the given quotient and remainder bits. -/
theorem codeWord_of_parts (k : BitVec 5) (q : Nat) {bits : List Bool}
    (length : bits.length = k.toNat) :
    codeWord k (q * 2 ^ k.toNat + bitsValue bits) = zeroBits q ++ ([true] ++ bits) := by
  have remainder_lt : bitsValue bits < 2 ^ k.toNat := length ▸ bitsValue_lt bits
  have quotient : (q * 2 ^ k.toNat + bitsValue bits) / 2 ^ k.toNat = q := by
    rw [Nat.mul_comm, Nat.mul_add_div (by positivity), Nat.div_eq_of_lt remainder_lt, Nat.add_zero]
  have remainder : (q * 2 ^ k.toNat + bitsValue bits) % 2 ^ k.toNat = bitsValue bits := by
    rw [Nat.mul_add_mod_self_right, Nat.mod_eq_of_lt remainder_lt]
  rw [codeWord, riceQuotient, riceRemainder, quotient, remainder, ← length, fieldBits_bitsValue]
  rfl

section
variable {s : State}

/-- Whatever comes next starts with the code word of some value (spec/42_golomb_rice.md R175). -/
theorem exists_codeWord_upcoming (s : State) (k : BitVec 5) :
    ∃ value, upcomingBits s 0 (codeWord k value).length = codeWord k value := by
  obtain ⟨q, zeros, one, -⟩ := exists_first_one s
  have word := codeWord_of_parts k q (length_upcomingBits s (q + 1) k.toNat)
  refine ⟨q * 2 ^ k.toNat + bitsValue (upcomingBits s (q + 1) k.toNat), ?_⟩
  rw [word, upcomingBits_eq_append_iff, upcomingBits_eq_append_iff, length_zeroBits, Nat.zero_add,
    List.length_singleton, length_upcomingBits]
  refine ⟨?_, by simp [upcomingBits, one], rfl⟩
  refine List.ext_getElem (by simp) fun j j_lt _ => ?_
  have before : j < q := by simpa using j_lt
  simp [upcomingBits, zeroBits, zeros j before]

end

/-! ## One more byte of a region -/

theorem Memory.setBytes_concat (m : Memory) (a : Nat) (bytes : List Byte) (c : Byte) :
    m.setBytes a (bytes ++ [c]) = (m.setBytes a bytes).setByte (a + bytes.length) c := by
  induction bytes generalizing m a with
  | nil => rfl
  | cons b rest ih =>
    rw [List.cons_append, Memory.setBytes, ih, List.length_cons, Nat.add_right_comm, Nat.add_assoc]
    rfl

/-! ## The state after some symbols -/

/-- A DECOMPRESS of `s` that has stored the symbols `l`, with what it has made of units EST and BC
and of the output cursor. -/
def State.decompressing (s : State) (l : List Byte) (est : Est) (bc : Bc) (ocur : WideAddr) :
    State :=
  { s with
    bc := bc, rm := rmAfter s.rm 0 l, est := est
    pl := { s.pl with
      state := .running, op := .decompress, err := 0, ctx := contextAfter l, ocur := ocur }
    mem := s.mem.setBytes s.regs.outBase.toNat l, prog := .looping }

/-- The bit number `j` of the read region of `s`, then the sentinel's. -/
def State.inputBit (s : State) (j : Nat) : Bool :=
  sessionBit s.mem s.regs.inBase.toNat (readRegionEnd s) j

/-- `s` is the DECOMPRESS of `s0` after storing the symbols `l` and consuming `n` bits. -/
structure DecompressedTo (s0 : State) (l : List Byte) (n : Nat) (s : State) : Prop where
  frame : s = s0.decompressing l s.est s.bc s.pl.ocur
  ocur : s.pl.ocur.toNat = s0.regs.outBase.toNat + l.length
  fits : l.length ≤ s0.regs.outCap.toNat
  ready : ReadReady s
  lim : s.bc.lim = s0.bc.lim
  stop : s.bc.stop.toNat = readRegionEnd s0
  cursor : s.bc.cursor.toNat =
    s0.regs.inBase.toNat + 4 * min (s0.regs.inLen.toNat / 4) (n / 32 + 1)
  fill : s.bc.fill.toNat = n % 32
  upcoming : ∀ j, upcomingBit s j = s0.inputBit (n + j)

section
variable {s0 s t : State} {l rest : List Byte} {c : Byte} {n : Nat}

section
variable (done : DecompressedTo s0 l n s)
include done

theorem DecompressedTo.running : s.pl.state = .running := congrArg (·.pl.state) done.frame

theorem DecompressedTo.rm_eq : s.rm = rmAfter s0.rm 0 l := congrArg (·.rm) done.frame

theorem DecompressedTo.ctx_eq : s.pl.ctx = l.getLastD 0 := congrArg (·.pl.ctx) done.frame

theorem DecompressedTo.outputEnd_eq : outputEnd s = outputEnd s0 := by
  rw [done.frame]
  rfl

theorem DecompressedTo.step : engineStep s = settle (decompressSymbol s) := by
  rw [done.frame]
  rfl

/-- Reading on. -/
theorem DecompressedTo.consumed (m : Nat) : DecompressedTo s0 l (n + m) (s.consumed m) := by
  obtain ⟨frame, ocur, fits, ready, lim, stop, cursor, fill, upcoming⟩ := done
  refine ⟨?_, ocur, fits, ready.consumed m, (consumedBc_lim s m).trans lim,
    (congrArg BitVec.toNat (consumedBc_stop s m)).trans stop, ?_, ?_, fun j => ?_⟩
  · rw [frame]
    rfl
  · rw [State.consumed, State.setBc_bc, consumedBc_cursor_toNat, wordsLoaded, wordsReloaded, cursor,
      fill, stop]
    unfold readRegionEnd
    omega
  · rw [State.consumed, State.setBc_bc, consumedBc_fill_toNat, fill]
    omega
  · rw [upcomingBit_consumed ready, upcoming, Nat.add_assoc]

/-- The output region has nothing that is still to be read (spec/20_memory.md R72). -/
theorem DecompressedTo.ocur_apart (accepted : SessionAccepted s0)
    (room : l.length < s0.regs.outCap.toNat) :
    s.pl.ocur.toNat < s.bc.cursor.toNat ∨ s.bc.stop.toNat ≤ s.pl.ocur.toNat := by
  have ocur := done.ocur
  have stop := done.stop
  have cursor := done.cursor
  have read_le := readRegionEnd_le_inputEnd s0
  by_contra between
  have apart := accepted.apart (a := s.pl.ocur.toNat) (by omega) (by omega)
  unfold outputEnd at apart
  omega

/-- One more symbol stored and learned. -/
theorem DecompressedTo.stored (accepted : SessionAccepted s0)
    (room : l.length < s0.regs.outCap.toNat) (c : Byte) (d : Nat) :
    DecompressedTo s0 (l ++ [c]) n ((s.emitted c).learned c d) := by
  have apart := done.ocur_apart accepted room
  have below : s.pl.ocur.toNat < 2 ^ 32 := by
    have inside : outputEnd s0 ≤ 2 ^ 32 := accepted.output_inside
    have ocur := done.ocur
    unfold outputEnd at inside
    omega
  obtain ⟨frame, ocur, fits, ready, lim, stop, cursor, fill, upcoming⟩ := done
  refine ⟨?_, ?_, ?_, ready, lim, stop, cursor, fill, fun j => ?_⟩
  · have memory : s.mem.setByte s.pl.ocur.toNat c =
        s0.mem.setBytes s0.regs.outBase.toNat (l ++ [c]) := by
      rw [Memory.setBytes_concat, ocur, frame]
      rfl
    have tables : observed s.rm s.pl.ctx c = rmAfter s0.rm 0 (l ++ [c]) := by
      rw [rmAfter_concat, frame]
      rfl
    rw [State.decompressing, ← memory, ← tables, contextAfter_concat]
    rw [frame]
    rfl
  · rw [List.length_append, List.length_singleton, ← Nat.add_assoc, ← ocur]
    exact toNat_add_one below
  · rw [List.length_append, List.length_singleton]
    omega
  · have bit := upcomingBits_learned_emitted (c := c) (d := d) apart j 1
    rw [← upcoming j]
    simpa [upcomingBits] using bit

/-- The code word that comes next, as bits of the input. -/
theorem DecompressedTo.inputBit_eq {word : List Bool}
    (upcoming : upcomingBits s 0 word.length = word) {j : Nat} (j_lt : j < word.length) :
    s0.inputBit (n + j) = word.getD j false := by
  rw [← done.upcoming, ← upcoming]
  simp [upcomingBits, j_lt]

end

/-! ## One code word -/

section
variable {d m : Nat}

/-- A rank value there is room for is stored as the symbol of its rank and learned
(spec/44_pipeline.md R199). -/
theorem emitSymbol_room (d_lt : d < 256)
    (not_full : (s.rm.freqAt s.pl.ctx (s.rm.symAt s.pl.ctx (BitVec.ofNat 8 d))).toNat ≠ 4294967295)
    (room : s.pl.ocur.toNat + 1 ≤ outputEnd s) (inside : outputEnd s ≤ Config.addressSpace) :
    emitSymbol d s = .ok () ((s.emitted (s.rm.symAt s.pl.ctx (BitVec.ofNat 8 d))).learned
      (s.rm.symAt s.pl.ctx (BitVec.ofNat 8 d)) d) := by
  have stored : memWriteByte s.pl.ocur.toNat (symbolAt s.pl.ctx (BitVec.ofNat 8 d) s) s =
      .ok () (s.setMem (s.mem.setByte s.pl.ocur.toNat (symbolAt s.pl.ctx (BitVec.ofNat 8 d) s))) :=
    memWriteByte_eq_ok.2 ⟨by omega, rfl⟩
  simp only [emitSymbol, if_neg (Nat.not_lt.2 room), stored, Res.bind_ok]
  exact learn_eq_ok.2 ⟨not_full, Nat.le_of_lt_succ d_lt, rfl⟩

theorem emitSymbol_full (full : outputEnd s < s.pl.ocur.toNat + 1) : emitSymbol d s = .raised s :=
  if_pos full

/-- A value of 256 or more ends the session, a smaller one is a rank (spec/44_pipeline.md R199). -/
theorem decompressSymbol_of_marker (decoded : grdDecode s.est.k s = .ok d t) (marker : 256 ≤ d) :
    decompressSymbol s = decompressFinish t := by
  rw [decompressSymbol, decoded, Res.bind_ok]
  exact if_pos marker

theorem decompressSymbol_of_rank (decoded : grdDecode s.est.k s = .ok d t) (d_lt : d < 256) :
    decompressSymbol s = emitSymbol d t := by
  rw [decompressSymbol, decoded, Res.bind_ok]
  exact if_neg (Nat.not_le.2 d_lt)

variable (done : DecompressedTo s0 l n s) (decoded : grdDecode s.est.k s = .ok d (s.consumed m))
include done decoded

/-- A value of 256 or more ends the session (spec/44_pipeline.md R199). -/
theorem DecompressedTo.finish (marker : 256 ≤ d) :
    decompressSymbol s = .ok () (finishSession (s.consumed m).pl.ocur (s.consumed m).bc.cursor
      ((s.consumed m).setBc (bcClosed (s.consumed m).bc))) := by
  rw [decompressSymbol_of_marker decoded marker, decompressFinish, closeRead,
    inMode_pos _ (done.consumed m).ready.left]
  rfl

/-- A symbol there is room for (spec/44_pipeline.md R199). -/
theorem DecompressedTo.symbol (accepted : SessionAccepted s0) (d_lt : d < 256)
    (room : l.length < s0.regs.outCap.toNat) (counts : CountsHaveRoom s.rm 1) :
    ∃ t, decompressSymbol s = .ok () t ∧
      DecompressedTo s0 (l ++ [s.rm.symAt s.pl.ctx (BitVec.ofNat 8 d)]) (n + m) t ∧
      t.est = estUpdated s.est d := by
  have done' := done.consumed m
  have ocur := done'.ocur
  have output_end := done'.outputEnd_eq
  have emitted := emitSymbol_room (s := s.consumed m) d_lt (counts.freqAt_ne _ _)
    (by rw [output_end, ocur]; unfold outputEnd; omega) (output_end.trans_le accepted.output_inside)
  refine ⟨_, ?_, done'.stored accepted room _ d, rfl⟩
  rw [decompressSymbol_of_rank decoded d_lt, emitted]
  rfl

/-- A symbol the output region has no byte left for (spec/60_exceptions.md R220). -/
theorem DecompressedTo.full (d_lt : d < 256) (full : l.length = s0.regs.outCap.toNat) :
    decompressSymbol s = .raised (s.consumed m) := by
  have done' := done.consumed m
  have ocur := done'.ocur
  rw [decompressSymbol_of_rank decoded d_lt]
  refine emitSymbol_full ?_
  rw [done'.outputEnd_eq, ocur, full]
  exact Nat.lt_succ_self _

end

/-! ## The opening and the end -/

/-- The opening stores nothing and consumes nothing (spec/44_pipeline.md R199). -/
theorem decompressStart_decompressedTo (accepted : SessionAccepted s)
    (aligned : s.regs.inBase.toNat % 4 = 0) :
    ∃ t, decompressStart (acceptCommand .decompress s) = .ok () t ∧ DecompressedTo s [] 0 t ∧
      t.est = s.est := by
  obtain ⟨t, started, session, frame⟩ := decompressStart_accepted accepted aligned
  have lim : t.bc.lim = s.bc.lim := by
    obtain ⟨_, u, opened, ended⟩ := Res.bind_eq_ok.1 started
    obtain ⟨-, reloaded⟩ := openRead_eq_ok.1 opened
    cases ended
    rw [reload_frame reloaded]
    rfl
  refine ⟨t, started, ⟨?_, ?_, Nat.zero_le _, session.ready, lim, session.stop_eq, ?_, session.fill,
    fun j => ?_⟩, by rw [frame]⟩
  · rw [frame]
    rfl
  · rw [frame]
    exact BitVec.toNat_setWidth_of_le (by decide)
  · rw [session.cursor]
    unfold readRegionEnd
    omega
  · rw [session.upcomingBit_eq, Nat.zero_add]
    rfl

/-- The ends of a DECOMPRESS of `s0` whose last code word has the value `last`: `t` is the state
with that code word consumed, `n` bits in all. -/
structure DecompressEnds (s0 : State) (l : List Byte) (n last : Nat) (t : State)
    (r : Host.Outcome State Fault Refusal) : Prop where
  stopped : DecompressedTo s0 l n t
  ends : 256 ≤ last ∧
      r = .next (finishSession t.pl.ocur t.bc.cursor (t.setBc (bcClosed t.bc))) ∨
    last < 256 ∧ l.length = s0.regs.outCap.toNat ∧ r = .next (takeFault .bufferTooSmall t)

theorem exec_decompress_started (idle : s.pl.state ≠ .running) (accepted : SessionAccepted s)
    (aligned : s.regs.inBase.toNat % 4 = 0)
    (started : decompressStart (acceptCommand .decompress s) = .ok () t) :
    exec .decompress s = engineRun (s.regs.inLen.toNat + s.regs.outCap.toNat + 2) t := by
  have passed : acceptanceFault .decompress s = none :=
    sessionCheck_eq_none.2 ⟨accepted, by simpa [baseMisaligned] using aligned⟩
  rw [exec_decompress, runCommand_accepted idle passed, commandBound,
    engineRun_settle_ok (acceptCommand_state ..) rfl started]

/-! ## A stream -/

/-- What the next symbol's state has learned. -/
theorem DecompressedTo.after_symbol (done : DecompressedTo s0 l n s) {t : State} {m : Nat}
    (next : DecompressedTo s0 (l ++ [c]) (n + m) t) :
    t.rm = observed s.rm s.pl.ctx c ∧ t.pl.ctx = c ∧
      ∀ len, upcomingBits t 0 len = upcomingBits s m len := by
  refine ⟨?_, ?_, fun len => ?_⟩
  · rw [next.rm_eq, rmAfter_concat, done.rm_eq, done.ctx_eq]
  · rw [next.ctx_eq]
    exact contextAfter_concat c l
  · simp only [upcomingBits, next.upcoming, done.upcoming, Nat.zero_add, Nat.add_assoc]

/-- Over the stream of `rest` the symbols are stored one after another, and the marker ends the
session. -/
theorem DecompressedTo.engineRun_stream (done : DecompressedTo s0 l n s)
    (accepted : SessionAccepted s0) (inverses : MutualInverses s.rm)
    (counts : CountsHaveRoom s.rm rest.length)
    (room : l.length + rest.length ≤ s0.regs.outCap.toNat)
    (upcoming : upcomingBits s 0 (sessionBits s.rm s.est s.pl.ctx rest).length =
      sessionBits s.rm s.est s.pl.ctx rest)
    {fuel : Nat} (enough : rest.length < fuel) :
    ∃ t, DecompressEnds s0 (l ++ rest) (n + (sessionBits s.rm s.est s.pl.ctx rest).length) 256 t
        (engineRun fuel s) ∧
      t.est = estAfter s.rm s.est s.pl.ctx rest := by
  obtain ⟨fuel, rfl⟩ := Nat.exists_eq_add_one.2 (Nat.zero_lt_of_lt enough)
  induction rest generalizing l s n fuel with
  | nil =>
    have finished := done.finish (grdDecode_codeWord done.ready upcoming) le_rfl
    refine ⟨s.consumed (codeWord s.est.k Config.eosValue).length, ⟨?_, .inl ⟨le_rfl, ?_⟩⟩, rfl⟩
    · rw [List.append_nil]
      exact done.consumed _
    · rw [engineRun_settle_ok done.running done.step finished]
      exact engineRun_stopped (PlState.noConfusion ·)
  | cons c rest ih =>
    rw [sessionBits, upcomingBits_eq_append_iff, Nat.zero_add] at upcoming
    obtain ⟨word, upcoming⟩ := upcoming
    have symbol : s.rm.symAt s.pl.ctx (BitVec.ofNat 8 (s.rm.rankOf s.pl.ctx c).toNat) = c := by
      rw [BitVec.ofNat_toNat, BitVec.setWidth_eq]
      exact inverses.symAt_rankOf s.pl.ctx c
    rw [List.length_cons] at room counts enough
    have counts_one : CountsHaveRoom s.rm 1 := fun x sym => by have := counts x sym; omega
    obtain ⟨t, decoded, next, est⟩ := done.symbol (grdDecode_codeWord done.ready word) accepted
      (s.rm.rankOf s.pl.ctx c).isLt (by omega) counts_one
    rw [symbol] at next
    obtain ⟨rm, ctx, ahead⟩ := done.after_symbol next
    obtain ⟨fuel, rfl⟩ :=
      Nat.exists_eq_add_one.2 (Nat.zero_lt_of_lt (Nat.lt_of_succ_lt_succ enough))
    rw [← rm, ← est] at upcoming
    obtain ⟨u, ends, est_u⟩ := ih next (by rw [rm]; exact observed_mutualInverses inverses _ c)
      (by rw [rm]; exact counts.observed _ c)
      (by rw [List.length_append, List.length_singleton]; omega)
      (by rw [ctx, ahead]; exact upcoming) fuel (Nat.lt_of_succ_lt_succ enough)
    refine ⟨u, ?_, ?_⟩
    · rw [engineRun_settle_ok done.running done.step decoded, sessionBits, ← rm, ← est,
        List.length_append, List.append_cons, ← Nat.add_assoc]
      rwa [ctx] at ends
    · rw [est_u, ctx, rm, est]
      rfl

/-! ## Any input -/

/-- The first `n` bits of the read region, sentinel bits after it, are `bits`. -/
structure InputRead (s0 : State) (bits : List Bool) (n : Nat) : Prop where
  length : n = bits.length
  bits : ∀ j, j < bits.length → s0.inputBit j = bits.getD j false

/-- What has been read so far, and the code word that comes next. -/
theorem DecompressedTo.inputRead_append (done : DecompressedTo s0 l n s) {bits word : List Bool}
    (read : InputRead s0 bits n) (upcoming : upcomingBits s 0 word.length = word) :
    InputRead s0 (bits ++ word) (n + word.length) := by
  obtain ⟨length, same⟩ := read
  refine ⟨by rw [List.length_append, length], fun j j_lt => ?_⟩
  rw [List.length_append] at j_lt
  by_cases before : j < bits.length
  · rw [List.getD_append _ _ _ _ before, same j before]
  · have word_bit := done.inputBit_eq upcoming (j := j - n) (by omega)
    rw [List.getD_append_right _ _ _ _ (Nat.le_of_not_lt before), ← length, ← word_bit]
    congr 1
    omega

theorem rmAfter_mutualInverses {m : Rm} (inverses : MutualInverses m) (x : Byte) (l : List Byte) :
    MutualInverses (rmAfter m x l) := by
  induction l generalizing m x with
  | nil => exact inverses
  | cons c l ih => exact ih (observed_mutualInverses inverses x c) c

/-- Under mutually inverse tables the symbols stored and the bits consumed are those of one encoding
(spec/30_encoding.md R94). -/
def DecodedSoFar (s0 : State) (l : List Byte) (n : Nat) (e : Est) : Prop :=
  MutualInverses s0.rm → e = estAfter s0.rm s0.est 0 l ∧
    InputRead s0 (symbolsBits s0.rm s0.est 0 l) n

/-- One more symbol decoded. -/
theorem DecompressedTo.decoded_concat (done : DecompressedTo s0 l n s)
    (decoded : DecodedSoFar s0 l n s.est) {d : Nat} (d_lt : d < 256)
    (upcoming : upcomingBits s 0 (codeWord s.est.k d).length = codeWord s.est.k d) :
    DecodedSoFar s0 (l ++ [s.rm.symAt s.pl.ctx (BitVec.ofNat 8 d)]) (n + (codeWord s.est.k d).length)
      (estUpdated s.est d) := by
  intro inverses
  obtain ⟨est, read⟩ := decoded inverses
  have rank : ((rmAfter s0.rm 0 l).rankOf (l.getLastD 0)
      (s.rm.symAt s.pl.ctx (BitVec.ofNat 8 d))).toNat = d := by
    rw [done.rm_eq, done.ctx_eq, (rmAfter_mutualInverses inverses 0 l).rankOf_symAt,
      BitVec.toNat_ofNat, Nat.mod_eq_of_lt d_lt]
  rw [estAfter_concat, symbolsBits_concat, rank, ← est]
  exact ⟨rfl, done.inputRead_append read upcoming⟩

/-- A DECOMPRESS in its loop comes to an end, whatever its input holds (spec/44_pipeline.md R203).
-/
theorem DecompressedTo.engineRun_ends (done : DecompressedTo s0 l n s)
    (accepted : SessionAccepted s0)
    (counts : CountsHaveRoom s.rm (s0.regs.outCap.toNat - l.length))
    (decoded : DecodedSoFar s0 l n s.est)
    {fuel : Nat} (enough : s0.regs.outCap.toNat - l.length < fuel) :
    ∃ l' n' last t, DecompressEnds s0 l' n' last t (engineRun fuel s) ∧
      (MutualInverses s0.rm → t.est = estAfter s0.rm s0.est 0 l' ∧
        InputRead s0 (symbolsBits s0.rm s0.est 0 l' ++ codeWord t.est.k last) n') := by
  induction fuel generalizing l s n with
  | zero => exact absurd enough (Nat.not_lt_zero _)
  | succ fuel ih =>
    obtain ⟨d, upcoming⟩ := exists_codeWord_upcoming s s.est.k
    have code := grdDecode_codeWord done.ready upcoming
    have stopped := done.consumed (codeWord s.est.k d).length
    have last (inverses : MutualInverses s0.rm) : s.est = estAfter s0.rm s0.est 0 l ∧
        InputRead s0 (symbolsBits s0.rm s0.est 0 l ++ codeWord s.est.k d)
          (n + (codeWord s.est.k d).length) :=
      (decoded inverses).imp_right fun read => done.inputRead_append read upcoming
    rcases Nat.lt_or_ge d 256 with d_lt | marker
    case inr =>
      refine ⟨l, _, d, _, ⟨stopped, .inl ⟨marker, ?_⟩⟩, last⟩
      rw [engineRun_settle_ok done.running done.step (done.finish code marker)]
      exact engineRun_stopped (PlState.noConfusion ·)
    rcases Nat.lt_or_eq_of_le done.fits with room | full
    case inr =>
      exact ⟨l, _, d, _, ⟨stopped, .inr ⟨d_lt, full,
        engineRun_settle_raised done.running done.step (done.full code d_lt full)⟩⟩, last⟩
    obtain ⟨t, stored, next, est⟩ := done.symbol code accepted d_lt room
      fun x sym => by have := counts x sym; omega
    have left : s0.regs.outCap.toNat - l.length =
        s0.regs.outCap.toNat - (l ++ [s.rm.symAt s.pl.ctx (BitVec.ofNat 8 d)]).length + 1 := by
      rw [List.length_append, List.length_singleton]
      omega
    rw [left] at counts
    rw [engineRun_settle_ok done.running done.step stored]
    refine ih next ?_ (est ▸ done.decoded_concat decoded d_lt upcoming) (by omega)
    rw [(done.after_symbol next).1]
    exact counts.observed _ _

end

/-! ## The results -/

section
variable (s : State) (l : List Byte) (est : Est) (bc : Bc) (ocur : WideAddr)

/-- The results of a completed DECOMPRESS (spec/44_pipeline.md R199). -/
theorem State.finishSession_decompressing :
    finishSession ocur bc.cursor ((s.decompressing l est bc ocur).setBc (bcClosed bc)) = { s with
      bc := bcClosed bc, rm := rmAfter s.rm 0 l, est := est
      pl := { s.pl with
        state := .done, op := .decompress, err := 0, ctx := contextAfter l, ocur := ocur }
      regs := { s.regs with outEnd := ocur.setWidth 32, inCur := bc.cur }
      mem := s.mem.setBytes s.regs.outBase.toNat l, prog := .looping } := by
  rw [finishSession, Bc.cursor_setWidth]
  rfl

/-- The results of a DECOMPRESS that raised (spec/60_exceptions.md R222). -/
theorem State.takeFault_decompressing :
    takeFault .bufferTooSmall (s.decompressing l est bc ocur) = { s with
      bc := bc, rm := rmAfter s.rm 0 l, est := est
      pl := { s.pl with
        state := .faulted, op := .decompress, err := 4, ctx := contextAfter l, ocur := ocur }
      regs := { s.regs with outEnd := ocur.setWidth 32, inCur := bc.cur }
      mem := s.mem.setBytes s.regs.outBase.toNat l, prog := .looping } := by
  rw [← Bc.cursor_setWidth]
  rfl

end

/-- A channel that kept its limit. -/
theorem Bc.eq_of_lim {b c : Bc} (lim : c.lim = b.lim) : c = { b with
    mode := c.mode, cur := c.cur, carry := c.carry, stop := c.stop, acc := c.acc,
    fill := c.fill } := by
  rw [← lim]

section
variable {s t : State} {l : List Byte} {n : Nat} (stopped : DecompressedTo s l n t)
include stopped

/-- A session that completed, field by field. -/
theorem DecompressedTo.finishSession_eq :
    finishSession t.pl.ocur t.bc.cursor (t.setBc (bcClosed t.bc)) = { s with
      bc := { s.bc with
        mode := .closed, cur := t.bc.cur, carry := t.bc.carry, stop := t.bc.stop, acc := t.bc.acc,
        fill := t.bc.fill }
      rm := rmAfter s.rm 0 l, est := t.est
      pl := { s.pl with
        state := .done, op := .decompress, err := 0, ctx := contextAfter l, ocur := t.pl.ocur }
      regs := { s.regs with outEnd := t.pl.ocur.setWidth 32, inCur := t.bc.cur }
      mem := s.mem.setBytes s.regs.outBase.toNat l, prog := .looping } := by
  have closed : bcClosed t.bc = _ := Bc.eq_of_lim (b := s.bc) (c := bcClosed t.bc) stopped.lim
  have ended := s.finishSession_decompressing l t.est t.bc t.pl.ocur
  rw [← stopped.frame] at ended
  rw [ended, closed]
  rfl

/-- A session that took its fault, field by field. -/
theorem DecompressedTo.takeFault_eq :
    takeFault .bufferTooSmall t = { s with
      bc := { s.bc with
        mode := .read, cur := t.bc.cur, carry := t.bc.carry, stop := t.bc.stop, acc := t.bc.acc,
        fill := t.bc.fill }
      rm := rmAfter s.rm 0 l, est := t.est
      pl := { s.pl with
        state := .faulted, op := .decompress, err := 4, ctx := contextAfter l, ocur := t.pl.ocur }
      regs := { s.regs with outEnd := t.pl.ocur.setWidth 32, inCur := t.bc.cur }
      mem := s.mem.setBytes s.regs.outBase.toNat l, prog := .looping } := by
  have open_still : t.bc = _ := Bc.eq_of_lim (b := s.bc) stopped.lim
  have ended := s.takeFault_decompressing l t.est t.bc t.pl.ocur
  rw [← stopped.frame, open_still, stopped.ready.left] at ended
  exact ended

end

/-- What a run of bytes leaves at its own addresses and elsewhere. -/
theorem Memory.byteAt_setBytes_parts (m : Memory) (a : Nat) (bytes : List Byte) :
    (∀ j, j < bytes.length → (m.setBytes a bytes).byteAt (a + j) = bytes.getD j 0) ∧
      ∀ b, b < a ∨ a + bytes.length ≤ b → (m.setBytes a bytes).byteAt b = m.byteAt b := by
  refine ⟨fun j j_lt => ?_, fun b outside => ?_⟩
  · rw [Memory.byteAt_setBytes, if_pos (by omega), Nat.add_sub_cancel_left]
  · rw [Memory.byteAt_setBytes, if_neg (by omega)]

/-- Settles O45: the stream of the symbols is what comes next after the opening, and the loop over
it is exact. -/
theorem decompressStoresTheSymbolsOfAStream : Obligations.DecompressStoresTheSymbolsOfAStream := by
  rintro s symbols bits idle accepted aligned inverses counts room rfl input
  obtain ⟨u, started, done, est⟩ := decompressStart_decompressedTo accepted aligned
  have rm : u.rm = s.rm := done.rm_eq
  have ctx : u.pl.ctx = 0 := done.ctx_eq
  have upcoming : upcomingBits u 0 (sessionBits s.rm s.est 0 symbols).length =
      sessionBits s.rm s.est 0 symbols := by
    refine List.ext_getElem (length_upcomingBits ..) fun j _ j_lt => ?_
    have bit := input j j_lt
    rw [List.getD_eq_getElem _ _ j_lt] at bit
    rw [← bit]
    simp [upcomingBits, done.upcoming, State.inputBit, readRegionEnd]
  rw [← rm, ← est, ← ctx] at upcoming
  rw [← rm] at inverses counts
  obtain ⟨t, ⟨stopped, ends⟩, est_t⟩ := done.engineRun_stream accepted inverses counts
    (by simpa using room) upcoming
    (fuel := s.regs.inLen.toNat + s.regs.outCap.toNat + 2) (by omega)
  obtain ⟨-, ran⟩ | ⟨small, -⟩ := ends
  case inr => omega
  rw [rm, est, ctx] at est_t
  rw [rm, est, ctx, List.nil_append, Nat.zero_add] at stopped
  obtain ⟨bytes, others⟩ := s.mem.byteAt_setBytes_parts s.regs.outBase.toNat symbols
  have ended := stopped.finishSession_eq
  rw [est_t] at ended
  have mem : t.mem = s.mem.setBytes _ _ := congrArg (·.mem) stopped.frame
  rw [← mem] at bytes others
  exact ⟨_, (exec_decompress_started idle accepted aligned started).trans ran, by rw [ended],
    stopped.ocur, stopped.stop, stopped.cursor, stopped.fill, bytes, others⟩

/-- Settles O46: whatever comes next is the code word of some value, so each engine step stores a
symbol, ends the session or finds the region full; under mutually inverse tables the bits read are
the encoding of the symbols. -/
theorem decompressEndsOnEveryInput : Obligations.DecompressEndsOnEveryInput := by
  intro s idle accepted aligned counts
  obtain ⟨u, started, done, est⟩ := decompressStart_decompressedTo accepted aligned
  have rm : u.rm = s.rm := done.rm_eq
  obtain ⟨symbols, n, last, t, ⟨stopped, ends⟩, decoded⟩ := done.engineRun_ends accepted
    (by rwa [rm]) (fun _ => ⟨est, rfl, fun j j_lt => absurd j_lt (Nat.not_lt_zero j)⟩)
    (fuel := s.regs.inLen.toNat + s.regs.outCap.toNat + 2) (by simp; omega)
  obtain ⟨bytes, others⟩ := s.mem.byteAt_setBytes_parts s.regs.outBase.toNat symbols
  have mem : t.mem = s.mem.setBytes _ _ := congrArg (·.mem) stopped.frame
  rw [← mem] at bytes others
  have reading (inverses : MutualInverses s.rm) : t.est = estAfter s.rm s.est 0 symbols ∧
      ∃ read, read = symbolsBits s.rm s.est 0 symbols ++ codeWord t.est.k last ∧
        (∀ j, j < read.length →
          sessionBit s.mem s.regs.inBase.toNat t.bc.stop.toNat j = read.getD j false) ∧
        t.bc.cursor.toNat =
          s.regs.inBase.toNat + 4 * min (s.regs.inLen.toNat / 4) (read.length / 32 + 1) ∧
        t.bc.fill.toNat = read.length % 32 := by
    obtain ⟨est_t, length, bits⟩ := decoded inverses
    have cursor := stopped.cursor
    have fill := stopped.fill
    rw [length] at cursor fill
    rw [stopped.stop]
    exact ⟨est_t, _, rfl, bits, cursor, fill⟩
  rw [exec_decompress_started idle accepted aligned started]
  rcases ends with ⟨marker, ran⟩ | ⟨symbol, full, ran⟩
  · refine ⟨_, symbols, ran, by rw [stopped.finishSession_eq], .inl ⟨rfl, ?_, rfl, stopped.fits⟩,
      stopped.stop, stopped.ocur, bytes, others, fun inverses => ?_⟩
    · rw [stopped.finishSession_eq]
    · obtain ⟨est_t, read, read_eq, rest⟩ := reading inverses
      exact ⟨est_t, last, read, ⟨fun small => absurd marker (Nat.not_le.2 small), nofun⟩, read_eq,
        rest⟩
  · refine ⟨_, symbols, ran, ?_, .inr ⟨rfl, rfl, stopped.ready.left, full⟩, stopped.stop,
      stopped.ocur, bytes, others, fun inverses => ?_⟩
    · rw [stopped.takeFault_eq]
    · obtain ⟨est_t, read, read_eq, rest⟩ := reading inverses
      exact ⟨est_t, last, read, ⟨fun _ => rfl, fun _ => symbol⟩, read_eq, rest⟩

end Sys2Proof.Machine
end

section
/-! PROOFS. What holds of every session, however it ends and whatever the tables hold
(spec/44_pipeline.md R202, R203, spec/20_memory.md R70, spec/43_estimator.md): it comes to an end,
it writes its output region only, and it changes `k` at a boundary only. -/

namespace Sys2Proof.Machine

/-! ## The estimator -/

/-- `f` is `e` after `n` rank values, as far as no boundary comes between. -/
def EstReach (e : Est) (n : Nat) (f : Est) : Prop :=
  e.count.toNat + n ≤ 255 → f.k = e.k ∧ f.count.toNat = e.count.toNat + n

theorem estReach_zero (e : Est) : EstReach e 0 e := fun _ => ⟨rfl, rfl⟩

theorem EstReach.updated {e f : Est} {n : Nat} (reach : EstReach e n f) (d : Nat) :
    EstReach e (n + 1) (estUpdated f d) := by
  intro before
  obtain ⟨k, count⟩ := reach (by omega)
  rw [estUpdated_of_lt (by omega)]
  refine ⟨k, (BitVec.toNat_ofNat _ _).trans ?_⟩
  rw [Nat.mod_eq_of_lt (by omega), count, Nat.add_assoc]

/-! ## An engine that comes to its end -/

/-- An engine whose steps end the command or come nearer to its end, ends it. -/
theorem engineRun_reaches {P : Nat → State → Prop} {Q : State → Prop}
    (running : ∀ n s, P n s → s.pl.state = .running) (stopped : ∀ t, Q t → t.pl.state ≠ .running)
    (step : ∀ n s t, P n s → engineStep s = .next t → Q t ∨ ∃ m, m < n ∧ P m t)
    {n fuel : Nat} {s t : State} (start : P n s) (enough : n < fuel)
    (ran : engineRun fuel s = .next t) : Q t := by
  induction fuel generalizing n s with
  | zero => exact absurd enough (Nat.not_lt_zero n)
  | succ fuel ih =>
    rw [engineRun, if_pos (running n s start)] at ran
    cases moved : engineStep s with
    | next u =>
      rw [moved] at ran
      rcases step n s u start moved with reached | ⟨m, nearer, going⟩
      · rwa [engineRun_stopped_eq (stopped u reached) ran]
      · exact ih going (by omega) ran
    | fault | refused =>
      rw [moved] at ran
      cases ran

/-- `t` is the end of a session of `s0` with `values` symbols at most. -/
structure SessionOver (s0 : State) (values : Nat) (t : State) : Prop where
  ended : t.pl.state = .done ∨ t.pl.state = .faulted
  bytes : ∀ a, a < s0.regs.outBase.toNat ∨ outputEnd s0 ≤ a → t.mem.byteAt a = s0.mem.byteAt a
  est : ∃ n, n ≤ values ∧ EstReach s0.est n t.est

theorem SessionOver.stopped {s0 t : State} {values : Nat} (session : SessionOver s0 values t) :
    t.pl.state ≠ .running := by
  rcases session.ended with done | faulted
  · rw [done]
    exact nofun
  · rw [faulted]
    exact nofun

/-! ## COMPRESS -/

section
variable {s0 s t : State} {left : Nat}

theorem WrittenOver.outside (region : WrittenOver s0 s) (a : Nat)
    (outside : a < s0.regs.outBase.toNat ∨ outputEnd s0 ≤ a) :
    s.mem.byteAt a = s0.mem.byteAt a := by
  have within := region.within
  have base_le : s0.regs.outBase.toNat ≤ outputEnd s0 := Nat.le_add_right ..
  exact region.bytes a (by omega)

/-- A COMPRESS of `s0` with `left` bytes still to be read. -/
structure Compressing (s0 : State) (left : Nat) (s : State) : Prop where
  running : s.pl.state = .running
  op : s.pl.op = .compress
  prog : s.prog = .looping
  mode : s.bc.mode = .write
  input_end : inputEnd s = inputEnd s0
  icur : s.pl.icur.toNat + left = inputEnd s0
  region : WrittenOver s0 s
  est : ∃ n, n + left = s0.regs.inLen.toNat ∧ EstReach s0.est n s.est

theorem engineStep_compressing (op : s.pl.op = .compress) (prog : s.prog = .looping) :
    engineStep s =
      settle (if s.pl.icur.toNat < inputEnd s then compressSymbol s else compressFinish s) := by
  rw [engineStep, op]
  simp only [compressStep, prog]

theorem Compressing.step (going : Compressing s0 left s) : engineStep s =
    settle (if s.pl.icur.toNat < inputEnd s0 then compressSymbol s else compressFinish s) := by
  rw [engineStep_compressing going.op going.prog, going.input_end]

/-- A code word of COMPRESS, completed or not, goes to the output region. -/
theorem WrittenOver.greEncode (region : WrittenOver s0 s) (mode : s.bc.mode = .write) {k : BitVec 5}
    {value : Nat} (encoded : greEncode k value s = .ok () t ∨ greEncode k value s = .raised t) :
    WrittenOver s0 t ∧ t.bc.mode = .write ∧ t = { s with bc := t.bc, mem := t.mem } := by
  rw [greEncode_eq_putBits mode] at encoded
  refine ⟨region.putBits encoded, ?_, putBits_state encoded⟩
  rw [putBits_frame encoded]
  exact mode

/-- A session stopped by a fault after `n` symbols. -/
theorem WrittenOver.takeFault_over (region : WrittenOver s0 s) {n values : Nat} (le : n ≤ values)
    (est : EstReach s0.est n s.est) : SessionOver s0 values (takeFault .bufferTooSmall s) :=
  ⟨.inr rfl, region.outside, n, le, est⟩

/-- A symbol of COMPRESS raises in its code word only. -/
theorem compressSymbol_eq_raised (raised : compressSymbol s = .raised t) :
    greEncode s.est.k (nextRank s) s.byteRead = .raised t := by
  rcases Res.bind_eq_raised.1 raised with read | ⟨_, _, read, encoded⟩
  · exact absurd read (memReadByte_ne_raised _ _ _)
  · obtain ⟨-, rfl, rfl⟩ := memReadByte_eq_ok.1 read
    rcases Res.bind_eq_raised.1 encoded with encoded | ⟨_, v, -, learnt⟩
    · exact encoded
    · exact absurd learnt (learn_ne_raised _ _ _ _)

/-- A closed channel has stored its last word in the output region or had none. -/
theorem WrittenOver.closeWrite_outside (region : WrittenOver s0 s)
    (closed : closeWrite s = .ok () t) (a : Nat)
    (outside : a < s0.regs.outBase.toNat ∨ outputEnd s0 ≤ a) :
    t.mem.byteAt a = s0.mem.byteAt a := by
  obtain ⟨le, -, within, bytes⟩ := closeWrite_storedUpTo closed
  have lim := region.lim
  have from_base := region.from_base
  have within_s := region.within
  have base_le : s0.regs.outBase.toNat ≤ outputEnd s0 := Nat.le_add_right ..
  rw [bytes a (by omega), region.outside a outside]

/-- Only unit BC and memory are changed by a close. -/
theorem closeWrite_state (closed : closeWrite s = .ok () t) :
    t = { s with bc := t.bc, mem := t.mem } :=
  ((Res.leaves_iff.1 (closeWrite_channel s)).1 () t closed).frame

/-- One symbol of a COMPRESS. -/
theorem Compressing.symbol (going : Compressing s0 left s) (accepted : SessionAccepted s0)
    (more : s.pl.icur.toNat < inputEnd s0) (moved : settle (compressSymbol s) = .next t) :
    SessionOver s0 s0.regs.inLen.toNat t ∨ ∃ m, m < left ∧ Compressing s0 m t := by
  obtain ⟨running, op, prog, mode, input_end, icur, region, n, count, est⟩ := going
  rcases settle_eq_next.1 moved with coded | ⟨v, raised, rfl⟩
  · obtain ⟨v, encoded, rfl⟩ := compressSymbol_eq_ok coded
    obtain ⟨region_v, mode_v, frame⟩ := region.byteRead.greEncode mode (.inl encoded)
    obtain ⟨left, rfl⟩ := Nat.exists_eq_add_one.2 (show 0 < left by omega)
    have icur_v : v.pl.icur.toNat = s.pl.icur.toNat + 1 := by
      rw [frame]
      exact toNat_add_one (more.trans_le accepted.input_inside)
    have est_v : v.est = s.est := by rw [frame]; rfl
    refine .inr ⟨left, Nat.lt_succ_self _, ?_, ?_, ?_, mode_v, ?_, ?_,
      region_v.trans (.of_same rfl rfl rfl) rfl, n + 1, by omega, ?_⟩
    · exact (congrArg (·.pl.state) frame).trans running
    · exact (congrArg (·.pl.op) frame).trans op
    · exact (congrArg (·.prog) frame).trans prog
    · rw [← input_end, frame]
      rfl
    · show v.pl.icur.toNat + left = _
      omega
    · rw [State.learned, State.setPl_est, State.setEst_est, est_v]
      exact est.updated _
  · obtain ⟨region_v, -, frame⟩ :=
      region.byteRead.greEncode mode (.inr (compressSymbol_eq_raised raised))
    exact .inl (region_v.takeFault_over (n := n) (by omega) (by rw [frame]; exact est))

/-- The ending of a COMPRESS. -/
theorem Compressing.finish (going : Compressing s0 left s)
    (moved : settle (compressFinish s) = .next t) : SessionOver s0 s0.regs.inLen.toNat t := by
  obtain ⟨-, -, -, mode, -, -, region, n, count, est⟩ := going
  rcases settle_eq_next.1 moved with finished | ⟨u, raised, rfl⟩
  · obtain ⟨_, v, encoded, closing⟩ := Res.bind_eq_ok.1 finished
    obtain ⟨_, w, closed, ended⟩ := Res.bind_eq_ok.1 closing
    obtain ⟨region_v, -, frame⟩ := region.greEncode mode (.inl encoded)
    have frame_w := closeWrite_state closed
    cases ended
    refine ⟨.inl rfl, fun a => region_v.closeWrite_outside closed a, n, by omega, ?_⟩
    rw [frame_w, frame]
    exact est
  · have raised_at : WrittenOver s0 u ∧ u.est = s.est := by
      rcases Res.bind_eq_raised.1 raised with encoded | ⟨_, v, encoded, closing⟩
      · obtain ⟨region_u, -, frame⟩ := region.greEncode mode (.inr encoded)
        exact ⟨region_u, by rw [frame]⟩
      · obtain ⟨region_v, -, frame⟩ := region.greEncode mode (.inl encoded)
        rcases Res.bind_eq_raised.1 closing with refused | ⟨_, w, -, ended⟩
        · obtain ⟨-, -, -, rfl⟩ := closeWrite_eq_raised.1 refused
          exact ⟨region_v, by rw [frame]⟩
        · cases ended
    exact raised_at.1.takeFault_over (n := n) (by omega) (by rw [raised_at.2]; exact est)

/-- One engine step of a COMPRESS in its loop. -/
theorem Compressing.next (going : Compressing s0 left s) (accepted : SessionAccepted s0)
    (moved : engineStep s = .next t) :
    SessionOver s0 s0.regs.inLen.toNat t ∨ ∃ m, m < left ∧ Compressing s0 m t := by
  rw [going.step] at moved
  split at moved
  · next more => exact going.symbol accepted more moved
  · exact .inl (going.finish moved)

/-- The opening of an accepted COMPRESS. -/
theorem CompressedBy.compressing (done : CompressedBy s [] t) :
    Compressing s s.regs.inLen.toNat t := {
  running := done.running
  op := congrArg (·.pl.op) done.frame
  prog := congrArg (·.prog) done.frame
  mode := done.ready.1
  input_end := done.inputEnd_eq
  icur := congrArg (· + s.regs.inLen.toNat) done.icur
  region := done.region
  est := ⟨0, Nat.zero_add _, by rw [done.est_eq]; exact estReach_zero s.est⟩ }

/-- An accepted COMPRESS that does not stop the machine comes to its end. -/
theorem exec_compress_over (idle : s.pl.state ≠ .running)
    (passed : acceptanceFault .compress s = none) (ran : exec .compress s = .next t) :
    SessionOver s s.regs.inLen.toNat t := by
  obtain ⟨accepted, aligned⟩ := sessionCheck_eq_none.1 passed
  obtain ⟨u, started, done⟩ :=
    compressStart_compressedBy accepted (baseMisaligned_compress.1 aligned)
  rw [exec_compress, runCommand_accepted idle passed, commandBound,
    engineRun_settle_ok (acceptCommand_state ..) rfl started] at ran
  exact engineRun_reaches (P := Compressing s) (fun _ _ going => going.running)
    (fun _ session => session.stopped) (fun _ _ _ going => going.next accepted) done.compressing
    (by omega) ran

/-! ## DECOMPRESS -/

/-- All a stored symbol does, and when (spec/44_pipeline.md R199, spec/60_exceptions.md R220). -/
theorem emitSymbol_eq_ok {d : Nat} {u : Unit} : emitSymbol d s = .ok u t ↔
    s.pl.ocur.toNat < outputEnd s ∧ s.pl.ocur.toNat < Config.addressSpace ∧
      (s.rm.freqAt s.pl.ctx (symbolAt s.pl.ctx (BitVec.ofNat 8 d) s)).toNat ≠ 4294967295 ∧ d ≤ 255 ∧
      t = (s.emitted (symbolAt s.pl.ctx (BitVec.ofNat 8 d) s)).learned
        (symbolAt s.pl.ctx (BitVec.ofNat 8 d) s) d := by
  unfold emitSymbol
  dsimp only
  split
  · next full =>
    refine ⟨nofun, fun ⟨room, _⟩ => ?_⟩
    omega
  · next room =>
    simp only [Res.bind_eq_ok, memWriteByte_eq_ok, learn_eq_ok]
    constructor
    · rintro ⟨_, _, ⟨inside, rfl⟩, not_full, d_le, rfl⟩
      exact ⟨by omega, inside, not_full, d_le, rfl⟩
    · rintro ⟨-, inside, not_full, d_le, rfl⟩
      exact ⟨(), _, ⟨inside, rfl⟩, not_full, d_le, rfl⟩

theorem emitSymbol_eq_raised {d : Nat} : emitSymbol d s = .raised t ↔
    outputEnd s < s.pl.ocur.toNat + 1 ∧ t = s := by
  unfold emitSymbol
  dsimp only
  split
  · next full => simp [full, eq_comm]
  · next room =>
    simp [room, Res.bind_eq_raised, memWriteByte_ne_raised, learn_ne_raised]

/-- A DECOMPRESS of `s0` with `left` bytes of room. -/
structure Decompressing (s0 : State) (left : Nat) (s : State) : Prop where
  running : s.pl.state = .running
  op : s.pl.op = .decompress
  prog : s.prog = .looping
  ready : ReadReady s
  output_end : outputEnd s = outputEnd s0
  ocur : s.pl.ocur.toNat + left = outputEnd s0
  from_base : s0.regs.outBase.toNat ≤ s.pl.ocur.toNat
  reads_from : s0.regs.inBase.toNat ≤ s.bc.cursor.toNat
  reads_to : s.bc.stop.toNat ≤ inputEnd s0
  bytes : ∀ a, a < s0.regs.outBase.toNat ∨ outputEnd s0 ≤ a → s.mem.byteAt a = s0.mem.byteAt a
  est : ∃ n, n + left = s0.regs.outCap.toNat ∧ EstReach s0.est n s.est

theorem engineStep_decompressing (op : s.pl.op = .decompress) (prog : s.prog = .looping) :
    engineStep s = settle (decompressSymbol s) := by
  rw [engineStep, op]
  simp only [decompressStep, prog]

theorem Decompressing.step (going : Decompressing s0 left s) :
    engineStep s = settle (decompressSymbol s) :=
  engineStep_decompressing going.op going.prog

/-- Reading leaves the rest of a DECOMPRESS as it is. -/
theorem Decompressing.consumed (going : Decompressing s0 left s) (n : Nat) :
    Decompressing s0 left (s.consumed n) := by
  obtain ⟨running, op, prog, ready, output_end, ocur, from_base, reads_from, reads_to, bytes,
    est⟩ := going
  refine ⟨running, op, prog, ready.consumed n, output_end, ocur, from_base, ?_,
    (congrArg BitVec.toNat (consumedBc_stop s n)).trans_le reads_to, bytes, est⟩
  rw [State.consumed, State.setBc_bc, consumedBc_cursor_toNat]
  exact Nat.le_add_right_of_le reads_from

/-- One more byte stored in the output region. -/
theorem Decompressing.stored (going : Decompressing s0 (left + 1) s)
    (accepted : SessionAccepted s0) (c : Byte) (d : Nat) :
    Decompressing s0 left ((s.emitted c).learned c d) := by
  obtain ⟨running, op, prog, ready, output_end, ocur, from_base, reads_from, reads_to, bytes, n,
    count, est⟩ := going
  have inside : outputEnd s0 ≤ 2 ^ 32 := accepted.output_inside
  have ocur_succ : ((s.emitted c).learned c d).pl.ocur.toNat = s.pl.ocur.toNat + 1 :=
    toNat_add_one (by omega)
  refine ⟨running, op, prog, ready, output_end, by omega, by omega, reads_from, reads_to,
    fun a outside => ?_, n + 1, by omega, est.updated d⟩
  rw [State.learned_mem, State.emitted_mem, Memory.byteAt_setByte_other _ _ (by omega),
    bytes a outside]

/-- One engine step of a DECOMPRESS in its loop. -/
theorem Decompressing.next (going : Decompressing s0 left s) (accepted : SessionAccepted s0)
    (moved : engineStep s = .next t) :
    SessionOver s0 s0.regs.outCap.toNat t ∨ ∃ m, m < left ∧ Decompressing s0 m t := by
  rw [going.step] at moved
  obtain ⟨d, upcoming⟩ := exists_codeWord_upcoming s s.est.k
  have code := grdDecode_codeWord going.ready upcoming
  have read := going.consumed (codeWord s.est.k d).length
  obtain ⟨n, count, est⟩ := read.est
  rcases Nat.lt_or_ge d 256 with d_lt | marker
  · rw [decompressSymbol_of_rank code d_lt] at moved
    rcases settle_eq_next.1 moved with emitted | ⟨u, raised, rfl⟩
    · obtain ⟨room, -, -, -, rfl⟩ := emitSymbol_eq_ok.1 emitted
      rw [read.output_end] at room
      have ocur := read.ocur
      obtain ⟨left, rfl⟩ := Nat.exists_eq_add_one.2 (show 0 < left by omega)
      exact .inr ⟨left, Nat.lt_succ_self _, read.stored accepted _ d⟩
    · obtain ⟨-, rfl⟩ := emitSymbol_eq_raised.1 raised
      exact .inl ⟨.inr rfl, read.bytes, n, by omega, est⟩
  · rw [decompressSymbol_of_marker code marker, decompressFinish, closeRead,
      inMode_pos _ read.ready.left] at moved
    obtain rfl := Host.Outcome.next.inj moved
    exact .inl ⟨.inl rfl, read.bytes, n, by omega, est⟩

/-- The opening of an accepted DECOMPRESS. -/
theorem DecompressedTo.decompressing (done : DecompressedTo s [] 0 t) (est : t.est = s.est) :
    Decompressing s s.regs.outCap.toNat t := by
  have ocur : t.pl.ocur.toNat = s.regs.outBase.toNat := done.ocur
  have cursor := done.cursor
  exact {
    running := done.running
    op := congrArg (·.pl.op) done.frame
    prog := congrArg (·.prog) done.frame
    ready := done.ready
    output_end := done.outputEnd_eq
    ocur := congrArg (· + s.regs.outCap.toNat) ocur
    from_base := ocur.ge
    reads_from := by omega
    reads_to := done.stop.trans_le (readRegionEnd_le_inputEnd s)
    bytes := fun _ _ => by rw [done.frame]; rfl
    est := ⟨0, Nat.zero_add _, by rw [est]; exact estReach_zero s.est⟩ }

/-- An accepted DECOMPRESS that does not stop the machine comes to its end. -/
theorem exec_decompress_over (idle : s.pl.state ≠ .running)
    (passed : acceptanceFault .decompress s = none) (ran : exec .decompress s = .next t) :
    SessionOver s s.regs.outCap.toNat t := by
  obtain ⟨accepted, misaligned⟩ := sessionCheck_eq_none.1 passed
  have aligned := baseMisaligned_decompress.1 misaligned
  obtain ⟨u, started, done, est⟩ := decompressStart_decompressedTo accepted aligned
  rw [exec_decompress_started idle accepted aligned started] at ran
  exact engineRun_reaches (P := Decompressing s) (fun _ _ going => going.running)
    (fun _ session => session.stopped) (fun _ _ _ going => going.next accepted)
    (done.decompressing est) (by omega) ran

/-! ## Every session -/

/-- A rejected session has changed no byte and taught nothing. -/
theorem takeFault_sessionOver (c : FaultCode) (values : Nat) :
    SessionOver s values (takeFault c s) :=
  ⟨.inr (by cases c <;> rfl), fun _ _ => rfl, 0, Nat.zero_le _, estReach_zero s.est⟩

/-- A COMPRESS of a block that is not running ends, if the machine does not stop. -/
theorem exec_compress_sessionOver (idle : s.pl.state ≠ .running)
    (ran : exec .compress s = .next t) : SessionOver s s.regs.inLen.toNat t := by
  rcases runCommand_cases (op := .compress) idle with ⟨c, -, rejected⟩ | ⟨passed, -⟩
  · obtain rfl := Host.Outcome.next.inj (rejected.symm.trans ran)
    exact takeFault_sessionOver c _
  · exact exec_compress_over idle passed ran

theorem exec_decompress_sessionOver (idle : s.pl.state ≠ .running)
    (ran : exec .decompress s = .next t) : SessionOver s s.regs.outCap.toNat t := by
  rcases runCommand_cases (op := .decompress) idle with ⟨c, -, rejected⟩ | ⟨passed, -⟩
  · obtain rfl := Host.Outcome.next.inj (rejected.symm.trans ran)
    exact takeFault_sessionOver c _
  · exact exec_decompress_over idle passed ran

end

/-- Settles O48: every word of COMPRESS lies between the output base and the limit, every byte of
DECOMPRESS between the output base and the end of its region. -/
theorem sessionWritesOnlyItsOutputRegion : Obligations.SessionWritesOnlyItsOutputRegion := by
  intro s t a outside ran
  by_cases idle : s.pl.state = .running
  · rcases ran with ran | ran <;>
      rw [show t = s from Host.Outcome.next.inj (ran.symm.trans (runCommand_running _ idle))]
  · rcases ran with ran | ran
    · exact (exec_compress_sessionOver idle ran).bytes a outside
    · exact (exec_decompress_sessionOver idle ran).bytes a outside

/-- Settles O50: an engine step of a session either ends it or leaves one byte less to be read or
stored. -/
theorem commandsEndInDoneOrFaulted : Obligations.CommandsEndInDoneOrFaulted := by
  rintro s t idle (ran | ran | ran)
  · obtain rfl := Host.Outcome.next.inj ((exec_init_eq_next idle).symm.trans ran)
    exact .inl rfl
  · exact (exec_compress_sessionOver idle ran).ended
  · exact (exec_decompress_sessionOver idle ran).ended

/-! ## When `k` changes -/

/-- One rank value changes `k` at a boundary only (spec/43_estimator.md R186). -/
theorem estUpdated_k_ne {e : Est} {d : Nat} (changed : (estUpdated e d).k ≠ e.k) :
    e.count.toNat = 255 ∧ (estUpdated e d).count = 0 ∧ (estUpdated e d).sum = 0 := by
  unfold estUpdated at changed ⊢
  split at changed
  · next boundary => exact ⟨Nat.succ.inj boundary, by rw [if_pos boundary], by rw [if_pos boundary]⟩
  · exact absurd rfl changed

/-- `f` is `e`, or `e` after one rank value. -/
def OneValueAt (e f : Est) : Prop := f = e ∨ ∃ d, f = estUpdated e d

theorem OneValueAt.of_ne {e f : Est} (one : OneValueAt e f) (changed : f.k ≠ e.k) :
    e.count.toNat = 255 ∧ f.count = 0 ∧ f.sum = 0 := by
  rcases one with rfl | ⟨d, rfl⟩
  · exact absurd rfl changed
  · exact estUpdated_k_ne changed

section
variable {s t : State}

theorem ChannelRun.est (run : ChannelRun s t) : t.est = s.est := congrArg (·.est) run.frame

theorem compressStep_oneValueAt (s : State) :
    (compressStep s).Leaves fun t => OneValueAt s.est t.est := by
  unfold compressStep
  split
  · exact (openWrite_channel _ _ _).bind (fun _ run => .inl run.est) fun _ _ _ run => .inl run.est
  · split
    · refine Res.leaves_iff.2 ⟨fun _ t coded => ?_, fun t raised => .inl ?_⟩
      · obtain ⟨v, encoded, rfl⟩ := compressSymbol_eq_ok coded
        exact .inr ⟨_, congrArg (estUpdated · _)
          ((Res.leaves_iff.1 (greEncode_channel _ _ _)).1 _ _ encoded).est⟩
      · exact ((Res.leaves_iff.1 (greEncode_channel _ _ _)).2 _
          (compressSymbol_eq_raised raised)).est
    · have closed := (greEncode_channel s s.est.k Config.eosValue).then_channel
        fun _ t _ => closeWrite_channel t
      have finished := closed.bind (Q := fun t => OneValueAt s.est t.est)
        (f := fun _ u => .ok () (finishSession u.bc.cursor u.pl.icur u)) (fun _ run => .inl run.est)
        fun _ _ _ run => .inl run.est
      rwa [Res.bind_assoc] at finished

theorem decompressStep_oneValueAt (s : State) :
    (decompressStep s).Leaves fun t => OneValueAt s.est t.est := by
  unfold decompressStep
  split
  · exact (openRead_channel _ _ _).bind (fun _ run => .inl run.est) fun _ _ _ run => .inl run.est
  · refine (grdDecode_channel s _).bind (fun _ run => .inl run.est) fun d t _ run => ?_
    split
    · exact (closeRead_channel t).bind (fun _ run' => .inl (run'.est.trans run.est))
        fun _ _ _ run' => .inl (run'.est.trans run.est)
    · refine Res.leaves_iff.2 ⟨fun _ u emitted => ?_, fun u raised => ?_⟩
      · obtain ⟨-, -, -, -, rfl⟩ := emitSymbol_eq_ok.1 emitted
        exact .inr ⟨d, congrArg (estUpdated · d) run.est⟩
      · obtain ⟨-, rfl⟩ := emitSymbol_eq_raised.1 raised
        exact .inl run.est

/-- One engine step of a session teaches one rank value at most. -/
theorem engineStep_oneValueAt (op : s.pl.op = .compress ∨ s.pl.op = .decompress)
    (moved : engineStep s = .next t) : OneValueAt s.est t.est := by
  rcases op with op | op <;> rw [engineStep, op] at moved
  · exact (compressStep_oneValueAt s).of_settle (fun _ one => one) moved
  · exact (decompressStep_oneValueAt s).of_settle (fun _ one => one) moved

/-- A session changes `k` only if it can reach the boundary. -/
theorem SessionOver.of_k_ne {values : Nat} (session : SessionOver s values t)
    (changed : t.est.k ≠ s.est.k) : 256 ≤ s.est.count.toNat + values := by
  obtain ⟨-, -, n, n_le, reach⟩ := session
  by_contra before
  exact changed (reach (by omega)).left

theorem SessionOver.of_runCommand {op : PlOp} {values : Nat} (ran : runCommand op s = .next t)
    (session : s.pl.state ≠ .running → SessionOver s values t) (changed : t.est.k ≠ s.est.k) :
    256 ≤ s.est.count.toNat + values := by
  by_cases running : s.pl.state = .running
  · obtain rfl := Host.Outcome.next.inj ((runCommand_running op running).symm.trans ran)
    exact absurd rfl changed
  · exact (session running).of_k_ne changed

/-- The operations that can change `k`, and when. -/
theorem exec_k_ne {i : Instr} (next : exec i s = .next t) (changed : t.est.k ≠ s.est.k) :
    i = .init ∨ i = .estInit ∨
      (i = .compress ∧ 256 ≤ s.est.count.toNat + s.regs.inLen.toNat) ∨
      (i = .decompress ∧ 256 ≤ s.est.count.toNat + s.regs.outCap.toNat) ∨
      ∃ d, i = .estUpdate d ∧ s.est.count.toNat = 255 := by
  cases exec_kind next with
  | command ran which =>
    rcases which with ⟨rfl, -⟩ | ⟨rfl, rfl⟩ | ⟨rfl, rfl⟩
    · exact .inl rfl
    · exact .inr (.inr (.inl ⟨rfl, SessionOver.of_runCommand ran
        (fun idle => exec_compress_sessionOver idle ran) changed⟩))
    · exact .inr (.inr (.inr (.inl ⟨rfl, SessionOver.of_runCommand ran
        (fun idle => exec_decompress_sessionOver idle ran) changed⟩)))
  | estInit => exact .inr (.inl rfl)
  | @estUpdate d => exact .inr (.inr (.inr (.inr ⟨d, rfl, (estUpdated_k_ne changed).1⟩)))
  | channel run | channelFault run | channelLatch run =>
    exact absurd (congrArg Est.k run.est) changed
  | rmInit | rmObserve => exact absurd rfl changed

theorem exec_estUpdate_k_ne {d : BitVec 9} (next : exec (.estUpdate d) s = .next t)
    (changed : t.est.k ≠ s.est.k) :
    s.est.count.toNat = 255 ∧ t.est.count = 0 ∧ t.est.sum = 0 := by
  rcases settle_eq_next.1 next with updated | ⟨u, raised, -⟩
  · obtain ⟨-, rfl⟩ := estUpdate_eq_ok.1 updated
    exact estUpdated_k_ne changed
  · exact absurd raised (estUpdate_ne_raised _ s u)

/-- A submission, accepted, rejected or ignored, leaves unit EST alone. -/
theorem submit_est (op : PlOp) (s : State) : (submit op s).est = s.est := by
  by_cases running : s.pl.state = .running
  · rw [submit_running running]
  · rcases submit_cases (op := op) running with ⟨c, -, rejected⟩ | ⟨-, accepted⟩
    · rw [rejected, takeFault_est]
    · rw [accepted]
      rfl

theorem submitReserved_est (s : State) : (submitReserved s).est = s.est := by
  unfold submitReserved
  split <;> rfl

theorem submitWord_est (w : Word) (s : State) : (submitWord w s).est = s.est := by
  unfold submitWord
  split
  · exact submit_est _ s
  · exact submitReserved_est s

theorem hostWrite_est {off : Nat} {v : Word} (next : hostWrite off v s = .next t) :
    t.est = s.est := by
  obtain ⟨-, ⟨-, rfl⟩ | ⟨-, -, rfl⟩ | ⟨-, -, rfl⟩⟩ := hostWrite_eq_next.1 next
  · rfl
  · exact submitWord_est v s
  · rfl

theorem hostRead_est {off : Nat} (next : hostRead off s = .next t) : t.est = s.est := by
  obtain ⟨-, ⟨-, -, rfl⟩ | ⟨-, rfl⟩⟩ := hostRead_eq_next.1 next <;> rfl

theorem hostStore_est {addr : Nat} {bytes : List Byte} (next : hostStore addr bytes s = .next t) :
    t.est = s.est := by
  obtain ⟨-, rfl⟩ := hostStore_eq_next.1 next
  rfl

/-- A packet changes `k` by the operation it decodes to. -/
theorem runPacket_k_ne {p : Packet} (next : runPacket p s = .next t) (changed : t.est.k ≠ s.est.k) :
    ∃ i, decode p = .ok i ∧ (i = .init ∨ i = .estInit ∨
      (i = .compress ∧ 256 ≤ s.est.count.toNat + s.regs.inLen.toNat) ∨
      (i = .decompress ∧ 256 ≤ s.est.count.toNat + s.regs.outCap.toNat) ∨
      ∃ d, i = .estUpdate d ∧ s.est.count.toNat = 255) := by
  unfold runPacket at next
  split at next
  · next i decoded => exact ⟨i, decoded, exec_k_ne next changed⟩
  · obtain rfl := Host.Outcome.next.inj next
    exact absurd (congrArg Est.k (submitReserved_est s)) changed
  · cases next
  · cases next

/-- An engine step changes `k` in INIT or at a boundary. -/
theorem engineStep_k_ne (moved : engineStep s = .next t) (changed : t.est.k ≠ s.est.k) :
    s.pl.op = .init ∨ s.est.count.toNat = 255 := by
  cases op : s.pl.op with
  | init => exact .inl rfl
  | compress => exact .inr ((engineStep_oneValueAt (.inl op) moved).of_ne changed).1
  | decompress => exact .inr ((engineStep_oneValueAt (.inr op) moved).of_ne changed).1
  | none =>
    rw [engineStep, op] at moved
    cases moved

theorem engineMoves_k_ne (moved : engineMoves s = .next t) (changed : t.est.k ≠ s.est.k) :
    s.pl.state = .running ∧ (s.pl.op = .init ∨ s.est.count.toNat = 255) := by
  unfold engineMoves at moved
  split at moved
  · next running => exact ⟨running, engineStep_k_ne moved changed⟩
  · obtain rfl := Host.Outcome.next.inj moved
    exact absurd rfl changed

end

/-- Settles O60: a rank value changes `k` at a boundary only, an engine step of a session teaches
one, a whole session no more than its symbols, and no other action touches unit EST but INIT,
`EST.INIT` and hardware reset. -/
theorem kChangesOnlyAtABoundary : Obligations.KChangesOnlyAtABoundary := by
  refine ⟨fun s t op moved => (engineStep_oneValueAt op moved).of_ne,
    fun s t d => exec_estUpdate_k_ne, fun s t _ next changed => ?_⟩
  have same {P : Prop} (est : t.est = s.est) : P := absurd (congrArg Est.k est) changed
  rcases step_cases s with ⟨o, bus, eq⟩ | ⟨bus, ⟨w, rest, host, eq⟩ | ⟨off, v, rest, -, eq⟩ |
    ⟨off, rest, -, eq⟩ | ⟨rest, host, eq⟩ | ⟨rest, host, eq⟩ | ⟨a, bytes, rest, -, eq⟩ |
    ⟨rest, host, eq⟩ | ⟨host, eq⟩⟩ <;> rw [eq] at next
  · obtain ⟨i, decoded, which⟩ := runPacket_k_ne next changed
    exact .inr (.inr ⟨.op o, _, i, fetch_bus bus, decoded, which⟩)
  · obtain ⟨i, decoded, which⟩ := runPacket_k_ne next changed
    exact .inr (.inr ⟨.cmd w, _, i, fetch_command bus host, decoded, which⟩)
  · exact same (hostWrite_est (s := s.setHost rest) next)
  · exact same (hostRead_est (s := s.setHost rest) next)
  · rcases hostWait_cases rest s with ⟨-, ended⟩ | ⟨running, moves⟩ | ⟨-, idle⟩
    · obtain rfl := Host.Outcome.next.inj (ended.symm.trans next)
      exact same rfl
    · exact .inr (.inl ⟨bus, running, .inr ⟨rest, .inr host⟩,
        engineStep_k_ne (s := s.setRdata (statusWord s)) (moves.symm.trans next) changed⟩)
    · obtain rfl := Host.Outcome.next.inj (idle.symm.trans next)
      exact same rfl
  · obtain ⟨running, which⟩ := engineMoves_k_ne next changed
    exact .inr (.inl ⟨bus, running, .inr ⟨rest, .inl host⟩, which⟩)
  · exact same (hostStore_est (s := s.setHost rest) next)
  · exact .inl ⟨bus, rest, host⟩
  · obtain ⟨running, which⟩ := engineMoves_k_ne next changed
    exact .inr (.inl ⟨bus, running, .inl host, which⟩)

end Sys2Proof.Machine
end

section
/-! PROOFS. Two runs side by side (spec/00_scope.md R13, spec/70_reset_and_hazards.md R259): the
engine reads neither the host's script nor the value last read nor a byte outside its input region,
so what one run does the other does too. -/

namespace Sys2Proof.Machine

/-! ## A state beside another -/

/-- The state `s` with another script, another value last read and another memory. -/
def State.beside (s : State) (h : List HostAction) (r : Word) (m : Memory) : State :=
  { s with host := h, rdata := r, mem := m }

/-- Whatever `r` leaves, `r'` leaves beside it, with a memory that `M` admits there. -/
def Res.Follows {α : Type} (M : State → Memory → Prop) (h : List HostAction) (v : Word)
    (r r' : Res α) : Prop :=
  (∀ a t, r = .ok a t → ∃ m, M t m ∧ r' = .ok a (t.beside h v m)) ∧
    ∀ t, r = .raised t → ∃ m, M t m ∧ r' = .raised (t.beside h v m)

section
variable {α β : Type} {M : State → Memory → Prop} {h : List HostAction} {v : Word}

theorem Res.Follows.bind {r r' : Res α} {f f' : α → State → Res β} (first : r.Follows M h v r')
    (next : ∀ a t m, r = .ok a t → M t m → (f a t).Follows M h v (f' a (t.beside h v m))) :
    (r.bind f).Follows M h v (r'.bind f') := by
  cases r with
  | ok a t =>
    obtain ⟨m, agree, ok⟩ := first.1 a t rfl
    rw [ok]
    exact next a t m rfl agree
  | raised t =>
    obtain ⟨m, agree, raised⟩ := first.2 t rfl
    rw [raised, Res.bind_raised, Res.bind_raised]
    refine ⟨fun _ _ eq => (by cases eq), fun u eq => ?_⟩
    cases eq
    exact ⟨m, agree, rfl⟩
  | fault | refused => exact ⟨fun _ _ eq => (by cases eq), fun _ eq => (by cases eq)⟩

theorem Res.Follows.of_ok {a : α} {t : State} {m : Memory} (agree : M t m) :
    (Res.ok a t).Follows M h v (.ok a (t.beside h v m)) := by
  refine ⟨fun b u eq => ?_, fun _ eq => (by cases eq)⟩
  obtain ⟨rfl, rfl⟩ := Res.ok.inj eq
  exact ⟨m, agree, rfl⟩

/-- An engine step that settles, beside it. -/
theorem Res.Follows.settle {r r' : Res Unit} {t : State} (follows : r.Follows M h v r')
    (fault : ∀ u m, M u m → M (takeFault .bufferTooSmall u) m) (next : settle r = .next t) :
    ∃ m, M t m ∧ settle r' = .next (t.beside h v m) := by
  rcases settle_eq_next.1 next with ok | ⟨u, raised, rfl⟩
  · obtain ⟨m, agree, ok'⟩ := follows.1 () t ok
    exact ⟨m, agree, by rw [ok']; rfl⟩
  · obtain ⟨m, agree, raised'⟩ := follows.2 u raised
    exact ⟨m, fault u m agree, by rw [raised']; rfl⟩

end

/-! ## What writes -/

/-- `M` looks at memory and the cursor of unit BC only, and a flush on both sides keeps it. -/
structure KeptByFlush (M : State → Memory → Prop) : Prop where
  congr : ∀ {s t m}, M s m → t.mem = s.mem → t.bc.cursor = s.bc.cursor → M t m
  flush : ∀ {s m}, M s m →
    M ((s.setMem (s.mem.setWord s.bc.cursor.toNat s.bc.acc)).setBc (bcFlushed s.bc))
      (m.setWord s.bc.cursor.toNat s.bc.acc)

section
variable {M : State → Memory → Prop} {h : List HostAction} {v : Word} {s : State} {m : Memory}
  (kept : KeptByFlush M) (agree : M s m)
include kept agree

theorem flush_follows : (flush s).Follows M h v (flush (s.beside h v m)) := by
  refine ⟨fun _ t flushed => ?_, fun t raised => ?_⟩
  · obtain ⟨mode, room, aligned, inside, rfl⟩ := flush_eq_ok.1 flushed
    exact ⟨_, kept.flush agree, flush_eq_ok.2 ⟨mode, room, aligned, inside, rfl⟩⟩
  · obtain ⟨mode, full, rfl⟩ := flush_eq_raised.1 raised
    exact ⟨m, agree, flush_eq_raised.2 ⟨mode, full, rfl⟩⟩

theorem putBit_follows (bit : Bool) :
    (putBit bit s).Follows M h v (putBit bit (s.beside h v m)) := by
  have placed : M (s.setBc (bcPlaced bit s.bc)) m := kept.congr agree rfl rfl
  refine ⟨fun _ t put => ?_, fun t raised => ?_⟩
  · obtain ⟨mode, ⟨within, rfl⟩ | ⟨last, flushed⟩⟩ := putBit_eq_ok.1 put
    · exact ⟨m, placed, putBit_eq_ok.2 ⟨mode, .inl ⟨within, rfl⟩⟩⟩
    · obtain ⟨m', agree', flushed'⟩ := (flush_follows kept placed).1 () t flushed
      exact ⟨m', agree', putBit_eq_ok.2 ⟨mode, .inr ⟨last, flushed'⟩⟩⟩
  · obtain ⟨mode, last, full, rfl⟩ := putBit_eq_raised.1 raised
    exact ⟨m, placed, putBit_eq_raised.2 ⟨mode, last, full, rfl⟩⟩

theorem putBits_follows (bits : List Bool) :
    (putBits bits s).Follows M h v (putBits bits (s.beside h v m)) := by
  induction bits generalizing s m with
  | nil => exact .of_ok agree
  | cons bit rest ih => exact (putBit_follows kept agree bit).bind fun _ _ _ _ agree => ih agree

theorem greEncode_follows (mode : s.bc.mode = .write) (k : BitVec 5) (value : Nat) :
    (greEncode k value s).Follows M h v (greEncode k value (s.beside h v m)) := by
  rw [greEncode_eq_putBits mode, greEncode_eq_putBits (s := s.beside h v m) mode]
  exact putBits_follows kept agree _

theorem closeWrite_follows : (closeWrite s).Follows M h v (closeWrite (s.beside h v m)) := by
  refine ⟨fun _ t closed => ?_, fun t raised => ?_⟩
  · obtain ⟨mode, ⟨empty, rfl⟩ | ⟨partly, u, flushed, rfl⟩⟩ := closeWrite_eq_ok.1 closed
    · exact ⟨m, kept.congr agree rfl rfl, closeWrite_eq_ok.2 ⟨mode, .inl ⟨empty, rfl⟩⟩⟩
    · obtain ⟨m', agree', flushed'⟩ := (flush_follows (h := h) (v := v) kept agree).1 () u flushed
      exact ⟨m', kept.congr agree' rfl rfl,
        closeWrite_eq_ok.2 ⟨mode, .inr ⟨partly, _, flushed', rfl⟩⟩⟩
  · obtain ⟨mode, partly, full, rfl⟩ := closeWrite_eq_raised.1 raised
    exact ⟨m, agree, closeWrite_eq_raised.2 ⟨mode, partly, full, rfl⟩⟩

end

/-- Learning looks at no byte of memory. -/
theorem learn_follows {M : State → Memory → Prop} {h : List HostAction} {v : Word} {s : State}
    {m : Memory} {sym : Byte} {d : Nat} (agree : M (s.learned sym d) m) :
    (learn sym d s).Follows M h v (learn sym d (s.beside h v m)) := by
  refine ⟨fun _ t learnt => ?_, fun t raised => absurd raised (learn_ne_raised sym d s t)⟩
  obtain ⟨room, d_le, rfl⟩ := learn_eq_ok.1 learnt
  exact ⟨m, agree, learn_eq_ok.2 ⟨room, d_le, rfl⟩⟩

/-! ## COMPRESS -/

section
variable {M : State → Memory → Prop} {h : List HostAction} {v : Word} {s0 s t : State} {m : Memory}
  {left : Nat} (kept : KeptByFlush M) (agree : M s m)
include kept agree

/-- A symbol of COMPRESS, the byte at the input cursor being the same. -/
theorem compressSymbol_follows (mode : s.bc.mode = .write)
    (byte : m.byteAt s.pl.icur.toNat = nextSymbol s) :
    (compressSymbol s).Follows M h v (compressSymbol (s.beside h v m)) := by
  refine Res.Follows.bind (r := memReadByte s.pl.icur.toNat s)
    (r' := memReadByte s.pl.icur.toNat (s.beside h v m)) ⟨fun c t read => ?_, fun t raised => ?_⟩
    fun c t m' read agree' => ?_
  · obtain ⟨inside, rfl, rfl⟩ := memReadByte_eq_ok.1 read
    exact ⟨m, agree, memReadByte_eq_ok.2 ⟨inside, byte.symm, rfl⟩⟩
  · exact absurd raised (memReadByte_ne_raised _ _ _)
  · obtain ⟨-, -, rfl⟩ := memReadByte_eq_ok.1 read
    have agree_read : M t.byteRead m' := kept.congr agree' rfl rfl
    exact (greEncode_follows kept agree_read mode _ _).bind fun _ u m'' _ agree'' =>
      learn_follows (kept.congr agree'' rfl rfl)

theorem compressFinish_follows (mode : s.bc.mode = .write) :
    (compressFinish s).Follows M h v (compressFinish (s.beside h v m)) :=
  (greEncode_follows kept agree mode _ _).bind fun _ _ _ _ agree' =>
    (closeWrite_follows kept agree').bind fun _ _ _ _ agree'' =>
      .of_ok (kept.congr agree'' rfl rfl)

/-- An engine step of a COMPRESS in its loop, the input region being the same. -/
theorem Compressing.follows (going : Compressing s0 left s)
    (input : ∀ a, s0.regs.inBase.toNat ≤ a → a < inputEnd s0 → m.byteAt a = s.mem.byteAt a)
    (moved : engineStep s = .next t) :
    ∃ m', M t m' ∧ engineStep (s.beside h v m) = .next (t.beside h v m') := by
  have fault (u : State) (m' : Memory) (agree' : M u m') : M (takeFault .bufferTooSmall u) m' :=
    kept.congr agree' rfl rfl
  have step := going.step
  have step' : engineStep (s.beside h v m) = settle (if s.pl.icur.toNat < inputEnd s0 then
      compressSymbol (s.beside h v m) else compressFinish (s.beside h v m)) := by
    rw [engineStep_compressing (s := s.beside h v m) going.op going.prog, ← going.input_end]
    rfl
  rw [step] at moved
  rw [step']
  split at moved
  · next more =>
    rw [if_pos more]
    have icur := going.icur
    obtain ⟨n, count, -⟩ := going.est
    refine (compressSymbol_follows kept agree going.mode ?_).settle fault moved
    exact input _ (by unfold inputEnd at icur; omega) more
  · next none =>
    rw [if_neg none]
    exact (compressFinish_follows kept agree going.mode).settle fault moved

end

/-- The opening of COMPRESS looks at no byte of memory. -/
theorem compressStart_beside {s t : State} (started : compressStart s = .ok () t)
    (h : List HostAction) (v : Word) (m : Memory) :
    compressStart (s.beside h v m) = .ok () (t.beside h v m) ∧ t.mem = s.mem := by
  obtain ⟨_, u, opened, ended⟩ := Res.bind_eq_ok.1 started
  obtain ⟨aligned, ordered, rfl⟩ := openWrite_eq_ok.1 opened
  cases ended
  exact ⟨Res.bind_eq_ok.2 ⟨(), _, openWrite_eq_ok.2 ⟨aligned, ordered, rfl⟩, rfl⟩, rfl⟩

/-! ## What reads -/

section
variable {h : List HostAction} {v : Word} {s t : State} {m : Memory}

/-- The words still to be read are the same. -/
theorem reloadWord_beside
    (unread : ∀ a, s.bc.cursor.toNat ≤ a → a < s.bc.stop.toNat → m.byteAt a = s.mem.byteAt a)
    (n : Nat) : reloadWord (s.beside h v m) n = reloadWord s n := by
  have bc : (s.beside h v m).bc = s.bc := rfl
  unfold reloadWord
  rw [bc]
  split
  · exact Memory.wordAt_congr fun a _ _ => unread a (by omega) (by omega)
  · rfl

theorem consumed_beside
    (unread : ∀ a, s.bc.cursor.toNat ≤ a → a < s.bc.stop.toNat → m.byteAt a = s.mem.byteAt a)
    (n : Nat) : (s.beside h v m).consumed n = (s.consumed n).beside h v m := by
  have bc : consumedBc (s.beside h v m) n = consumedBc s n := by
    unfold consumedBc
    rw [reloadWord_beside unread]
    rfl
  rw [State.consumed, bc]
  rfl

theorem reload_beside (reloaded : reload s = .ok () t)
    (word : s.bc.cursor.toNat + 4 ≤ s.bc.stop.toNat →
      m.wordAt s.bc.cursor.toNat = s.mem.wordAt s.bc.cursor.toNat) :
    reload (s.beside h v m) = .ok () (t.beside h v m) := by
  obtain ⟨mode, ⟨more, aligned, inside, rfl⟩ | ⟨none, rfl⟩⟩ := reload_eq_ok.1 reloaded
  · refine reload_eq_ok.2 ⟨mode, .inl ⟨more, aligned, inside, ?_⟩⟩
    rw [← word more]
    rfl
  · exact reload_eq_ok.2 ⟨mode, .inr ⟨none, rfl⟩⟩

/-- The opening of DECOMPRESS reads the first word of its region. -/
theorem decompressStart_beside (started : decompressStart s = .ok () t)
    (input : ∀ a, s.regs.inBase.toNat ≤ a → a < inputEnd s → m.byteAt a = s.mem.byteAt a) :
    decompressStart (s.beside h v m) = .ok () (t.beside h v m) ∧ t.mem = s.mem := by
  obtain ⟨_, u, opened, ended⟩ := Res.bind_eq_ok.1 started
  obtain ⟨valid, reloaded⟩ := openRead_eq_ok.1 opened
  cases ended
  have reloaded' := reload_beside (h := h) (v := v) (m := m) reloaded fun more => by
    have stop_le : (BitVec.ofNat 33 (readRegionEnd s)).toNat ≤ readRegionEnd s :=
      (BitVec.toNat_ofNat _ _).trans_le (Nat.mod_le _ _)
    have read_le := readRegionEnd_le_inputEnd s
    have first : s.regs.inBase.toNat + 4 ≤ (BitVec.ofNat 33 (readRegionEnd s)).toNat := by
      rw [State.setBc_bc, bcOpenedRead_cursor_toNat] at more
      exact more
    rw [State.setBc_bc, bcOpenedRead_cursor_toNat]
    exact Memory.wordAt_congr fun a from_base before_end =>
      input a from_base (by
        have before : a < s.regs.inBase.toNat + 4 := before_end
        omega)
  refine ⟨Res.bind_eq_ok.2 ⟨(), u.beside h v m, openRead_eq_ok.2 ⟨valid, reloaded'⟩, rfl⟩, ?_⟩
  rw [reload_frame reloaded]
  rfl

end

/-- `M` looks at memory and the output cursor only, and a byte stored on both sides keeps it. -/
structure KeptByStore (M : State → Memory → Prop) : Prop where
  congr : ∀ {s t m}, M s m → t.mem = s.mem → t.pl.ocur = s.pl.ocur → M t m
  store : ∀ {s m} (c : Byte), M s m → M (s.emitted c) (m.setByte s.pl.ocur.toNat c)

section
variable {M : State → Memory → Prop} {h : List HostAction} {v : Word} {s0 s t : State} {m : Memory}
  {left : Nat} (kept : KeptByStore M) (agree : M s m)
include kept agree

theorem emitSymbol_follows (d : Nat) :
    (emitSymbol d s).Follows M h v (emitSymbol d (s.beside h v m)) := by
  refine ⟨fun _ t emitted => ?_, fun t raised => ?_⟩
  · obtain ⟨room, inside, not_full, d_le, rfl⟩ := emitSymbol_eq_ok.1 emitted
    exact ⟨_, kept.congr (kept.store _ agree) rfl rfl,
      emitSymbol_eq_ok.2 ⟨room, inside, not_full, d_le, rfl⟩⟩
  · obtain ⟨full, rfl⟩ := emitSymbol_eq_raised.1 raised
    exact ⟨m, agree, emitSymbol_eq_raised.2 ⟨full, rfl⟩⟩

theorem decompressFinish_follows (mode : s.bc.mode = .read) :
    (decompressFinish s).Follows M h v (decompressFinish (s.beside h v m)) := by
  rw [decompressFinish, decompressFinish, closeRead, closeRead, inMode_pos _ mode,
    inMode_pos (s := s.beside h v m) _ mode]
  exact .of_ok (kept.congr agree rfl rfl)

/-- A code word of DECOMPRESS, the words still to be read being the same. -/
theorem decompressSymbol_follows (ready : ReadReady s)
    (unread : ∀ a, s.bc.cursor.toNat ≤ a → a < s.bc.stop.toNat → m.byteAt a = s.mem.byteAt a) :
    (decompressSymbol s).Follows M h v (decompressSymbol (s.beside h v m)) := by
  obtain ⟨d, upcoming⟩ := exists_codeWord_upcoming s s.est.k
  have code := grdDecode_codeWord ready upcoming
  have upcoming' := upcomingBits_congr (s := s) (t := s.beside h v m) rfl unread 0
    (codeWord s.est.k d).length
  have code' := grdDecode_codeWord (s := s.beside h v m) ready (upcoming'.trans upcoming)
  rw [consumed_beside unread] at code'
  have agree' : M (s.consumed (codeWord s.est.k d).length) m := kept.congr agree rfl rfl
  rcases Nat.lt_or_ge d 256 with d_lt | marker
  · rw [decompressSymbol_of_rank code d_lt,
      decompressSymbol_of_rank (s := s.beside h v m) code' d_lt]
    exact emitSymbol_follows kept agree' d
  · rw [decompressSymbol_of_marker code marker,
      decompressSymbol_of_marker (s := s.beside h v m) code' marker]
    exact decompressFinish_follows kept agree' (ready.consumed _).left

/-- An engine step of a DECOMPRESS in its loop, the input region being the same. -/
theorem Decompressing.follows (going : Decompressing s0 left s)
    (input : ∀ a, s0.regs.inBase.toNat ≤ a → a < inputEnd s0 → m.byteAt a = s.mem.byteAt a)
    (moved : engineStep s = .next t) :
    ∃ m', M t m' ∧ engineStep (s.beside h v m) = .next (t.beside h v m') := by
  rw [going.step] at moved
  rw [engineStep_decompressing (s := s.beside h v m) going.op going.prog]
  have reads_from := going.reads_from
  have reads_to := going.reads_to
  refine (decompressSymbol_follows kept agree going.ready fun a from_cursor before_stop =>
    input a (by omega) (by omega)).settle (fun u m' agree' => kept.congr agree' rfl rfl) moved

end

/-! ## The engine -/

/-- A run whose every step is followed is followed. -/
theorem engineRun_follows {M : State → Memory → Prop} {P : State → Prop} {h : List HostAction}
    {v : Word} (keeps : ∀ s t, P s → engineStep s = .next t → t.pl.state ≠ .running ∨ P t)
    (step : ∀ s t m, P s → M s m → engineStep s = .next t →
      ∃ m', M t m' ∧ engineStep (s.beside h v m) = .next (t.beside h v m'))
    {fuel : Nat} {s t : State} {m : Memory} (start : s.pl.state ≠ .running ∨ P s) (agree : M s m)
    (ran : engineRun fuel s = .next t) :
    ∃ m', M t m' ∧ engineRun fuel (s.beside h v m) = .next (t.beside h v m') := by
  induction fuel generalizing s m with
  | zero =>
    obtain rfl := Host.Outcome.next.inj ran
    exact ⟨m, agree, rfl⟩
  | succ fuel ih =>
    by_cases running : s.pl.state = .running
    case neg =>
      obtain rfl := engineRun_stopped_eq running ran
      exact ⟨m, agree, engineRun_stopped (s := t.beside h v m) running⟩
    case pos =>
      have going := start.resolve_left (not_not_intro running)
      rw [engineRun, if_pos running] at ran
      cases moved : engineStep s with
      | next u =>
        rw [moved] at ran
        obtain ⟨m', agree', moved'⟩ := step s u m going agree moved
        rw [engineRun_running (s := s.beside h v m) running moved']
        exact ih (keeps s u going moved) agree' ran
      | fault | refused =>
        rw [moved] at ran
        cases ran

/-! ## Dependence on the input region -/

section
variable {s t : State} {m : Memory}

/-- The host's script and the value last read are no business of a move of the engine. -/
theorem Move.outside (move : Move s t) : t.host = s.host ∧ t.rdata = s.rdata := by
  cases move with
  | channel move =>
    rw [move.frame]
    exact ⟨rfl, rfl⟩
  | _ => exact ⟨rfl, rfl⟩

theorem Run.outside (run : Run s t) : t.host = s.host ∧ t.rdata = s.rdata :=
  run.keeps (P := fun t => t.host = s.host ∧ t.rdata = s.rdata)
    (fun _ _ move ⟨host, rdata⟩ => ⟨move.outside.1.trans host, move.outside.2.trans rdata⟩)
    ⟨rfl, rfl⟩

theorem Run.beside_self (run : Run s t) (m : Memory) :
    t.beside s.host s.rdata m = { t with mem := m } := by
  rw [State.beside, ← run.outside.1, ← run.outside.2]

/-- The memories of two runs of one session: the same in the input region, and in the output region
from its base up to `top`, where the writing has come to. -/
def InOutAlike (s0 : State) (top : Nat) (m m' : Memory) : Prop :=
  ∀ a, s0.regs.inBase.toNat ≤ a ∧ a < inputEnd s0 ∨ s0.regs.outBase.toNat ≤ a ∧ a < top →
    m'.byteAt a = m.byteAt a

/-- The same word stored in two memories. -/
theorem Memory.byteAt_setWord_congr {m m' : Memory} {a b : Nat} (w : Word)
    (same : b < a ∨ a + 4 ≤ b → m'.byteAt b = m.byteAt b) :
    (m'.setWord a w).byteAt b = (m.setWord a w).byteAt b := by
  by_cases outside : b < a ∨ a + 4 ≤ b
  · rw [Memory.byteAt_setWord_other _ _ (by omega), Memory.byteAt_setWord_other _ _ (by omega),
      same outside]
  · rw [Memory.byteAt_setWord, Memory.byteAt_setWord]
    split_ifs
    exacts [rfl, rfl, rfl, rfl, same (by omega)]

theorem inOutAlike_keptByFlush (s0 : State) :
    KeptByFlush fun s m => InOutAlike s0 s.bc.cursor.toNat s.mem m where
  congr alike mem cursor := by
    rwa [mem, cursor]
  flush {s m} alike a region := by
    have next : (bcFlushed s.bc).cursor.toNat ≤ s.bc.cursor.toNat + 4 := by
      rw [bcFlushed_cursor, BitVec.toNat_add]
      exact Nat.mod_le _ _
    rw [State.setBc_bc] at region
    exact Memory.byteAt_setWord_congr _ fun outside => alike a (by omega)

theorem inOutAlike_keptByStore (s0 : State) :
    KeptByStore fun s m => InOutAlike s0 s.pl.ocur.toNat s.mem m where
  congr alike mem ocur := by
    rwa [mem, ocur]
  store {s m} c alike a region := by
    have next : (s.emitted c).pl.ocur.toNat ≤ s.pl.ocur.toNat + 1 := by
      rw [State.emitted, State.setPl_pl, BitVec.toNat_add]
      exact Nat.mod_le _ _
    rw [State.emitted_mem, Memory.byteAt_setByte, Memory.byteAt_setByte]
    split
    · rfl
    · exact alike a (by omega)

variable (input : ∀ a, s.regs.inBase.toNat ≤ a → a < inputEnd s → m.byteAt a = s.mem.byteAt a)
  (idle : s.pl.state ≠ .running)
include input idle

/-- An accepted COMPRESS over another memory with the same input. -/
theorem exec_compress_beside (passed : acceptanceFault .compress s = none)
    (ran : exec .compress s = .next t) (h : List HostAction) (v : Word) :
    ∃ m', InOutAlike s t.bc.cursor.toNat t.mem m' ∧
      exec .compress (s.beside h v m) = .next (t.beside h v m') := by
  obtain ⟨accepted, misaligned⟩ := sessionCheck_eq_none.1 passed
  obtain ⟨u, started, done⟩ :=
    compressStart_compressedBy accepted (baseMisaligned_compress.1 misaligned)
  obtain ⟨started', mem⟩ := compressStart_beside started h v m
  rw [exec_compress, runCommand_accepted idle passed, commandBound,
    engineRun_settle_ok (acceptCommand_state ..) rfl started] at ran
  rw [exec_compress, runCommand_accepted (s := s.beside h v m) idle passed, commandBound,
    engineRun_settle_ok (s := acceptCommand .compress (s.beside h v m)) rfl rfl started']
  have alike : InOutAlike s u.bc.cursor.toNat u.mem m := fun a region => by
    have cursor : u.bc.cursor.toNat = s.regs.outBase.toNat := by simpa using done.session.cursor
    rw [mem]
    exact input a (by omega) (by omega)
  exact engineRun_follows (P := fun w => ∃ left, Compressing s left w)
    (fun w x ⟨left, going⟩ moved => (going.next accepted moved).imp SessionOver.stopped
      fun ⟨left', _, going'⟩ => ⟨left', going'⟩)
    (fun w x m' ⟨left, going⟩ alike moved => going.follows (inOutAlike_keptByFlush s) alike
      (fun a from_base before_end => alike a (.inl ⟨from_base, before_end⟩)) moved)
    (.inr ⟨_, done.compressing⟩) alike ran

/-- An accepted DECOMPRESS over another memory with the same input. -/
theorem exec_decompress_beside (passed : acceptanceFault .decompress s = none)
    (ran : exec .decompress s = .next t) (h : List HostAction) (v : Word) :
    ∃ m', InOutAlike s t.pl.ocur.toNat t.mem m' ∧
      exec .decompress (s.beside h v m) = .next (t.beside h v m') := by
  obtain ⟨accepted, misaligned⟩ := sessionCheck_eq_none.1 passed
  have aligned := baseMisaligned_decompress.1 misaligned
  obtain ⟨u, started, done, est⟩ := decompressStart_decompressedTo accepted aligned
  obtain ⟨started', mem⟩ := decompressStart_beside (h := h) (v := v) started input
  rw [exec_decompress_started idle accepted aligned started] at ran
  rw [exec_decompress_started (s := s.beside h v m) idle accepted aligned started']
  have alike : InOutAlike s u.pl.ocur.toNat u.mem m := fun a region => by
    have ocur : u.pl.ocur.toNat = s.regs.outBase.toNat := done.ocur
    rw [mem]
    exact input a (by omega) (by omega)
  exact engineRun_follows (P := fun w => ∃ left, Decompressing s left w)
    (fun w x ⟨left, going⟩ moved => (going.next accepted moved).imp SessionOver.stopped
      fun ⟨left', _, going'⟩ => ⟨left', going'⟩)
    (fun w x m' ⟨left, going⟩ alike moved => going.follows (inOutAlike_keptByStore s) alike
      (fun a from_base before_end => alike a (.inl ⟨from_base, before_end⟩)) moved)
    (.inr ⟨_, done.decompressing est⟩) alike ran

omit input idle in
/-- A command over another memory: ignored and rejected it is the same, accepted it is so by
hypothesis. -/
theorem runCommand_withMemory {op : PlOp} {top : Nat} (ran : runCommand op s = .next t)
    (accepted : s.pl.state ≠ .running → acceptanceFault op s = none →
      ∃ m', InOutAlike s top t.mem m' ∧
        runCommand op (s.beside s.host s.rdata m) = .next (t.beside s.host s.rdata m')) :
    ∃ u, runCommand op { s with mem := m } = .next u ∧ u = { t with mem := u.mem } ∧
      (s.pl.state ≠ .running → acceptanceFault op s = none →
        ∀ a, s.regs.outBase.toNat ≤ a → a < top → u.mem.byteAt a = t.mem.byteAt a) := by
  by_cases running : s.pl.state = .running
  · obtain rfl := Host.Outcome.next.inj ((runCommand_running op running).symm.trans ran)
    exact ⟨_, runCommand_running (s := { s with mem := m }) op running, rfl,
      fun idle => absurd running idle⟩
  rcases runCommand_cases (op := op) running with ⟨c, rejected, same⟩ | ⟨passed, -⟩
  · obtain rfl := Host.Outcome.next.inj (same.symm.trans ran)
    have rejected' : acceptanceFault op { s with mem := m } = some c := by
      rw [← rejected]
      cases op <;> rfl
    rcases runCommand_cases (op := op) (s := { s with mem := m }) running with
      ⟨c', rejected'', same'⟩ | ⟨passed, -⟩
    · cases rejected'.symm.trans rejected''
      refine ⟨_, same', ?_, fun _ passed => ?_⟩
      · cases c <;> rfl
      · cases rejected.symm.trans passed
    · cases rejected'.symm.trans passed
  · obtain ⟨m', alike, ran'⟩ := accepted running passed
    have frame := (runCommand_run ran).beside_self m'
    refine ⟨_, ran', ?_, fun _ _ a from_base before_top => alike a (.inr ⟨from_base, before_top⟩)⟩
    rw [frame]

end

/-- Settles O49: the engine reads the bytes of the input region only, and what it writes is the same
in both runs. -/
theorem sessionDependsOnItsInputRegionOnly : Obligations.SessionDependsOnItsInputRegionOnly := by
  intro s t m input
  refine ⟨fun ran => ?_, fun ran => ?_⟩
  · obtain ⟨u, ran', frame, written⟩ := runCommand_withMemory (op := .compress) ran
      fun idle passed => exec_compress_beside input idle passed ran _ _
    exact ⟨u, ran', frame, fun idle accepted aligned => written idle
      (sessionCheck_eq_none.2 ⟨accepted, baseMisaligned_compress.2 aligned⟩)⟩
  · obtain ⟨u, ran', frame, written⟩ := runCommand_withMemory (op := .decompress) ran
      fun idle passed => exec_decompress_beside input idle passed ran _ _
    exact ⟨u, ran', frame, fun idle accepted aligned => written idle
      (sessionCheck_eq_none.2 ⟨accepted, baseMisaligned_decompress.2 aligned⟩)⟩

end Sys2Proof.Machine
end

section
/-! PROOFS. The command in small steps (spec/00_scope.md R13): each step of a `WAIT` is one engine
step of the big step, beside it. -/

namespace Sys2Proof.Machine

/-! ## A command while it runs -/

/-- The states that a command given to `s0` runs through. -/
inductive CommandAt (s0 : State) : State → Prop
  | init : CommandAt s0 (acceptCommand .init s0)
  | compressStart (passed : acceptanceFault .compress s0 = none) :
      CommandAt s0 (acceptCommand .compress s0)
  | decompressStart (passed : acceptanceFault .decompress s0 = none) :
      CommandAt s0 (acceptCommand .decompress s0)
  | compressing {left : Nat} {s : State} (accepted : SessionAccepted s0)
      (going : Compressing s0 left s) : CommandAt s0 s
  | decompressing {left : Nat} {s : State} (accepted : SessionAccepted s0)
      (going : Decompressing s0 left s) : CommandAt s0 s

theorem eqMem_keptByFlush : KeptByFlush fun s m => m = s.mem where
  congr same mem _ := same.trans mem.symm
  flush same := by rw [same]; rfl

theorem eqMem_keptByStore : KeptByStore fun s m => m = s.mem where
  congr same mem _ := same.trans mem.symm
  store c same := by rw [same]; rfl

section
variable {s0 s t : State}

/-- An engine step of a command, and the same step beside it. -/
theorem CommandAt.step (now : CommandAt s0 s) (moved : engineStep s = .next t) :
    (t.pl.state ≠ .running ∨ CommandAt s0 t) ∧
      ∀ h v, engineStep (s.beside h v s.mem) = .next (t.beside h v t.mem) := by
  cases now with
  | init =>
    obtain rfl := Host.Outcome.next.inj moved
    exact ⟨.inl nofun, fun h v => rfl⟩
  | compressStart passed =>
    obtain ⟨accepted, misaligned⟩ := sessionCheck_eq_none.1 passed
    obtain ⟨u, started, done⟩ :=
      compressStart_compressedBy accepted (baseMisaligned_compress.1 misaligned)
    have step : engineStep (acceptCommand .compress s0) = .next u := congrArg settle started
    obtain rfl := Host.Outcome.next.inj (step.symm.trans moved)
    refine ⟨.inr (.compressing accepted done.compressing), fun h v => ?_⟩
    obtain ⟨started', mem⟩ := compressStart_beside started h v s0.mem
    rw [mem]
    exact congrArg settle started'
  | decompressStart passed =>
    obtain ⟨accepted, misaligned⟩ := sessionCheck_eq_none.1 passed
    obtain ⟨u, started, done, est⟩ :=
      decompressStart_decompressedTo accepted (baseMisaligned_decompress.1 misaligned)
    have step : engineStep (acceptCommand .decompress s0) = .next u := congrArg settle started
    obtain rfl := Host.Outcome.next.inj (step.symm.trans moved)
    refine ⟨.inr (.decompressing accepted (done.decompressing est)), fun h v => ?_⟩
    obtain ⟨started', mem⟩ := decompressStart_beside (h := h) (v := v) (m := s0.mem) started
      fun _ _ _ => rfl
    rw [mem]
    exact congrArg settle started'
  | compressing accepted going =>
    refine ⟨(going.next accepted moved).imp SessionOver.stopped
      fun ⟨_, _, going'⟩ => .compressing accepted going', fun h v => ?_⟩
    obtain ⟨_, rfl, moved'⟩ := going.follows eqMem_keptByFlush (h := h) (v := v) rfl
      (fun _ _ _ => rfl) moved
    exact moved'
  | decompressing accepted going =>
    refine ⟨(going.next accepted moved).imp SessionOver.stopped
      fun ⟨_, _, going'⟩ => .decompressing accepted going', fun h v => ?_⟩
    obtain ⟨_, rfl, moved'⟩ := going.follows eqMem_keptByStore (h := h) (v := v) rfl
      (fun _ _ _ => rfl) moved
    exact moved'

/-! ## Waiting for it -/

theorem core_run_succ (n : Nat) (stepped : step s = .next t) :
    Host.Core.run Sys2Proof.core (n + 1) s = Host.Core.run Sys2Proof.core n t := by
  have core_step : Sys2Proof.core.step s = .next t := stepped
  simp only [Host.Core.run, core_step]

theorem step_eq_hostWait {rest : List HostAction} (bus : s.bus = none)
    (host : s.host = .wait :: rest) : step s = hostWait rest s := by
  simpa [bus, host] using step_cases s

/-- A `WAIT` with `DONE = 1` is over in one step (spec/70_reset_and_hazards.md R257). -/
theorem step_wait_stopped {rest : List HostAction} (bus : s.bus = none)
    (ended : s.pl.state = .done ∨ s.pl.state = .faulted) (v : Word) :
    step (s.beside (.wait :: rest) v s.mem) =
      .next { s with host := rest, rdata := statusWord s } := by
  rw [step_eq_hostWait (s := s.beside (.wait :: rest) v s.mem) bus rfl]
  exact if_pos ((flagDone_iff _).2 ended)

/-- A `WAIT` of a running block is one engine step (spec/70_reset_and_hazards.md R257). -/
theorem step_wait_running {rest : List HostAction} (bus : s.bus = none)
    (running : s.pl.state = .running) (v : Word) :
    step (s.beside (.wait :: rest) v s.mem) =
      engineStep (s.beside (.wait :: rest) (statusWord s) s.mem) := by
  rw [step_eq_hostWait (s := s.beside (.wait :: rest) v s.mem) bus rfl]
  rcases hostWait_cases rest (s.beside (.wait :: rest) v s.mem) with
    ⟨ended, -⟩ | ⟨-, moves⟩ | ⟨idle, -⟩
  · rcases ended with state | state <;> cases running.symm.trans state
  · exact moves
  · cases running.symm.trans idle

/-- A `WAIT` beside a command that ends takes as many steps as the engine, and one more. -/
theorem run_wait {rest : List HostAction} {fuel : Nat}
    (now : s.pl.state ≠ .running ∨ CommandAt s0 s) (bus : s.bus = none)
    (ran : engineRun fuel s = .next t) (ended : t.pl.state = .done ∨ t.pl.state = .faulted)
    (v : Word) : ∃ n, Host.Core.run Sys2Proof.core n (s.beside (.wait :: rest) v s.mem) =
      .next { t with host := rest, rdata := statusWord t } := by
  induction fuel generalizing s v with
  | zero =>
    obtain rfl := Host.Outcome.next.inj ran
    exact ⟨1, core_run_succ 0 (step_wait_stopped bus ended v)⟩
  | succ fuel ih =>
    by_cases running : s.pl.state = .running
    case neg =>
      obtain rfl := engineRun_stopped_eq running ran
      exact ⟨1, core_run_succ 0 (step_wait_stopped bus ended v)⟩
    case pos =>
      rw [engineRun, if_pos running] at ran
      cases moved : engineStep s with
      | next u =>
        rw [moved] at ran
        obtain ⟨now', moved'⟩ := (now.resolve_left (not_not_intro running)).step moved
        have bus_u := (engineStep_run running moved).keeps (fun _ _ move => move.bus) bus
        obtain ⟨n, reached⟩ := ih now' bus_u ran (statusWord s)
        refine ⟨n + 1, (core_run_succ n ?_).trans reached⟩
        rw [step_wait_running bus running]
        exact moved' _ _
      | fault | refused =>
        rw [moved] at ran
        cases ran

/-! ## The first step -/

theorem submit_beside (op : PlOp) (s : State) (h : List HostAction) (v : Word) (m : Memory) :
    submit op (s.beside h v m) = (submit op s).beside h v m := by
  have same : acceptanceFault op (s.beside h v m) = acceptanceFault op s := by cases op <;> rfl
  have state : (s.beside h v m).pl.state = s.pl.state := rfl
  unfold submit
  rw [same, state]
  split
  · rfl
  · split
    · next c _ => cases c <;> rfl
    · rfl

theorem submit_mem (op : PlOp) (s : State) : (submit op s).mem = s.mem := by
  by_cases running : s.pl.state = .running
  · rw [submit_running running]
  · rcases submit_cases (op := op) running with ⟨c, -, rejected⟩ | ⟨-, accepted⟩
    · rw [rejected, takeFault_mem]
    · rw [accepted]
      rfl

/-- A submitted command is rejected or runs. -/
theorem submit_commandAt {op : PlOp} (idle : s.pl.state ≠ .running)
    (command : op = .init ∨ op = .compress ∨ op = .decompress) :
    (submit op s).pl.state ≠ .running ∨ CommandAt s (submit op s) := by
  rcases submit_cases (op := op) idle with ⟨c, -, rejected⟩ | ⟨passed, accepted⟩
  · left
    rw [rejected]
    cases c <;> exact nofun
  · right
    rw [accepted]
    rcases command with rfl | rfl | rfl
    · exact .init
    · exact .compressStart passed
    · exact .decompressStart passed

end

/-- The command words decode to the three commands (spec/30_encoding.md R104). -/
theorem exec_of_decodeCmd {w : Word} {i : Instr} (decoded : decodeCmd w = .ok i) :
    (i = .init ∨ i = .compress ∨ i = .decompress) ∧ ∀ s, exec i s = runCommand (plOpOf i) s := by
  unfold decodeCmd at decoded
  split_ifs at decoded <;> cases decoded
  · exact ⟨.inl rfl, fun _ => rfl⟩
  · exact ⟨.inr (.inl rfl), fun _ => rfl⟩
  · exact ⟨.inr (.inr rfl), fun _ => rfl⟩

/-- Settles O51: the `CMD` write is the submission, and each step of `WAIT` is an engine step of
the big step, which ends with `DONE = 1`. -/
theorem smallStepsReachTheBigStep : Obligations.SmallStepsReachTheBigStep := by
  intro s t w i rest bus idle host decoded ran
  obtain ⟨which, meaning⟩ := exec_of_decodeCmd decoded
  have idle' : ({ s with host := rest } : State).pl.state ≠ .running := idle
  have command : plOpOf i = .init ∨ plOpOf i = .compress ∨ plOpOf i = .decompress := by
    rcases which with rfl | rfl | rfl
    exacts [.inl rfl, .inr (.inl rfl), .inr (.inr rfl)]
  have ended : t.pl.state = .done ∨ t.pl.state = .faulted := by
    refine commandsEndInDoneOrFaulted { s with host := rest } t idle' ?_
    rcases which with rfl | rfl | rfl
    exacts [.inl ran, .inr (.inl ran), .inr (.inr ran)]
  have host_t : t.host = rest := (exec_run ran).outside.1
  rw [meaning, runCommand, if_neg idle'] at ran
  have bus_u := (submit_run (plOpOf i) { s with host := rest }).keeps (fun _ _ move => move.bus) bus
  obtain ⟨n, reached⟩ := run_wait (rest := rest) (submit_commandAt idle' command) bus_u ran ended
    s.rdata
  have written : step s = .next ((submit (plOpOf i) { s with host := rest }).beside (.wait :: rest)
      s.rdata (submit (plOpOf i) { s with host := rest }).mem) := by
    rw [step_eq_hostWrite bus host, submit_mem, ← submit_beside]
    refine hostWrite_eq_next.2 ⟨rfl, .inr (.inl ⟨idle, rfl, ?_⟩)⟩
    simp only [submitWord, show decodeCmd w = .ok i from decoded]
    rfl
  refine ⟨n + 1, (core_run_succ n written).trans (reached.trans ?_)⟩
  rw [← host_t]

end Sys2Proof.Machine
end
